-- ==== Sys2Proof/Word.lean ====
section
/-! DEFINITION. The word types of HUFCORE: the widths of 00_scope.md R7 and 10_state.md R22 to R43. -/

namespace Sys2Proof

/-- A register or data word of the 32-bit bus (00_scope.md R7). -/
abbrev Word := BitVec 32

/-- A symbol, a payload byte or a padding count: one of 256 byte values (00_scope.md R12). -/
abbrev Byte := BitVec 8

/-- A byte offset from HUF_BASE (20_memory.md R61). -/
abbrev Offset := BitVec 16

/-- An access key `{dir, off[15:2], 2'b00}` (30_encoding.md R100). -/
abbrev Key := BitVec 17

/-- A node index (10_state.md R32). -/
abbrev NodeIdx := BitVec 9

/-- A node weight (00_scope.md R7, WEIGHT_W). -/
abbrev Weight := BitVec 40

/-- A 64-bit count: ENC_BITS, DEC_LEN, REMAIN (10_state.md R38, R40, R41). -/
abbrev Count := BitVec 64

end Sys2Proof
end

