-- ==== Sys2Proof/Bus.lean ====
section
/-! DEFINITION. What reaches HUFCORE from outside: host accesses in format BUS, command words in format
CMD, and the events of the host interface (30_encoding.md R100, R101; 00_scope.md R6; 20_memory.md R61). -/

namespace Sys2Proof

/-- A host access in format BUS: a direction, a 16-bit byte offset and, for a write, a 32-bit data word
(30_encoding.md R100). The decoder ignores off[1:0] (20_memory.md R61). -/
inductive Access where
  | read (off : Offset)
  | write (off : Offset) (data : Word)
deriving DecidableEq, Repr

/-- The direction of an access on the platform's bus. -/
inductive Dir where
  | read
  | write
deriving DecidableEq, Repr

/-- An access as the platform's bus carries it: a byte address of `n` bits, byte enables and a data word
(20_memory.md R61). The spec states no width for a platform address, so `n` stays open (log 5). -/
structure HostAccess (n : Nat) where
  dir : Dir
  addr : BitVec n
  byteEnable : BitVec 4
  data : Word
deriving DecidableEq, Repr

/-- The nine commands of format CMD (30_encoding.md R102). -/
inductive Cmd where
  | nop
  | clear
  | buildTree
  | genCodes
  | encStart
  | encFinish
  | decStart
  | abort
  | ackErr
deriving DecidableEq, Repr

/-- An operation as it is encoded, in one of the two formats (30_encoding.md R100): the data word of a
write to CMD, or an access. -/
inductive OpWord where
  | cmd (word : Word)
  | bus (access : Access)
deriving DecidableEq, Repr

/-- What the outside world does to HUFCORE, one at a time: the host performs an access (00_scope.md R6),
or the platform resets the block (70_reset_and_hazards.md R260, log 4). -/
inductive HostEvent where
  | access (a : Access)
  | reset
deriving DecidableEq, Repr

end Sys2Proof
end

