-- ==== Sys2Proof/Config.lean ====
section
/-! DEFINITION. The implementation parameters of 00_scope.md R7. HUF_BASE is OPEN there ("A model takes
`HUF_BASE` as an argument"): it is the first argument of `HostAccess.inWindow` and `HostAccess.toAccess`
(Decode.lean), and of nothing else, since everything behind them sees only the offset (log 5). -/

namespace Sys2Proof.Config

/-- NSYM: the number of symbols. -/
abbrev numSymbols : Nat := 256

/-- NNODE_MAX: the number of node records. -/
abbrev numNodes : Nat := 511

/-- NONE: the node index that names no node. -/
abbrev noNode : NodeIdx := 0x1FF#9

/-- MAXLEN: the longest code, in bits. -/
abbrev maxLen : Nat := 255

/-- OUT_DEPTH: the depth of the output FIFO, in bytes. -/
abbrev outDepth : Nat := 64

/-- ENC_ROOM: the free FIFO entries ENC_DATA needs. -/
abbrev encRoom : Nat := 32

/-- DEC_ROOM: the free FIFO entries DEC_DATA needs. -/
abbrev decRoom : Nat := 8

/-- The constant of the ID register, the ASCII bytes HUF1 (10_state.md R44). -/
abbrev idValue : Word := 0x48554631#32

end Sys2Proof.Config
end

