-- ==== Sys2Proof/Syntax.lean ====
section
/-! DEFINITION. The operations of HUFCORE: one constructor per row of spec/opcode_table.json. -/

namespace Sys2Proof

/-- The operations. The first nine are command words (format CMD, 30_encoding.md R102); the rest are
host accesses (format BUS, R103). `s`, `k` and `i` are the offset's operand fields; a write carries its
whole 32-bit data word (R105). -/
inductive Instr where
  | nop
  | clear
  | buildTree
  | genCodes
  | encStart
  | encFinish
  | decStart
  | abort
  | ackErr
  | wrCmd (word : Word)
  | wrFreq (s : Byte) (data : Word)
  | rdFreq (s : Byte)
  | rdPresent (k : BitVec 3)
  | rdNodeInfo (i : NodeIdx)
  | rdNodeWlo (i : NodeIdx)
  | rdNodeWhi (i : NodeIdx)
  | rdNleaf
  | rdRoot
  | rdCodeLen (s : Byte)
  | rdCodeWord (s : Byte) (k : BitVec 3)
  | wrEncData (data : Word)
  | rdEncBitsLo
  | rdEncBitsHi
  | rdAcc
  | wrPad (data : Word)
  | rdPad
  | wrDecLenLo (data : Word)
  | wrDecLenHi (data : Word)
  | rdDecLenLo
  | rdDecLenHi
  | wrDecData (data : Word)
  | rdDecRemainLo
  | rdDecRemainHi
  | rdCur
  | rdOutData
  | rdOutCount
  | rdStatus
  | rdErrInfo
  | rdId
deriving DecidableEq, Repr

end Sys2Proof
end

