-- ==== Sys2Proof/WellFormed.lean ====
section
/-! DEFINITION. Which terms of `Instr` are operations of the spec. -/

namespace Sys2Proof

/-- A node index names a record, 0 to 510; 511 is reserved (30_encoding.md R103, 20_memory.md R64). -/
def NodeIdx.inArena (i : NodeIdx) : Bool := decide (i.toNat < Config.numNodes)

/-- The operand bounds of 30_encoding.md R103. Every symbol, word index and data word is an operand;
only a node index has a bound of its own. -/
def Instr.wellFormed : Instr → Bool
  | .nop => true
  | .clear => true
  | .buildTree => true
  | .genCodes => true
  | .encStart => true
  | .encFinish => true
  | .decStart => true
  | .abort => true
  | .ackErr => true
  | .wrCmd _ => true
  | .wrFreq _ _ => true
  | .rdFreq _ => true
  | .rdPresent _ => true
  | .rdNodeInfo i => NodeIdx.inArena i
  | .rdNodeWlo i => NodeIdx.inArena i
  | .rdNodeWhi i => NodeIdx.inArena i
  | .rdNleaf => true
  | .rdRoot => true
  | .rdCodeLen _ => true
  | .rdCodeWord _ _ => true
  | .wrEncData _ => true
  | .rdEncBitsLo => true
  | .rdEncBitsHi => true
  | .rdAcc => true
  | .wrPad _ => true
  | .rdPad => true
  | .wrDecLenLo _ => true
  | .wrDecLenHi _ => true
  | .rdDecLenLo => true
  | .rdDecLenHi => true
  | .wrDecData _ => true
  | .rdDecRemainLo => true
  | .rdDecRemainHi => true
  | .rdCur => true
  | .rdOutData => true
  | .rdOutCount => true
  | .rdStatus => true
  | .rdErrInfo => true
  | .rdId => true

end Sys2Proof
end

