-- ==== Sys2Proof/Decode.lean ====
section
/-! DEFINITION. The decoder, total on every access and every command word, and the encoder
(30_encoding.md R100 to R105, 20_memory.md R61 to R65). -/

namespace Sys2Proof

/-- Why an encoding is no operation of the table. None of these stops the machine: an illegal command word
is WR_CMD's to report (30_encoding.md R104), and a reserved access reads 0 or does nothing (20_memory.md
R64, R65). -/
inductive Reject where
  /-- a read or a write of an offset the register map reserves, index 511 of a node window included -/
  | reservedOffset (off : Offset)
  /-- a write to a read-only register -/
  | writeOfReadOnly (off : Offset)
  /-- a read of a write-only register -/
  | readOfWriteOnly (off : Offset)
  /-- a command word with RSV not 0 or an OPCODE above 0x08 -/
  | illegalCommand (word : Word)
  /-- a number that is no access key: bits above bit 16 are set -/
  | notAKey (w : Nat)
deriving DecidableEq, Repr

/-! ### Addresses -/

/-- The window is the 65536 bytes from HUF_BASE (20_memory.md R60). -/
def HostAccess.inWindow {n : Nat} (hufBase : BitVec n) (h : HostAccess n) : Bool :=
  decide ((h.addr - hufBase).toNat < 65536)

/-- `off = (addr - HUF_BASE)[15:0]` (20_memory.md R61). -/
def offsetOf {n : Nat} (hufBase addr : BitVec n) : Offset := (addr - hufBase).setWidth 16

/-- The access HUFCORE sees: byte enables are ignored, a write writes all 32 bits (20_memory.md R61). -/
def HostAccess.toAccess {n : Nat} (hufBase : BitVec n) (h : HostAccess n) : Access :=
  match h.dir with
  | .read => .read (offsetOf hufBase h.addr)
  | .write => .write (offsetOf hufBase h.addr) h.data

/-- The byte offset with off[1:0] = 0 (20_memory.md R62). -/
def wordOffset (off : Offset) : Nat := 4 * (off.toNat / 4)

/-- The access key `K = {dir, off[15:2], 2'b00}`, dir = 1 for a write (30_encoding.md R100). -/
def Access.key : Access → Key
  | .read off => 0#1 ++ off.extractLsb' 2 14 ++ 0#2
  | .write off _ => 1#1 ++ off.extractLsb' 2 14 ++ 0#2

/-! ### Operand fields of an offset (30_encoding.md R103) -/

/-- `s = off[9:2]`. -/
def symField (off : Offset) : Byte := off.extractLsb' 2 8

/-- `k = off[4:2]`. -/
def wordField (off : Offset) : BitVec 3 := off.extractLsb' 2 3

/-- `i = off[10:2]`. -/
def nodeField (off : Offset) : NodeIdx := off.extractLsb' 2 9

/-- `s = off[12:5]` of a code word's offset. -/
def codeSymField (off : Offset) : Byte := off.extractLsb' 5 8

/-! ### Format CMD -/

/-- OPCODE, bits [7:0] (30_encoding.md R101). -/
def cmdOpcode (w : Word) : Byte := w.extractLsb' 0 8

/-- RSV, bits [31:8] (30_encoding.md R101). -/
def cmdReserved (w : Word) : BitVec 24 := w.extractLsb' 8 24

/-- The commands by opcode (30_encoding.md R102). -/
def cmdOfOpcode (op : Byte) : Option Cmd :=
  if op = 0x00#8 then some .nop
  else if op = 0x01#8 then some .clear
  else if op = 0x02#8 then some .buildTree
  else if op = 0x03#8 then some .genCodes
  else if op = 0x04#8 then some .encStart
  else if op = 0x05#8 then some .encFinish
  else if op = 0x06#8 then some .decStart
  else if op = 0x07#8 then some .abort
  else if op = 0x08#8 then some .ackErr
  else none

/-- A command word is legal when RSV = 0 and OPCODE is assigned (30_encoding.md R104). -/
def decodeCmd (w : Word) : Except Reject Cmd :=
  if cmdReserved w = 0#24 then
    match cmdOfOpcode (cmdOpcode w) with
    | some c => .ok c
    | none => .error (.illegalCommand w)
  else .error (.illegalCommand w)

/-- The operation a command is. -/
def Cmd.toInstr : Cmd → Instr
  | .nop => .nop
  | .clear => .clear
  | .buildTree => .buildTree
  | .genCodes => .genCodes
  | .encStart => .encStart
  | .encFinish => .encFinish
  | .decStart => .decStart
  | .abort => .abort
  | .ackErr => .ackErr

/-! ### Format BUS -/

/-- A node window's register, index 511 excepted (20_memory.md R63). -/
def nodeRead (off : Offset) (mk : NodeIdx → Instr) : Except Reject Instr :=
  if NodeIdx.inArena (nodeField off) then .ok (mk (nodeField off)) else .error (.reservedOffset off)

/-- The reads of 30_encoding.md R103, by byte offset. -/
def decodeRead (off : Offset) : Except Reject Instr :=
  let o := wordOffset off
  if o = 0x000 then .ok .rdId
  else if o = 0x008 then .ok .rdStatus
  else if o = 0x00C then .ok .rdErrInfo
  else if o = 0x010 then .ok .rdPad
  else if o = 0x014 then .ok .rdNleaf
  else if o = 0x018 then .ok .rdRoot
  else if o = 0x01C then .ok .rdCur
  else if o = 0x020 then .ok .rdDecLenLo
  else if o = 0x024 then .ok .rdDecLenHi
  else if o = 0x028 then .ok .rdDecRemainLo
  else if o = 0x02C then .ok .rdDecRemainHi
  else if o = 0x030 then .ok .rdEncBitsLo
  else if o = 0x034 then .ok .rdEncBitsHi
  else if o = 0x038 then .ok .rdOutCount
  else if o = 0x03C then .ok .rdAcc
  else if o = 0x048 then .ok .rdOutData
  else if 0x060 ≤ o ∧ o ≤ 0x07C then .ok (.rdPresent (wordField off))
  else if 0x400 ≤ o ∧ o ≤ 0x7FC then .ok (.rdFreq (symField off))
  else if 0x800 ≤ o ∧ o ≤ 0xBFC then .ok (.rdCodeLen (symField off))
  else if 0x2000 ≤ o ∧ o ≤ 0x3FFC then .ok (.rdCodeWord (codeSymField off) (wordField off))
  else if 0x4000 ≤ o ∧ o ≤ 0x47FC then nodeRead off .rdNodeInfo
  else if 0x4800 ≤ o ∧ o ≤ 0x4FFC then nodeRead off .rdNodeWlo
  else if 0x5000 ≤ o ∧ o ≤ 0x57FC then nodeRead off .rdNodeWhi
  else if o = 0x004 ∨ o = 0x040 ∨ o = 0x044 then .error (.readOfWriteOnly off)
  else .error (.reservedOffset off)

/-- A write that matches no row: of a read-only register, or of a reserved offset (20_memory.md R64, R65). -/
def rejectWrite (off : Offset) : Reject :=
  match decodeRead off with
  | .ok _ => .writeOfReadOnly off
  | .error _ => .reservedOffset off

/-- The writes of 30_encoding.md R103, by byte offset. -/
def decodeWrite (off : Offset) (data : Word) : Except Reject Instr :=
  let o := wordOffset off
  if o = 0x004 then .ok (.wrCmd data)
  else if o = 0x010 then .ok (.wrPad data)
  else if o = 0x020 then .ok (.wrDecLenLo data)
  else if o = 0x024 then .ok (.wrDecLenHi data)
  else if o = 0x040 then .ok (.wrEncData data)
  else if o = 0x044 then .ok (.wrDecData data)
  else if 0x400 ≤ o ∧ o ≤ 0x7FC then .ok (.wrFreq (symField off) data)
  else .error (rejectWrite off)

/-- First stage: the access, by its key (30_encoding.md R100). -/
def decodeBus : Access → Except Reject Instr
  | .read off => decodeRead off
  | .write off data => decodeWrite off data

/-- An operation from its encoding in either format. -/
def decode : OpWord → Except Reject Instr
  | .cmd w =>
    match decodeCmd w with
    | .ok c => .ok c.toInstr
    | .error r => .error r
  | .bus a => decodeBus a

/-! ### The encoder -/

/-- Offset of FREQ[s] (20_memory.md R63). -/
def freqOffset (s : Byte) : Offset := BitVec.ofNat 16 (0x400 + 4 * s.toNat)

/-- Offset of CODE_LEN[s]. -/
def codeLenOffset (s : Byte) : Offset := BitVec.ofNat 16 (0x800 + 4 * s.toNat)

/-- Offset of CODE_WORD[s][k]. -/
def codeWordOffset (s : Byte) (k : BitVec 3) : Offset :=
  BitVec.ofNat 16 (0x2000 + 32 * s.toNat + 4 * k.toNat)

/-- Offset of PRESENT_k. -/
def presentOffset (k : BitVec 3) : Offset := BitVec.ofNat 16 (0x060 + 4 * k.toNat)

/-- Offset of a node window's register i. -/
def nodeOffset (window : Nat) (i : NodeIdx) : Offset := BitVec.ofNat 16 (window + 4 * i.toNat)

/-- The encoding of an operation: a command word, or an access (30_encoding.md R102, R103). -/
def encode : Instr → OpWord
  | .nop => .cmd 0x00000000#32
  | .clear => .cmd 0x00000001#32
  | .buildTree => .cmd 0x00000002#32
  | .genCodes => .cmd 0x00000003#32
  | .encStart => .cmd 0x00000004#32
  | .encFinish => .cmd 0x00000005#32
  | .decStart => .cmd 0x00000006#32
  | .abort => .cmd 0x00000007#32
  | .ackErr => .cmd 0x00000008#32
  | .wrCmd w => .bus (.write 0x0004#16 w)
  | .wrFreq s d => .bus (.write (freqOffset s) d)
  | .rdFreq s => .bus (.read (freqOffset s))
  | .rdPresent k => .bus (.read (presentOffset k))
  | .rdNodeInfo i => .bus (.read (nodeOffset 0x4000 i))
  | .rdNodeWlo i => .bus (.read (nodeOffset 0x4800 i))
  | .rdNodeWhi i => .bus (.read (nodeOffset 0x5000 i))
  | .rdNleaf => .bus (.read 0x0014#16)
  | .rdRoot => .bus (.read 0x0018#16)
  | .rdCodeLen s => .bus (.read (codeLenOffset s))
  | .rdCodeWord s k => .bus (.read (codeWordOffset s k))
  | .wrEncData d => .bus (.write 0x0040#16 d)
  | .rdEncBitsLo => .bus (.read 0x0030#16)
  | .rdEncBitsHi => .bus (.read 0x0034#16)
  | .rdAcc => .bus (.read 0x003C#16)
  | .wrPad d => .bus (.write 0x0010#16 d)
  | .rdPad => .bus (.read 0x0010#16)
  | .wrDecLenLo d => .bus (.write 0x0020#16 d)
  | .wrDecLenHi d => .bus (.write 0x0024#16 d)
  | .rdDecLenLo => .bus (.read 0x0020#16)
  | .rdDecLenHi => .bus (.read 0x0024#16)
  | .wrDecData d => .bus (.write 0x0044#16 d)
  | .rdDecRemainLo => .bus (.read 0x0028#16)
  | .rdDecRemainHi => .bus (.read 0x002C#16)
  | .rdCur => .bus (.read 0x001C#16)
  | .rdOutData => .bus (.read 0x0048#16)
  | .rdOutCount => .bus (.read 0x0038#16)
  | .rdStatus => .bus (.read 0x0008#16)
  | .rdErrInfo => .bus (.read 0x000C#16)
  | .rdId => .bus (.read 0x0000#16)

/-- The host access that issues an encoded operation: a command word is the data word of a write to CMD
(30_encoding.md R100). -/
def OpWord.issue : OpWord → Access
  | .cmd w => .write 0x0004#16 w
  | .bus a => a

/-! ### The opcode table's numbering of bits (log 6) -/

/-- The access of a row in format BUS: the 17-bit key in bits [16:0] of a 24-bit field, and for a write the
data word from bit 24 on. -/
def tableAccess (w : Nat) : Access :=
  if w / 0x10000 % 2 = 1 then .write (BitVec.ofNat 16 w) (BitVec.ofNat 32 (w / 0x1000000))
  else .read (BitVec.ofNat 16 w)

/-- The encoding a row's bits stand for: a row of 32 bits is a command word, a shorter one an access key. -/
def tableOpWord (nbits w : Nat) : OpWord :=
  if nbits = 32 then .cmd (BitVec.ofNat 32 w) else .bus (tableAccess w)

/-- What the decoder makes of a row's bits. -/
def decodeTable (nbits w : Nat) : Except Reject Instr :=
  if nbits ≠ 32 ∧ w / 0x20000 % 128 ≠ 0 then .error (.notAKey w) else decode (tableOpWord nbits w)

/-- The instruction the decoder reads from a row's bits, none where it refuses. -/
def decodeTableWord (nbits w : Nat) : Option Instr :=
  match decodeTable nbits w with
  | .ok i => some i
  | .error _ => none

end Sys2Proof
end

