-- ==== Sys2Proof/Machine/State.lean ====
section
/-! DEFINITION. The state of HUFCORE (10_state.md R22 to R43), the reset state (70_reset_and_hazards.md
R260), and the reasons a step can stop. -/

namespace Sys2Proof.Machine

/-- MODE (10_state.md R22). "The value 3 never occurs", so it is no value of this type (log 11). -/
inductive Mode where
  | idle
  | enc
  | dec
deriving DecidableEq, Repr

/-- The error codes of ERR, 0 to 8 in this order (60_exceptions.md R231). Codes 9 to 15 are never raised,
so they are no value of this type (log 11). -/
inductive ErrCode where
  | noError
  | illegal
  | state
  | overrun
  | badFreq
  | noSym
  | padding
  | truncated
  | noTree
deriving DecidableEq, Repr

/-- A node record (10_state.md R31). -/
structure Node where
  valid : Bool
  leaf : Bool
  sym : Byte
  left : NodeIdx
  right : NodeIdx
  weight : Weight
deriving DecidableEq, Repr

/-- A record with all-zero fields (10_state.md R31). -/
def Node.zero : Node := ⟨false, false, 0#8, 0#9, 0#9, 0#40⟩

/-- The node arena, NODE[0] to NODE[510]. -/
abbrev Arena := Vector Node 511

/-- A file of one entry per symbol. -/
abbrev SymFile (α : Type) := Vector α 256

/-- One code: eight 32-bit words (10_state.md R36). -/
abbrev CodeRow := Vector Word 8

/-- The state. Every field but the last two is the spec's; each is named after the spec's element. -/
structure State where
  /-- MODE, R22 -/
  mode : Mode
  /-- TREE_VALID, R23 -/
  treeValid : Bool
  /-- CODES_VALID, R24 -/
  codesValid : Bool
  /-- DONE, R25 -/
  done : Bool
  /-- ERR, R26 -/
  err : ErrCode
  /-- ERR_INFO, R27 -/
  errInfo : Word
  /-- FREQ, R28 -/
  freq : SymFile Word
  /-- PRESENT, R29 -/
  present : SymFile Bool
  /-- NODE, R31 -/
  nodes : Arena
  /-- NLEAF, R33 -/
  nleaf : BitVec 9
  /-- ROOT, R34 -/
  root : NodeIdx
  /-- CODE_LEN, R35 -/
  codeLen : SymFile Byte
  /-- CODE, held as CODE_WORD[s][k], R36 -/
  codeWord : SymFile CodeRow
  /-- ACC, R37 -/
  acc : Byte
  /-- ACC_N, R37 -/
  accN : BitVec 3
  /-- ENC_BITS, R38 -/
  encBits : Count
  /-- PAD, R39 -/
  pad : Byte
  /-- DEC_LEN, R40 -/
  decLen : Count
  /-- REMAIN, R41 -/
  remain : Count
  /-- CUR, R42 -/
  cur : NodeIdx
  /-- OUT, head first, R43 -/
  out : List Byte
  /-- The model's own: the host's events not yet performed, oldest first (log 1). -/
  pending : List HostEvent
  /-- The model's own: the word the access just performed returned, none for a write (log 2). -/
  reply : Option Word
deriving DecidableEq, Repr

/-- Why a step stops. HUFCORE itself never stops (20_memory.md R68): both reasons are stuck states that
no run reaches (93_implementation_defined.md, treatment `stuck`), so stopping there is safe (log 9). -/
inductive Fault where
  /-- Raised by WR_DEC_DATA and GEN_CODES: the tree walk meets an index that names no node. Safe: the spec
  keeps CUR on an internal node (44_decoder_unpacker.md R190). -/
  | offTree
  /-- Raised by GEN_CODES: a path of more than MAXLEN = 255 branches. Safe: every leaf is at depth at most
  255 (41_tree_builder.md R138). -/
  | treeTooDeep
deriving DecidableEq, Repr

/-- Why a step is refused. -/
inductive Refusal where
  /-- Raised by `exec` for an instruction with no meaning in the model; none is left. Safe. -/
  | notModelled (mnemonic : String)
deriving DecidableEq, Repr

/-- The state right after reset (70_reset_and_hazards.md R260); `pending` and `reply` are the model's own
(log 1, log 2). -/
def State.reset : State where
  mode := .idle
  treeValid := false
  codesValid := false
  done := false
  err := .noError
  errInfo := 0#32
  freq := Vector.replicate 256 0#32
  present := Vector.replicate 256 false
  nodes := Vector.replicate 511 Node.zero
  nleaf := 0#9
  root := Config.noNode
  codeLen := Vector.replicate 256 0#8
  codeWord := Vector.replicate 256 (Vector.replicate 8 0#32)
  acc := 0#8
  accN := 0#3
  encBits := 0#64
  pad := 0#8
  decLen := 0#64
  remain := 0#64
  cur := Config.noNode
  out := []
  pending := []
  reply := none

/-- The three outcomes of an operation. -/
abbrev Result := Host.Outcome State Fault Refusal

end Sys2Proof.Machine
end

