-- ==== Sys2Proof/Machine/Ops.lean ====
section
/-! DEFINITION. The operations every instruction is written with: access to the register files and the
node arena, the output FIFO, the error entry and its return, gating, and the accesses that match no row. -/

namespace Sys2Proof.Machine

/-! ### Register files and arena -/

/-- The entry of symbol `x` in a file of 256. -/
def atSym {α : Type} (v : SymFile α) (x : Byte) : α := v[x.toNat]'x.isLt

/-- The file with the entry of symbol `x` replaced. -/
def putSym {α : Type} (v : SymFile α) (x : Byte) (a : α) : SymFile α := v.set x.toNat a x.isLt

/-- Every symbol in ascending order, the fixed iteration order (20_memory.md R82). -/
def allSymbols : List Byte := (List.range 256).map (BitVec.ofNat 8)

/-- The entries of a file with their symbols, in that order. -/
def symEntries {α : Type} (v : SymFile α) : List (Byte × α) := allSymbols.zip v.toList

/-- NODE[i], none for the index 511 that names no node (10_state.md R32). -/
def nodeAt (a : Arena) (i : NodeIdx) : Option Node := a[i.toNat]?

/-- The arena with NODE[i] replaced; index 511 names no record to replace. -/
def putNode (a : Arena) (i : NodeIdx) (n : Node) : Arena := a.setIfInBounds i.toNat n

/-- Word `k` of a code. -/
def codeWordAt (r : CodeRow) (k : BitVec 3) : Word := r[k.toNat]'k.isLt

/-! ### Replies -/

/-- The access returns `v` to the host (00_scope.md R10). -/
def respond (v : Word) (s : State) : Result := .next { s with reply := some v }

/-! ### The output FIFO (00_scope.md R10, 10_state.md R43) -/

/-- `free() = OUT_DEPTH - len(OUT)`. -/
def freeRoom (s : State) : Nat := Config.outDepth - s.out.length

/-- `push(b)` appends at the tail. -/
def pushOut (b : Byte) (s : State) : State := { s with out := s.out ++ [b] }

/-- `pop()` removes and returns the head; none when OUT is empty. -/
def popOut (s : State) : Option (Byte × State) :=
  match s.out with
  | [] => none
  | b :: rest => some (b, { s with out := rest })

/-! ### Errors -/

/-- The error entry of `raise E(info)` (60_exceptions.md R234). "Nothing else changes". -/
def errorEntry (e : ErrCode) (info : Word) (s : State) : State :=
  { s with
    err := e
    errInfo := info
    mode := .idle
    acc := 0#8
    accN := 0#3
    remain := 0#64
    cur := s.root
    done := false }

/-- `raise E(info)` ends the operation; the access completes normally (60_exceptions.md R230). -/
def raiseError (e : ErrCode) (info : Word) (s : State) : Result := .next (errorEntry e info s)

/-- The return from an error by ACK_ERR: ERR and ERR_INFO cleared, nothing restored
(60_exceptions.md R237). -/
def leaveError (s : State) : State := { s with err := .noError, errInfo := 0#32 }

/-- Gating: while ERR is not 0 the operation has no effect (60_exceptions.md R235). -/
def gated (s : State) (body : Result) : Result :=
  if s.err = .noError then body else .next s

/-- A check `if MODE != m: raise E_STATE(info)` before the rest of an operation. -/
def requireMode (m : Mode) (info : Word) (s : State) (body : Result) : Result :=
  if s.mode = m then body else raiseError .state info s

/-! ### Reset -/

/-- Every element of 10_state.md R22 to R43 takes its reset value (70_reset_and_hazards.md R260,
45_control_output.md R211). The host's queue and the last reply are not HUFCORE's and stay. -/
def clearAll (s : State) : State := { State.reset with pending := s.pending, reply := s.reply }

/-- A platform reset of the block (70_reset_and_hazards.md R260, log 4). -/
def platformReset (s : State) : State := clearAll s

/-! ### Accesses that match no row of the table -/

/-- A reserved read or a read of a write-only register returns 0 and has no effect; the write of a reserved
offset or a read-only register has none (20_memory.md R64, R65, log 7). -/
def reservedAccess (a : Access) (s : State) : State :=
  match a with
  | .read _ => { s with reply := some 0#32 }
  | .write _ _ => s

/-! ### The host side -/

/-- The host issues an access on the platform's bus: inside the window it waits behind the accesses issued
before it (20_memory.md R70); outside the window it is not HUFCORE's (log 5). -/
def issueHost {n : Nat} (hufBase : BitVec n) (h : HostAccess n) (s : State) : State :=
  if h.inWindow hufBase then { s with pending := s.pending ++ [.access (h.toAccess hufBase)] } else s

end Sys2Proof.Machine
end

