-- ==== Sys2Proof/Machine/Operands.lean ====
section
/-! DEFINITION. Operand fields of data words, the halves of a 64-bit count, the words the inspection
registers return, and the information words of E_STATE and E_OVERRUN. -/

namespace Sys2Proof.Machine

/-- The symbol, payload byte or padding of a data word: `data[7:0]` (30_encoding.md R105). -/
def dataByte (d : Word) : Byte := d.extractLsb' 0 8

/-- Bits [31:0] of a count. -/
def lowHalf (c : Count) : Word := c.extractLsb' 0 32

/-- Bits [63:32] of a count. -/
def highHalf (c : Count) : Word := c.extractLsb' 32 32

/-- The count with bits [31:0] replaced (44_decoder_unpacker.md R186). -/
def setLow (c : Count) (v : Word) : Count := highHalf c ++ v

/-- The count with bits [63:32] replaced (44_decoder_unpacker.md R186). -/
def setHigh (c : Count) (v : Word) : Count := v ++ lowHalf c

/-- The 32 presence bits of PRESENT_k: bit j is PRESENT[32k + j] (40_freq_table.md R122). -/
def presentWord (v : SymFile Bool) (k : BitVec 3) : Word :=
  BitVec.ofFnLE fun j : Fin 32 =>
    v[32 * k.toNat + j.val]'(by have := k.isLt; have := j.isLt; omega)

/-- NODE_INFO: `{VALID, LEAF, 3'b000, LEFT, RIGHT, 1'b0, SYM}` (41_tree_builder.md R139). -/
def nodeInfoWord (n : Node) : Word :=
  BitVec.ofBool n.valid ++ BitVec.ofBool n.leaf ++ 0#3 ++ n.left ++ n.right ++ 0#1 ++ n.sym

/-- WEIGHT[31:0] (41_tree_builder.md R140). -/
def weightLow (n : Node) : Word := n.weight.extractLsb' 0 32

/-- WEIGHT[39:32], zero-extended (41_tree_builder.md R140). -/
def weightHigh (n : Node) : Word := (n.weight.extractLsb' 32 8).setWidth 32

/-- A register of a node window; index 511 is reserved and reads 0 (20_memory.md R64). -/
def nodeRegister (a : Arena) (i : NodeIdx) (view : Node → Word) : Word :=
  match nodeAt a i with
  | some n => view n
  | none => 0#32

/-- The ACC register: `{21'b0, ACC_N, ACC}` (43_encoder_packer.md R171). -/
def accWord (n : BitVec 3) (a : Byte) : Word := 0#21 ++ n ++ a

/-- ERR_INFO of an error raised by a register write: 0x00010000 OR the byte offset written, with
off[1:0] = 0 (60_exceptions.md R232, 20_memory.md R62, log 8). -/
def regWriteInfo (off : Offset) : Word := 0x00010000#32 ||| off.setWidth 32

end Sys2Proof.Machine
end

