-- ==== Sys2Proof/Machine/CodeGen.lean ====
section
/-! DEFINITION. The code generator: GEN_CODES and the reads of the code table
(42_code_generator.md R150 to R158). -/

namespace Sys2Proof.Machine

/-- The code table while it is being written: CODE_LEN and CODE_WORD (10_state.md R35, R36). -/
structure CodeTable where
  len : SymFile Byte
  word : SymFile CodeRow
deriving DecidableEq, Repr

/-- clear_codes (R151). -/
def CodeTable.cleared : CodeTable := ⟨State.reset.codeLen, State.reset.codeWord⟩

/-! ### The bits of a code (10_state.md R36) -/

/-- A word with bit `j` set to `b`. -/
def putBit (w : Word) (j : Nat) (b : Bool) : Word :=
  if b then w ||| BitVec.twoPow 32 j else w &&& ~~~(BitVec.twoPow 32 j)

/-- Code bit `i`: bit 31 - (i mod 32) of word i div 32. -/
def codeBit (r : CodeRow) (i : Nat) : Bool :=
  match r[i / 32]? with
  | some w => w.getLsbD (31 - i % 32)
  | none => false

/-- Code bit `i` written. -/
def putCodeBit (r : CodeRow) (i : Nat) (b : Bool) : CodeRow :=
  match r[i / 32]? with
  | some w => r.setIfInBounds (i / 32) (putBit w (31 - i % 32) b)
  | none => r

/-- The bits of the path `p` written from position `i` on (R153). -/
def putPath : List Bool → Nat → CodeRow → CodeRow
  | [], _, r => r
  | b :: p, i, r => putPath p (i + 1) (putCodeBit r i b)

/-- record(x, p) (R153). -/
def recordCode (x : Byte) (p : List Bool) (t : CodeTable) : CodeTable :=
  ⟨putSym t.len x (BitVec.ofNat 8 p.length), putSym t.word x (putPath p 0 (atSym t.word x))⟩

/-! ### The walk -/

/-- walk(i, p) (R152), depth first, left before right. `fuel` bounds the depth: a path of more than
MAXLEN branches, or an index that names no node, is a stuck state (log 9). -/
def walkCodes (a : Arena) : (fuel : Nat) → NodeIdx → List Bool → CodeTable → Except Fault CodeTable
  | 0, _, _, _ => .error .treeTooDeep
  | fuel + 1, i, p, t =>
    match nodeAt a i with
    | none => .error .offTree
    | some n =>
      if n.leaf then .ok (recordCode n.sym p t)
      else
        match walkCodes a fuel n.left (p ++ [false]) t with
        | .error f => .error f
        | .ok t' => walkCodes a fuel n.right (p ++ [true]) t'

/-- The table GEN_CODES derives: cleared, then the walk from ROOT when the tree is not empty (R150). -/
def deriveCodes (s : State) : Except Fault CodeTable :=
  if s.nleaf = 0#9 then .ok CodeTable.cleared
  else walkCodes s.nodes (Config.maxLen + 1) s.root [] CodeTable.cleared

/-- GEN_CODES (R150). -/
def execGenCodes (s : State) : Result :=
  gated s <| requireMode .idle 0x00000003#32 s <|
    if s.treeValid = false then raiseError .state 0x00000003#32 s
    else
      match deriveCodes s with
      | .error f => .fault f
      | .ok t => .next { s with codeLen := t.len, codeWord := t.word, codesValid := true }

/-- RD_CODE_LEN (R157). -/
def execRdCodeLen (x : Byte) (s : State) : Result := respond ((atSym s.codeLen x).setWidth 32) s

/-- RD_CODE_WORD (R158). -/
def execRdCodeWord (x : Byte) (k : BitVec 3) (s : State) : Result :=
  respond (codeWordAt (atSym s.codeWord x) k) s

end Sys2Proof.Machine
end

