-- ==== Sys2Proof/Machine/Decoder.lean ====
section
/-! DEFINITION. The decoder and bit unpacker: PAD, DEC_LEN, DEC_START, WR_DEC_DATA and their reads
(44_decoder_unpacker.md R185 to R194). -/

namespace Sys2Proof.Machine

/-! ### Stream parameters -/

/-- WR_PAD (R185). -/
def execWrPad (d : Word) (s : State) : Result :=
  gated s <| requireMode .idle (regWriteInfo 0x0010#16) s <| .next { s with pad := dataByte d }

/-- RD_PAD (R185). -/
def execRdPad (s : State) : Result := respond (s.pad.setWidth 32) s

/-- WR_DEC_LEN_LO (R186). -/
def execWrDecLenLo (d : Word) (s : State) : Result :=
  gated s <| requireMode .idle (regWriteInfo 0x0020#16) s <| .next { s with decLen := setLow s.decLen d }

/-- WR_DEC_LEN_HI (R186). -/
def execWrDecLenHi (d : Word) (s : State) : Result :=
  gated s <| requireMode .idle (regWriteInfo 0x0024#16) s <| .next { s with decLen := setHigh s.decLen d }

/-- RD_DEC_LEN_LO (R186). -/
def execRdDecLenLo (s : State) : Result := respond (lowHalf s.decLen) s

/-- RD_DEC_LEN_HI (R186). -/
def execRdDecLenHi (s : State) : Result := respond (highHalf s.decLen) s

/-! ### DEC_START -/

/-- DEC_START (R188). -/
def execDecStart (s : State) : Result :=
  gated s <| requireMode .idle 0x00000006#32 s <|
    if s.treeValid = false then raiseError .state 0x00000006#32 s
    else if 7 < s.pad.toNat then raiseError .padding (s.pad.setWidth 32) s
    else if s.decLen = 0#64 ∧ s.pad ≠ 0#8 then raiseError .padding (s.pad.setWidth 32) s
    else if s.nleaf = 0#9 ∧ s.decLen ≠ 0#64 then raiseError .noTree 0#32 s
    else if s.nleaf ≠ 0#9 ∧ s.decLen = 0#64 then raiseError .truncated (s.root.setWidth 32) s
    else if s.decLen = 0#64 then .next { s with out := [], done := true }
    else .next { s with out := [], done := false, remain := s.decLen, cur := s.root, mode := .dec }

/-! ### DEC_DATA -/

/-- The eight bits of a byte, most significant first (20_memory.md R73, R187). -/
def byteBits (b : Byte) : List Bool := (List.range 8).map fun i => b.getLsbD (7 - i)

/-- The bits the next payload byte yields: all eight, but for the last byte, whose PAD low bits are
dropped without being examined (R187, R189; log 13 for a PAD above 8, which no stream has). -/
def payloadBits (s : State) (b : Byte) : List Bool :=
  (byteBits b).take (if 1 < s.remain.toNat then 8 else 8 - s.pad.toNat)

/-- walk_bit(bit) (R190); an index that names no node is a stuck state (log 9). -/
def walkBit (s : State) (bit : Bool) : Except Fault State :=
  match nodeAt s.nodes s.cur with
  | none => .error .offTree
  | some n =>
    match nodeAt s.nodes (if bit then n.right else n.left) with
    | none => .error .offTree
    | some m =>
      if m.leaf then .ok { pushOut m.sym s with cur := s.root }
      else .ok { s with cur := if bit then n.right else n.left }

/-- The bits walked in order. -/
def walkBits : State → List Bool → Except Fault State
  | s, [] => .ok s
  | s, b :: bits =>
    match walkBit s b with
    | .error f => .error f
    | .ok s' => walkBits s' bits

/-- end_of_payload (R191). -/
def endOfPayload (s : State) : State :=
  if s.cur ≠ s.root then errorEntry .truncated (s.cur.setWidth 32) s
  else { s with mode := .idle, done := true }

/-- `REMAIN <- REMAIN - 1; if REMAIN = 0: end_of_payload()` (R189). -/
def countByte (s : State) : State :=
  let t := { s with remain := s.remain - 1#64 }
  if t.remain = 0#64 then endOfPayload t else t

/-- WR_DEC_DATA (R189). -/
def execWrDecData (d : Word) (s : State) : Result :=
  gated s <| requireMode .dec (regWriteInfo 0x0044#16) s <|
    if freeRoom s < Config.decRoom then raiseError .overrun (regWriteInfo 0x0044#16) s
    else
      match walkBits s (payloadBits s (dataByte d)) with
      | .error f => .fault f
      | .ok t => .next (countByte t)

/-- RD_DEC_REMAIN_LO (R192). -/
def execRdDecRemainLo (s : State) : Result := respond (lowHalf s.remain) s

/-- RD_DEC_REMAIN_HI (R192). -/
def execRdDecRemainHi (s : State) : Result := respond (highHalf s.remain) s

/-- RD_CUR (R193). -/
def execRdCur (s : State) : Result := respond (s.cur.setWidth 32) s

end Sys2Proof.Machine
end

