-- ==== Sys2Proof/Machine/Encoder.lean ====
section
/-! DEFINITION. The encoder and bit packer: ENC_START, WR_ENC_DATA, ENC_FINISH and their reads
(43_encoder_packer.md R165 to R172). -/

namespace Sys2Proof.Machine

/-- pack_bit(b) (R167): the eighth bit completes a byte, which is pushed. -/
def packBit (s : State) (b : Bool) : State :=
  let acc := (s.acc <<< 1) ||| BitVec.setWidth 8 (BitVec.ofBool b)
  if s.accN.toNat + 1 = 8 then { pushOut acc s with acc := 0#8, accN := 0#3 }
  else { s with acc := acc, accN := s.accN + 1#3 }

/-- The bits packed in order. -/
def packBits (s : State) (bits : List Bool) : State := bits.foldl packBit s

/-- The code of symbol `x` as a bit sequence: bits 0 to CODE_LEN[x] - 1 (10_state.md R36, R166). -/
def codeBits (s : State) (x : Byte) : List Bool :=
  (List.range (atSym s.codeLen x).toNat).map (codeBit (atSym s.codeWord x))

/-- The padding of a stream: `(8 - (bits mod 8)) mod 8` (R169). -/
def paddingOf (bits : Count) : Byte := BitVec.ofNat 8 ((8 - bits.toNat % 8) % 8)

/-- The zero-padded final byte: `(ACC << (8 - ACC_N))[7:0]` (R168). -/
def finalByte (s : State) : Byte := s.acc <<< (8 - s.accN.toNat)

/-- ENC_START (R165). -/
def execEncStart (s : State) : Result :=
  gated s <| requireMode .idle 0x00000004#32 s <|
    if s.codesValid = false then raiseError .state 0x00000004#32 s
    else
      .next { s with out := [], acc := 0#8, accN := 0#3, encBits := 0#64, done := false, mode := .enc }

/-- WR_ENC_DATA (R166). -/
def execWrEncData (d : Word) (s : State) : Result :=
  gated s <| requireMode .enc (regWriteInfo 0x0040#16) s <|
    if freeRoom s < Config.encRoom then raiseError .overrun (regWriteInfo 0x0040#16) s
    else if atSym s.codeLen (dataByte d) = 0#8 then raiseError .noSym ((dataByte d).setWidth 32) s
    else
      .next { packBits s (codeBits s (dataByte d)) with
        encBits := s.encBits + (atSym s.codeLen (dataByte d)).setWidth 64 }

/-- ENC_FINISH (R168). -/
def execEncFinish (s : State) : Result :=
  gated s <| requireMode .enc 0x00000005#32 s <|
    if 0 < s.accN.toNat ∧ freeRoom s = 0 then raiseError .overrun 0x00000005#32 s
    else
      .next { (if 0 < s.accN.toNat then pushOut (finalByte s) s else s) with
        pad := paddingOf s.encBits
        acc := 0#8
        accN := 0#3
        mode := .idle
        done := true }

/-- RD_ENC_BITS_LO (R170). -/
def execRdEncBitsLo (s : State) : Result := respond (lowHalf s.encBits) s

/-- RD_ENC_BITS_HI (R170). -/
def execRdEncBitsHi (s : State) : Result := respond (highHalf s.encBits) s

/-- RD_ACC (R171). -/
def execRdAcc (s : State) : Result := respond (accWord s.accN s.acc) s

end Sys2Proof.Machine
end

