-- ==== Sys2Proof/Machine/Flags.lean ====
section
/-! DEFINITION. The flags computed from the state, and the STATUS word (10_state.md R45, R46). -/

namespace Sys2Proof.Machine

/-- The value of MODE (10_state.md R22). -/
def Mode.bits : Mode → BitVec 2
  | .idle => 0#2
  | .enc => 1#2
  | .dec => 2#2

/-- The code stored in ERR (60_exceptions.md R231). -/
def ErrCode.bits : ErrCode → BitVec 4
  | .noError => 0#4
  | .illegal => 1#4
  | .state => 2#4
  | .overrun => 3#4
  | .badFreq => 4#4
  | .noSym => 5#4
  | .padding => 6#4
  | .truncated => 7#4
  | .noTree => 8#4

/-- `OUT_VALID = (len(OUT) > 0)` (10_state.md R45). -/
def outValid (s : State) : Bool := decide (0 < s.out.length)

/-- IN_READY: no error, a stream open, and the room its data register needs (10_state.md R45). -/
def inReady (s : State) : Bool :=
  decide (s.err = .noError) &&
    ((decide (s.mode = .enc) && decide (Config.encRoom ≤ freeRoom s)) ||
     (decide (s.mode = .dec) && decide (Config.decRoom ≤ freeRoom s)))

/-- `STATUS = {20'b0, ERR, 1'b0, OUT_VALID, IN_READY, DONE, CODES_VALID, TREE_VALID, MODE}`
(10_state.md R46). -/
def statusWord (s : State) : Word :=
  0#20 ++ s.err.bits ++ 0#1 ++ BitVec.ofBool (outValid s) ++ BitVec.ofBool (inReady s) ++
    BitVec.ofBool s.done ++ BitVec.ofBool s.codesValid ++ BitVec.ofBool s.treeValid ++ s.mode.bits

end Sys2Proof.Machine
end

