-- ==== Sys2Proof/Machine/FreqTable.lean ====
section
/-! DEFINITION. Frequency table access: WR_FREQ, RD_FREQ, RD_PRESENT (40_freq_table.md R120 to R122). -/

namespace Sys2Proof.Machine

/-- `FREQ[x] <- v; PRESENT[x] <- 1`. -/
def loadFreq (x : Byte) (v : Word) (s : State) : State :=
  { s with freq := putSym s.freq x v, present := putSym s.present x true }

/-- WR_FREQ (R120): load the frequency of one symbol; the tree and the codes are stale from then on. -/
def execWrFreq (x : Byte) (v : Word) (s : State) : Result :=
  gated s <| requireMode .idle (regWriteInfo (freqOffset x)) s <|
    .next { loadFreq x v s with treeValid := false, codesValid := false }

/-- RD_FREQ (R121). -/
def execRdFreq (x : Byte) (s : State) : Result := respond (atSym s.freq x) s

/-- RD_PRESENT (R122). -/
def execRdPresent (k : BitVec 3) (s : State) : Result := respond (presentWord s.present k) s

end Sys2Proof.Machine
end

