-- ==== Sys2Proof/Machine/TreeBuilder.lean ====
section
/-! DEFINITION. The tree builder: BUILD_TREE and the reads of the tree (41_tree_builder.md R130 to R142). -/

namespace Sys2Proof.Machine

/-! ### The frequency table as the builder reads it -/

/-- The present symbols in ascending order (R134). -/
def presentSymbols (s : State) : List Byte := ((symEntries s.present).filter fun e => e.2).map fun e => e.1

/-- check_frequencies (R131): the smallest present symbol whose frequency has bit 31 set. -/
def firstBadFreq (s : State) : Option Byte :=
  (presentSymbols s).find? fun x => (atSym s.freq x).getLsbD 31

/-- The filler beside the one real symbol `r` (R133): 0x00, or 0x01 when `r` is 0x00. -/
def fillerFor (r : Byte) : Byte := if r = 0x00#8 then 0x01#8 else 0x00#8

/-- add_filler, when exactly one symbol is present (R133). -/
def addFiller (s : State) : State :=
  match presentSymbols s with
  | [r] => loadFreq (fillerFor r) 1#32 s
  | _ => s

/-! ### The priority queue (R135, R142; log 12 for its form) -/

/-- A node in the queue, by its key `(NODE[i].WEIGHT, i)` (R135). -/
structure HeapKey where
  weight : Weight
  idx : NodeIdx
deriving DecidableEq, Repr

/-- The lexicographic order of keys (R135). -/
def keyLt (a b : HeapKey) : Bool :=
  decide (a.weight.toNat < b.weight.toNat) || (decide (a.weight = b.weight) && decide (a.idx.toNat < b.idx.toNat))

/-- `extract_min` on the queue `k :: q`: the entry with the smallest key, and the others (R135). -/
def extractMin : HeapKey → List HeapKey → HeapKey × List HeapKey
  | k, [] => (k, [])
  | k, x :: q =>
    if keyLt x k then
      match extractMin x q with
      | (m, rest) => (m, k :: rest)
    else
      match extractMin k q with
      | (m, rest) => (m, x :: rest)

/-! ### Leaves and merges -/

/-- `{VALID: 1, LEAF: 1, SYM: x, LEFT: 0, RIGHT: 0, WEIGHT: zext_40(f)}` (R134). -/
def leafNode (x : Byte) (f : Word) : Node := ⟨true, true, x, 0#9, 0#9, f.setWidth 40⟩

/-- `{VALID: 1, LEAF: 0, SYM: 0, LEFT: a, RIGHT: b, WEIGHT: w_a + w_b}` (R136): the first node taken goes
left. The weight of a queued node is its key's. -/
def joinNode (a b : HeapKey) : Node := ⟨true, false, 0#8, a.idx, b.idx, a.weight + b.weight⟩

/-- seed_leaves (R134): the leaves of `xs` from index `k` on. -/
def seedLeaves (freq : SymFile Word) : List Byte → Nat → Arena → Arena
  | [], _, a => a
  | x :: xs, k, a => seedLeaves freq xs (k + 1) (putNode a (BitVec.ofNat 9 k) (leafNode x (atSym freq x)))

/-- The queue seed_leaves leaves (R134). -/
def leafKeys (freq : SymFile Word) : List Byte → Nat → List HeapKey
  | [], _ => []
  | x :: xs, k => ⟨(atSym freq x).setWidth 40, BitVec.ofNat 9 k⟩ :: leafKeys freq xs (k + 1)

/-- merge_until_one (R136): while more than one node is queued, take two and make node `next` of them.
`fuel` bounds the rounds; each round shortens the queue by one, so the queue's length is enough. -/
def mergeNodes : (fuel : Nat) → (next : Nat) → List HeapKey → Arena → Arena
  | fuel + 1, next, k :: q, a =>
    match extractMin k q with
    | (_, []) => a
    | (x, k' :: q') =>
      match extractMin k' q' with
      | (y, rest) =>
        mergeNodes fuel (next + 1) (⟨x.weight + y.weight, BitVec.ofNat 9 next⟩ :: rest)
          (putNode a (BitVec.ofNat 9 next) (joinNode x y))
  | _, _, _, a => a

/-- The arena BUILD_TREE leaves for the present symbols `syms` (R132, R134, R136); all-zero for none. -/
def treeArena (freq : SymFile Word) (syms : List Byte) : Arena :=
  mergeNodes syms.length syms.length (leafKeys freq syms 0)
    (seedLeaves freq syms 0 State.reset.nodes)

/-- ROOT of a tree of `n` leaves (10_state.md R34). -/
def rootIndex (n : Nat) : NodeIdx := if n = 0 then Config.noNode else BitVec.ofNat 9 (2 * n - 2)

/-- BUILD_TREE after its checks (R130): the filler, the arena, and finish or finish_empty (R132, R137). -/
def buildTree (s : State) : State :=
  let t := addFiller s
  let n := (presentSymbols t).length
  { t with
    nodes := treeArena t.freq (presentSymbols t)
    nleaf := BitVec.ofNat 9 n
    root := rootIndex n
    cur := rootIndex n
    treeValid := true
    codesValid := false }

/-- BUILD_TREE (R130). -/
def execBuildTree (s : State) : Result :=
  gated s <| requireMode .idle 0x00000002#32 s <|
    match firstBadFreq s with
    | some x => raiseError .badFreq (x.setWidth 32) s
    | none => .next (buildTree s)

/-- RD_NODE_INFO (R139). -/
def execRdNodeInfo (i : NodeIdx) (s : State) : Result := respond (nodeRegister s.nodes i nodeInfoWord) s

/-- RD_NODE_WLO (R140). -/
def execRdNodeWlo (i : NodeIdx) (s : State) : Result := respond (nodeRegister s.nodes i weightLow) s

/-- RD_NODE_WHI (R140). -/
def execRdNodeWhi (i : NodeIdx) (s : State) : Result := respond (nodeRegister s.nodes i weightHigh) s

/-- RD_NLEAF (R141). -/
def execRdNleaf (s : State) : Result := respond (s.nleaf.setWidth 32) s

/-- RD_ROOT (R141). -/
def execRdRoot (s : State) : Result := respond (s.root.setWidth 32) s

end Sys2Proof.Machine
end

