-- ==== Sys2Proof/Machine/Control.lean ====
section
/-! DEFINITION. Control commands, output FIFO and status reads (45_control_output.md R210 to R218), and
WR_CMD, which runs the command of its data word (30_encoding.md R102 to R104). -/

namespace Sys2Proof.Machine

/-- NOP (R210): "performed, with no effect, whatever ERR and MODE are". -/
def execNop (s : State) : Result := .next s

/-- CLEAR (R211): performed whatever ERR and MODE are. -/
def execClear (s : State) : Result := .next (clearAll s)

/-- ABORT (R212). -/
def execAbort (s : State) : Result :=
  gated s <|
    if s.mode = .idle then .next s
    else .next { s with mode := .idle, acc := 0#8, accN := 0#3, remain := 0#64, cur := s.root }

/-- ACK_ERR (R213): performed whatever ERR and MODE are. -/
def execAckErr (s : State) : Result := .next (leaveError s)

/-- RD_OUT_DATA (R214): bit 8 tells a byte from an empty FIFO. -/
def execRdOutData (s : State) : Result :=
  match popOut s with
  | some (b, t) => respond (0x00000100#32 ||| b.setWidth 32) t
  | none => respond 0x00000000#32 s

/-- RD_OUT_COUNT (R215). -/
def execRdOutCount (s : State) : Result := respond (BitVec.ofNat 32 s.out.length) s

/-- RD_STATUS (R216). -/
def execRdStatus (s : State) : Result := respond (statusWord s) s

/-- RD_ERR_INFO (R217). -/
def execRdErrInfo (s : State) : Result := respond s.errInfo s

/-- RD_ID (R218). -/
def execRdId (s : State) : Result := respond Config.idValue s

/-- The command of a legal command word (30_encoding.md R102). -/
def runCmd (c : Cmd) (s : State) : Result :=
  match c with
  | .nop => execNop s
  | .clear => execClear s
  | .buildTree => execBuildTree s
  | .genCodes => execGenCodes s
  | .encStart => execEncStart s
  | .encFinish => execEncFinish s
  | .decStart => execDecStart s
  | .abort => execAbort s
  | .ackErr => execAckErr s

/-- WR_CMD: the data word is decoded as format CMD and its command runs, with that command's own gating;
an illegal word raises E_ILLEGAL, or is ignored while ERR is not 0 (30_encoding.md R100, R104). -/
def execWrCmd (w : Word) (s : State) : Result :=
  match decodeCmd w with
  | .ok c => runCmd c s
  | .error _ => gated s <| raiseError .illegal w s

end Sys2Proof.Machine
end

