-- ==== Sys2Proof/Machine/Dispatch.lean ====
section
/-! DEFINITION. One arm per constructor of Instr. -/

namespace Sys2Proof.Machine

def exec (i : Instr) (s : State) : Host.Outcome State Fault Refusal :=
  match i with
  -- format CMD
  | .nop => Sys2Proof.Machine.execNop s
  | .clear => Sys2Proof.Machine.execClear s
  | .buildTree => Sys2Proof.Machine.execBuildTree s
  | .genCodes => Sys2Proof.Machine.execGenCodes s
  | .encStart => Sys2Proof.Machine.execEncStart s
  | .encFinish => Sys2Proof.Machine.execEncFinish s
  | .decStart => Sys2Proof.Machine.execDecStart s
  | .abort => Sys2Proof.Machine.execAbort s
  | .ackErr => Sys2Proof.Machine.execAckErr s
  -- format BUS
  | .wrCmd word => Sys2Proof.Machine.execWrCmd word s
  | .wrFreq x data => Sys2Proof.Machine.execWrFreq x data s
  | .rdFreq x => Sys2Proof.Machine.execRdFreq x s
  | .rdPresent k => Sys2Proof.Machine.execRdPresent k s
  | .rdNodeInfo n => Sys2Proof.Machine.execRdNodeInfo n s
  | .rdNodeWlo n => Sys2Proof.Machine.execRdNodeWlo n s
  | .rdNodeWhi n => Sys2Proof.Machine.execRdNodeWhi n s
  | .rdNleaf => Sys2Proof.Machine.execRdNleaf s
  | .rdRoot => Sys2Proof.Machine.execRdRoot s
  | .rdCodeLen x => Sys2Proof.Machine.execRdCodeLen x s
  | .rdCodeWord x k => Sys2Proof.Machine.execRdCodeWord x k s
  | .wrEncData data => Sys2Proof.Machine.execWrEncData data s
  | .rdEncBitsLo => Sys2Proof.Machine.execRdEncBitsLo s
  | .rdEncBitsHi => Sys2Proof.Machine.execRdEncBitsHi s
  | .rdAcc => Sys2Proof.Machine.execRdAcc s
  | .wrPad data => Sys2Proof.Machine.execWrPad data s
  | .rdPad => Sys2Proof.Machine.execRdPad s
  | .wrDecLenLo data => Sys2Proof.Machine.execWrDecLenLo data s
  | .wrDecLenHi data => Sys2Proof.Machine.execWrDecLenHi data s
  | .rdDecLenLo => Sys2Proof.Machine.execRdDecLenLo s
  | .rdDecLenHi => Sys2Proof.Machine.execRdDecLenHi s
  | .wrDecData data => Sys2Proof.Machine.execWrDecData data s
  | .rdDecRemainLo => Sys2Proof.Machine.execRdDecRemainLo s
  | .rdDecRemainHi => Sys2Proof.Machine.execRdDecRemainHi s
  | .rdCur => Sys2Proof.Machine.execRdCur s
  | .rdOutData => Sys2Proof.Machine.execRdOutData s
  | .rdOutCount => Sys2Proof.Machine.execRdOutCount s
  | .rdStatus => Sys2Proof.Machine.execRdStatus s
  | .rdErrInfo => Sys2Proof.Machine.execRdErrInfo s
  | .rdId => Sys2Proof.Machine.execRdId s

end Sys2Proof.Machine
end

