-- ==== Sys2Proof/Machine/Step.lean ====
section
/-! DEFINITION. One step: the oldest pending host event is performed (00_scope.md R6, 20_memory.md R70). -/

namespace Sys2Proof.Machine

/-- The state in which an event is performed: the event taken off the queue, no word returned yet. -/
def dequeue (rest : List HostEvent) (s : State) : State := { s with pending := rest, reply := none }

/-- An access, decoded by its key: an operation of the table, or an access that matches no row
(30_encoding.md R103). -/
def performAccess (a : Access) (s : State) : Host.Outcome State Fault Refusal :=
  match decodeBus a with
  | .ok i => exec i s
  | .error _ => .next (reservedAccess a s)

/-- One step. With nothing pending HUFCORE waits and nothing changes (00_scope.md R6, log 3). -/
def step (s : State) : Host.Outcome State Fault Refusal :=
  match s.pending with
  | [] => .next s
  | .reset :: rest => .next (platformReset (dequeue rest s))
  | .access a :: rest => performAccess a (dequeue rest s)

/-- The state in which the very next step performs the access of an opcode-table row's bits (log 6, 10). -/
def State.withFetchWord (s : State) (nbits w : Nat) : State :=
  { s with pending := .access (tableOpWord nbits w).issue :: s.pending }

end Sys2Proof.Machine
end

