-- ==== Sys2Proof/Safety.lean ====
section
/-! DEFINITION. What the claims speak of: the invariants between two host accesses (10_state.md R30, R47
and the bounds the state rules give), paths in the tree, and the bitstream of an encode stream. -/

namespace Sys2Proof.Machine

/-! ### Invariants -/

/-- R30: an absent symbol has frequency 0. -/
def TableInv (s : State) : Prop := ∀ x, atSym s.present x = false → atSym s.freq x = 0#32

/-- The control invariants: R47, with the bounds of R37, R43, R169, R188, R192, R212 and R155. -/
structure ControlInv (s : State) : Prop where
  /-- MODE = ENC implies CODES_VALID = 1 and TREE_VALID = 1 (R47) -/
  enc_valid : s.mode = .enc → s.codesValid = true ∧ s.treeValid = true
  /-- MODE = DEC implies TREE_VALID = 1, NLEAF >= 2 and REMAIN >= 1 (R47) -/
  dec_valid : s.mode = .dec → s.treeValid = true ∧ 2 ≤ s.nleaf.toNat ∧ 1 ≤ s.remain.toNat
  /-- DEC_START opens no stream with a PAD above 7, and PAD is not written in one (R185, R188) -/
  dec_pad : s.mode = .dec → s.pad.toNat ≤ 7
  /-- MODE != DEC implies CUR = ROOT (R47) -/
  cur_root : s.mode ≠ .dec → s.cur = s.root
  /-- MODE != ENC implies ACC = 0 and ACC_N = 0 (R47) -/
  acc_zero : s.mode ≠ .enc → s.acc = 0#8 ∧ s.accN = 0#3
  /-- ERR != 0 implies MODE = IDLE (R47) -/
  err_idle : s.err ≠ .noError → s.mode = .idle
  /-- REMAIN is 0 whenever MODE != DEC (R192) -/
  remain_zero : s.mode ≠ .dec → s.remain = 0#64
  /-- DONE is 0 while a stream is open and while an error is recorded (R25, R212, R234) -/
  done_clear : s.mode ≠ .idle ∨ s.err ≠ .noError → s.done = false
  /-- ERR_INFO is written and cleared with ERR (R27) -/
  info_clear : s.err = .noError → s.errInfo = 0#32
  /-- a valid code table comes from a valid tree (R24, R150) -/
  codes_tree : s.codesValid = true → s.treeValid = true
  /-- NLEAF is never 1 (R155) -/
  leaf_count : s.nleaf ≠ 1#9
  /-- OUT holds at most OUT_DEPTH bytes (R43) -/
  out_bound : s.out.length ≤ Config.outDepth
  /-- ACC[7:ACC_N] is 0 (R37) -/
  acc_fits : s.acc.toNat < 2 ^ s.accN.toNat
  /-- ACC_N equals ENC_BITS mod 8 throughout a stream (R169) -/
  enc_count : s.mode = .enc → s.accN.toNat = s.encBits.toNat % 8

/-- Node `j` is a child of one of the internal nodes `n` to `m - 1`. -/
def ChildBelow (a : Arena) (n m j : Nat) : Prop :=
  ∃ i c, n ≤ i ∧ i < m ∧ a[i]? = some c ∧ (c.left.toNat = j ∨ c.right.toNat = j)

/-- The records of a tree of `n` leaves: leaves 0 to n - 1 with ascending symbols, internal nodes n to
2n - 2 whose two children come before them, each node but the last the child of exactly one internal node,
all-zero records after (R31, R32, R134, R136, R137, R138). -/
structure TreeShape (a : Arena) (n : Nat) : Prop where
  leaf : ∀ i < n, ∃ x : Byte, ∃ w : Weight, a[i]? = some ⟨true, true, x, 0#9, 0#9, w⟩
  sym_ascending : ∀ i < n, ∀ j < i, ∀ c d : Node, a[i]? = some c → a[j]? = some d → d.sym.toNat < c.sym.toNat
  join : ∀ i < 2 * n - 1, n ≤ i → ∃ l r : NodeIdx, ∃ w : Weight,
    a[i]? = some ⟨true, false, 0#8, l, r, w⟩ ∧ l.toNat < i ∧ r.toNat < i ∧ l ≠ r
  has_parent : ∀ j < 2 * n - 2, ChildBelow a n (2 * n - 1) j
  one_parent : ∀ i < 2 * n - 1, n ≤ i → ∀ j < i, n ≤ j → ∀ c d : Node, a[i]? = some c → a[j]? = some d →
    c.left ≠ d.left ∧ c.left ≠ d.right ∧ c.right ≠ d.left ∧ c.right ≠ d.right
  rest : ∀ i < 511, 2 * n - 1 ≤ i → a[i]? = some ⟨false, false, 0#8, 0#9, 0#9, 0#40⟩

/-- The tree invariants. -/
structure TreeInv (s : State) : Prop where
  /-- NLEAF is 0 or 2 to 256 (R33) -/
  count : s.nleaf = 0#9 ∨ (2 ≤ s.nleaf.toNat ∧ s.nleaf.toNat ≤ 256)
  /-- ROOT is 2 * NLEAF - 2, or NONE for the empty tree (R34) -/
  root_eq : s.root = if s.nleaf = 0#9 then 0x1FF#9 else BitVec.ofNat 9 (2 * s.nleaf.toNat - 2)
  /-- the arena holds the tree last built, stale or not (R31, R47) -/
  shape : TreeShape s.nodes s.nleaf.toNat
  /-- CUR is an internal node in a decode stream (R190) -/
  cur_internal : s.mode = .dec → s.nleaf.toNat ≤ s.cur.toNat ∧ s.cur.toNat < 2 * s.nleaf.toNat - 1
  /-- TREE_VALID: the arena holds the tree of the current frequency table (R23) -/
  current : s.treeValid = true →
    firstBadFreq s = none ∧ s.nleaf.toNat = (presentSymbols s).length ∧
      s.nodes = treeArena s.freq (presentSymbols s)

/-- The code table invariants. -/
structure CodeInv (s : State) : Prop where
  /-- every code bit at or above CODE_LEN is 0 (R36) -/
  beyond : ∀ x i, (atSym s.codeLen x).toNat ≤ i → codeBit (atSym s.codeWord x) i = false
  /-- CODES_VALID: the table holds the codes derived from the current tree (R24) -/
  current : s.codesValid = true → deriveCodes s = .ok ⟨s.codeLen, s.codeWord⟩

/-- What holds between any two host accesses. -/
structure Inv (s : State) : Prop where
  table : TableInv s
  control : ControlInv s
  tree : TreeInv s
  codes : CodeInv s

/-! ### Trees and codes -/

/-- The node the path `p` leads to from node `i`: left on 0, right on 1 (00_scope.md R9). -/
def follow (a : Arena) : NodeIdx → List Bool → Option NodeIdx
  | i, [] => some i
  | i, b :: p =>
    match nodeAt a i with
    | none => none
    | some n => if n.leaf then none else follow a (if b then n.right else n.left) p

/-- The path `p` from ROOT ends at the leaf of symbol `x`. -/
def PathToLeaf (s : State) (p : List Bool) (x : Byte) : Prop :=
  ∃ i n, follow s.nodes s.root p = some i ∧ nodeAt s.nodes i = some n ∧ n.leaf = true ∧ n.sym = x

/-- Symbol `x` has a code (10_state.md R35). -/
abbrev Coded (s : State) (x : Byte) : Prop := atSym s.codeLen x ≠ 0#8

/-- Node `j` was still queued when node `m` was made: made before `m` and no child yet (R136). -/
def QueuedAt (a : Arena) (n m j : Nat) : Prop := j < m ∧ ¬ ChildBelow a n m j

/-- The key order of two nodes (R135). -/
def KeyBefore (a : Arena) (i j : Nat) : Prop :=
  ∃ c d, a[i]? = some c ∧ a[j]? = some d ∧
    (c.weight.toNat < d.weight.toNat ∨ (c.weight = d.weight ∧ i < j))

/-! ### Bitstreams -/

/-- The bits emitted but not yet pushed, oldest first: ACC[ACC_N-1:0] (10_state.md R37). -/
def accBits (s : State) : List Bool :=
  (List.range s.accN.toNat).map fun i => s.acc.getLsbD (s.accN.toNat - 1 - i)

/-- The bits in OUT and in the partial byte, first bit first (20_memory.md R73). -/
def streamBits (s : State) : List Bool := s.out.flatMap byteBits ++ accBits s

/-! ### Kinds of operation -/

/-- The reads of 30_encoding.md R103. -/
def isRead : Instr → Bool
  | .rdFreq _ | .rdPresent _ | .rdNodeInfo _ | .rdNodeWlo _ | .rdNodeWhi _ | .rdNleaf | .rdRoot
  | .rdCodeLen _ | .rdCodeWord _ _ | .rdEncBitsLo | .rdEncBitsHi | .rdAcc | .rdPad | .rdDecLenLo
  | .rdDecLenHi | .rdDecRemainLo | .rdDecRemainHi | .rdCur | .rdOutData | .rdOutCount | .rdStatus
  | .rdErrInfo | .rdId => true
  | .nop | .clear | .buildTree | .genCodes | .encStart | .encFinish | .decStart | .abort | .ackErr
  | .wrCmd _ | .wrFreq _ _ | .wrEncData _ | .wrPad _ | .wrDecLenLo _ | .wrDecLenHi _
  | .wrDecData _ => false

/-- The operation is the command `c`, as a command word or as the data word of a write to CMD. -/
def isCmd (i : Instr) (c : Cmd) : Bool :=
  match i with
  | .wrCmd w => decide (decodeCmd w = .ok c)
  | j => decide (j = c.toInstr)

/-! ### Streams as the host drives them (70_reset_and_hazards.md R263 to R265) -/

/-- From `u` the host wrote the symbols `xs` to ENC_DATA, each of them a symbol with a code and IN_READY
before it, popped the bytes `ys` from OUT_DATA, and read any other register (STATUS, to poll IN_READY) or an
empty OUT_DATA any number of times, in any interleaving; the state is now `t`. -/
inductive EncodeRun (u : State) : List Byte → List Byte → State → Prop where
  | opened : EncodeRun u [] [] u
  | write {xs ys : List Byte} {t t' : State} (d : Word) (run : EncodeRun u xs ys t) (ready : inReady t = true)
      (coded : Coded t (dataByte d)) (done : exec (.wrEncData d) t = .next t') :
      EncodeRun u (xs ++ [dataByte d]) ys t'
  | pop {xs ys : List Byte} {t t' : State} (b : Byte) (rest : List Byte) (run : EncodeRun u xs ys t)
      (head : t.out = b :: rest) (done : exec .rdOutData t = .next t') : EncodeRun u xs (ys ++ [b]) t'
  | read {xs ys : List Byte} {t t' : State} (i : Instr) (run : EncodeRun u xs ys t) (look : isRead i = true)
      (still : i = .rdOutData → t.out = []) (done : exec i t = .next t') : EncodeRun u xs ys t'

/-- From `u` the host wrote the payload bytes `bs` to DEC_DATA, each with IN_READY before it, popped the
bytes `zs` from OUT_DATA, and read any other register or an empty OUT_DATA any number of times, in any
interleaving; the state is now `t`. -/
inductive DecodeRun (u : State) : List Byte → List Byte → State → Prop where
  | opened : DecodeRun u [] [] u
  | write {bs zs : List Byte} {t t' : State} (d : Word) (run : DecodeRun u bs zs t) (ready : inReady t = true)
      (done : exec (.wrDecData d) t = .next t') : DecodeRun u (bs ++ [dataByte d]) zs t'
  | pop {bs zs : List Byte} {t t' : State} (b : Byte) (rest : List Byte) (run : DecodeRun u bs zs t)
      (head : t.out = b :: rest) (done : exec .rdOutData t = .next t') : DecodeRun u bs (zs ++ [b]) t'
  | read {bs zs : List Byte} {t t' : State} (i : Instr) (run : DecodeRun u bs zs t) (look : isRead i = true)
      (still : i = .rdOutData → t.out = []) (done : exec i t = .next t') : DecodeRun u bs zs t'

end Sys2Proof.Machine
end

