-- ==== Sys2Proof/Certificates/Slice0/Obligations.lean ====
section
/-! DEFINITION. The statements for the provers. A record update on the right of a statement's next state
says its frame: every field it does not name is unchanged. -/

open Sys2Proof Sys2Proof.Machine

/-! ### Reset and the control commands -/

/-- R260: reset gives every state element its reset value, and STATUS then reads 0. -/
def Obligations.ResetGivesEveryElementItsValue : Prop :=
  State.reset.mode = .idle ∧ State.reset.treeValid = false ∧ State.reset.codesValid = false ∧
  State.reset.done = false ∧ State.reset.err = .noError ∧ State.reset.errInfo = 0#32 ∧
  (∀ x, atSym State.reset.freq x = 0#32 ∧ atSym State.reset.present x = false ∧
    atSym State.reset.codeLen x = 0#8 ∧ ∀ k, codeWordAt (atSym State.reset.codeWord x) k = 0#32) ∧
  (∀ i < 511, State.reset.nodes[i]? = some ⟨false, false, 0#8, 0#9, 0#9, 0#40⟩) ∧
  State.reset.nleaf = 0#9 ∧ State.reset.root = 0x1FF#9 ∧ State.reset.acc = 0#8 ∧ State.reset.accN = 0#3 ∧
  State.reset.encBits = 0#64 ∧ State.reset.pad = 0#8 ∧ State.reset.decLen = 0#64 ∧
  State.reset.remain = 0#64 ∧ State.reset.cur = 0x1FF#9 ∧ State.reset.out = [] ∧
  statusWord State.reset = 0x00000000#32 ∧
  ∃ t, exec .rdId State.reset = .next t ∧ t.reply = some 0x48554631#32

/-- R211: CLEAR gives the reset state, whatever ERR and MODE are. What the host has pending, and the last
reply, are not HUFCORE's. -/
def Obligations.ClearGivesTheResetState : Prop :=
  ∀ s : State, exec .clear s = .next { State.reset with pending := s.pending, reply := s.reply }

/-- R210, R213: NOP has no effect and ACK_ERR clears ERR and ERR_INFO, whatever ERR and MODE are. -/
def Obligations.NopAndAckErrAlwaysAct : Prop :=
  ∀ s : State, exec .nop s = .next s ∧ exec .ackErr s = .next { s with err := .noError, errInfo := 0#32 }

/-- R212: ABORT. -/
def Obligations.AbortClosesTheStream : Prop :=
  ∀ s : State,
    (s.err ≠ .noError → exec .abort s = .next s) ∧
    (s.err = .noError → s.mode = .idle → exec .abort s = .next s) ∧
    (s.err = .noError → s.mode ≠ .idle →
      exec .abort s =
        .next { s with mode := .idle, acc := 0#8, accN := 0#3, remain := 0#64, cur := s.root })

/-! ### Command words -/

/-- R104: a command word is legal when RSV = 0 and OPCODE <= 0x08; an illegal one raises E_ILLEGAL with the
word, or is ignored while ERR is not 0. -/
def Obligations.IllegalCommandWordsRaiseIllegal : Prop :=
  ∀ w : Word,
    ((∃ c, decodeCmd w = .ok c) ↔ w.extractLsb' 8 24 = 0#24 ∧ (w.extractLsb' 0 8).toNat ≤ 8) ∧
    ∀ s : State, ¬ (w.extractLsb' 8 24 = 0#24 ∧ (w.extractLsb' 0 8).toNat ≤ 8) →
      (s.err = .noError → exec (.wrCmd w) s = .next (errorEntry .illegal w s)) ∧
      (s.err ≠ .noError → exec (.wrCmd w) s = .next s)

/-- R102: the nine command words run their commands, and a write of NOP, CLEAR and ACK_ERR completes in
every state. -/
def Obligations.CommandWordsRunTheirCommands : Prop :=
  ∀ s : State,
    exec (.wrCmd 0x00000000#32) s = .next s ∧
    exec (.wrCmd 0x00000001#32) s = .next { State.reset with pending := s.pending, reply := s.reply } ∧
    exec (.wrCmd 0x00000002#32) s = exec .buildTree s ∧
    exec (.wrCmd 0x00000003#32) s = exec .genCodes s ∧
    exec (.wrCmd 0x00000004#32) s = exec .encStart s ∧
    exec (.wrCmd 0x00000005#32) s = exec .encFinish s ∧
    exec (.wrCmd 0x00000006#32) s = exec .decStart s ∧
    exec (.wrCmd 0x00000007#32) s = exec .abort s ∧
    exec (.wrCmd 0x00000008#32) s = .next { s with err := .noError, errInfo := 0#32 }

/-! ### The step, the decoder and the encoder -/

/-- R6, R70, R100: a step performs the oldest pending access, decoded by its key, on the state with that
access taken off the queue; a write to CMD is decoded in two stages. -/
def Obligations.StepRunsTheDecodedOperation : Prop :=
  ∀ (s : State) (a : Access) (rest : List HostEvent), s.pending = .access a :: rest →
    (∀ i, decodeBus a = .ok i → step s = exec i { s with pending := rest, reply := none }) ∧
    (∀ w c, a = .write 0x0004#16 w → decodeCmd w = .ok c →
      step s = exec c.toInstr { s with pending := rest, reply := none })

/-- R64, R65: an access that matches no row completes: a read returns 0, a write does nothing, and neither
touches ERR or anything else. -/
def Obligations.ReservedAccessesReadZeroAndDoNothing : Prop :=
  ∀ (s : State) (rest : List HostEvent) (off : Offset) (d : Word) (r : Reject),
    (s.pending = .access (.read off) :: rest → decodeBus (.read off) = .error r →
      step s = .next { s with pending := rest, reply := some 0x00000000#32 }) ∧
    (s.pending = .access (.write off d) :: rest → decodeBus (.write off d) = .error r →
      step s = .next { s with pending := rest, reply := none })

/-- R103: the accesses the decoder rejects are exactly those whose key is the key of no operation. -/
def Obligations.RejectedAccessesMatchNoRow : Prop :=
  ∀ a : Access, (∃ r, decodeBus a = .error r) ↔
    ∀ i a', Instr.wellFormed i = true → encode i = .bus a' → a'.key ≠ a.key

/-- R100 to R105: decoding the encoding of a well-formed operation gives it back, every operand bit of it. -/
def Obligations.DecodeInvertsEncode : Prop :=
  ∀ i : Instr, i.wellFormed = true → decode (encode i) = .ok i

/-- R100, R103, R105: what the decoder reads from an access is well formed, and encodes to an access of the
same key and, for a write, the same data word. -/
def Obligations.EncodeInvertsDecode : Prop :=
  ∀ (a : Access) (i : Instr), decodeBus a = .ok i →
    i.wellFormed = true ∧ ∃ a', encode i = .bus a' ∧ a'.key = a.key ∧
      ∀ off d, a = .write off d → ∃ off', a' = .write off' d

/-- R102, R103: words written out from the spec's encodings decode to the operations they stand for. -/
def Obligations.SpecWordsDecode : Prop :=
  decodeTableWord 32 0x00000002 = some .buildTree ∧
  decodeTableWord 32 0x00000008 = some .ackErr ∧
  decodeTableWord 24 0x10004 = some (.wrCmd 0#32) ∧
  decodeBus (.write 0x0504#16 5#32) = .ok (.wrFreq 0x41#8 5#32) ∧
  decodeBus (.read 0x4020#16) = .ok (.rdNodeInfo 8#9) ∧
  decodeBus (.read 0x0904#16) = .ok (.rdCodeLen 0x41#8) ∧
  decodeBus (.write 0x0040#16 0x42#32) = .ok (.wrEncData 0x42#32) ∧
  decodeBus (.write 0x0044#16 0x6E#32) = .ok (.wrDecData 0x6E#32) ∧
  decodeBus (.read 0x0048#16) = .ok .rdOutData

/-- R61, R62: with HUF_BASE a multiple of 0x10000 the offset is addr[15:0], and accesses that differ only
in address bits [1:0] and byte enables are performed alike. -/
def Obligations.LowAddressBitsAndByteEnablesAreIgnored : Prop :=
  ∀ (n : Nat) (hufBase : BitVec n), 16 ≤ n → hufBase.toNat % 0x10000 = 0 →
    (∀ addr : BitVec n, offsetOf hufBase addr = addr.setWidth 16) ∧
    ∀ (h h' : HostAccess n) (s : State), h.dir = h'.dir → h.data = h'.data →
      h.addr.toNat / 4 = h'.addr.toNat / 4 →
      performAccess (h.toAccess hufBase) s = performAccess (h'.toAccess hufBase) s

/-- R70, R260: a step performs exactly the oldest pending event and leaves the later ones (log 1); a pending
platform reset gives the reset state (log 4); with none pending nothing changes (log 3). -/
def Obligations.StepTakesTheOldestEvent : Prop :=
  ∀ s : State,
    (∀ t e rest, step s = .next t → s.pending = e :: rest → t.pending = rest) ∧
    (∀ rest, s.pending = .reset :: rest →
      step s = .next { State.reset with pending := rest, reply := none }) ∧
    (s.pending = [] → step s = .next s)

/-! ### Errors -/

/-- R234: the error entry, and everything it leaves. -/
def Obligations.ErrorEntryClosesTheStream : Prop :=
  ∀ (e : ErrCode) (info : Word) (s : State),
    (errorEntry e info s).err = e ∧ (errorEntry e info s).errInfo = info ∧
    (errorEntry e info s).mode = .idle ∧ (errorEntry e info s).acc = 0#8 ∧
    (errorEntry e info s).accN = 0#3 ∧ (errorEntry e info s).remain = 0#64 ∧
    (errorEntry e info s).cur = s.root ∧ (errorEntry e info s).done = false ∧
    { errorEntry e info s with
      err := s.err, errInfo := s.errInfo, mode := s.mode, acc := s.acc, accN := s.accN,
      remain := s.remain, cur := s.cur, done := s.done } = s

/-- R233: an operation that raises an error has no effect but the error entry, except E_TRUNCATED at the
end of a payload, whose byte has been walked. -/
def Obligations.ErrorsArePrecise : Prop :=
  ∀ (i : Instr) (s t : State), s.err = .noError → exec i s = .next t → t.err ≠ .noError →
    t = errorEntry t.err t.errInfo s ∨
    (t.err = .truncated ∧ ∃ d u, i = .wrDecData d ∧
      walkBits s (payloadBits s (dataByte d)) = .ok u ∧ t = errorEntry .truncated t.errInfo u)

/-- R235: while ERR is not 0 only NOP, CLEAR, ACK_ERR and the reads act, and no error overwrites the first. -/
def Obligations.GatingWhileAnErrorIsRecorded : Prop :=
  ∀ s : State, s.err ≠ .noError →
    (∀ x v, exec (.wrFreq x v) s = .next s) ∧ (∀ v, exec (.wrPad v) s = .next s) ∧
    (∀ v, exec (.wrDecLenLo v) s = .next s) ∧ (∀ v, exec (.wrDecLenHi v) s = .next s) ∧
    (∀ v, exec (.wrEncData v) s = .next s) ∧ (∀ v, exec (.wrDecData v) s = .next s) ∧
    (∀ w : Word, w ≠ 0x00000000#32 → w ≠ 0x00000001#32 → w ≠ 0x00000008#32 →
      exec (.wrCmd w) s = .next s) ∧
    exec (.wrCmd 0x00000000#32) s = .next s ∧
    exec (.wrCmd 0x00000001#32) s = .next { State.reset with pending := s.pending, reply := s.reply } ∧
    exec (.wrCmd 0x00000008#32) s = .next { s with err := .noError, errInfo := 0#32 } ∧
    (∀ i, isRead i = true → ∃ t w, exec i s = .next t ∧ t.reply = some w ∧ t.err = s.err ∧
      (i ≠ .rdStatus → exec i { s with err := .noError } = .next { t with err := .noError })) ∧
    ∀ i t, exec i s = .next t → t.err = s.err ∨ t.err = .noError

/-! ### Frequency table -/

/-- R120: WR_FREQ. -/
def Obligations.WrFreqLoadsOneSymbol : Prop :=
  ∀ (x : Byte) (v : Word) (s : State),
    (s.err ≠ .noError → exec (.wrFreq x v) s = .next s) ∧
    (s.err = .noError → s.mode ≠ .idle → exec (.wrFreq x v) s =
      .next (errorEntry .state (0x00010000#32 ||| BitVec.ofNat 32 (0x400 + 4 * x.toNat)) s)) ∧
    (s.err = .noError → s.mode = .idle → ∃ t, exec (.wrFreq x v) s = .next t ∧
      (∀ y, atSym t.freq y = if y = x then v else atSym s.freq y) ∧
      (∀ y, atSym t.present y = if y = x then true else atSym s.present y) ∧
      t = { s with freq := t.freq, present := t.present, treeValid := false, codesValid := false })

/-- R121, R122: RD_FREQ returns FREQ[s], which is 0 for an absent symbol, and bit j of RD_PRESENT is
PRESENT[32k + j]. -/
def Obligations.FreqAndPresentReads : Prop :=
  ∀ s : State,
    (∀ x, exec (.rdFreq x) s = .next { s with reply := some (atSym s.freq x) }) ∧
    (∀ x, TableInv s → atSym s.present x = false →
      exec (.rdFreq x) s = .next { s with reply := some 0#32 }) ∧
    ∀ k, ∃ w, exec (.rdPresent k) s = .next { s with reply := some w } ∧
      ∀ j < 32, w.getLsbD j = atSym s.present (BitVec.ofNat 8 (32 * k.toNat + j))

/-- R134: the tree does not depend on the order of two FREQ writes. -/
def Obligations.FreqWriteOrderDoesNotMatter : Prop :=
  ∀ (s : State) (x y : Byte) (v w : Word), s.err = .noError → s.mode = .idle → x ≠ y →
    ∃ t u r, exec (.wrFreq x v) s = .next t ∧ exec (.wrFreq y w) t = .next r ∧
      exec (.wrFreq y w) s = .next u ∧ exec (.wrFreq x v) u = .next r

/-! ### Tree builder -/

/-- R131, R236: BUILD_TREE's checks, first to last: the gate, MODE, then the smallest present symbol whose
frequency has bit 31 set. -/
def Obligations.BuildTreeChecks : Prop :=
  ∀ s : State,
    (s.err ≠ .noError → exec .buildTree s = .next s) ∧
    (s.err = .noError → s.mode ≠ .idle →
      exec .buildTree s = .next (errorEntry .state 0x00000002#32 s)) ∧
    ∀ x : Byte, s.err = .noError → s.mode = .idle →
      atSym s.present x = true → (atSym s.freq x).getLsbD 31 = true →
      (∀ y : Byte, y.toNat < x.toNat → atSym s.present y = true → (atSym s.freq y).getLsbD 31 = false) →
      exec .buildTree s = .next (errorEntry .badFreq (x.setWidth 32) s)

/-- R132: BUILD_TREE of an empty table makes a valid empty tree. -/
def Obligations.BuildTreeOfAnEmptyTable : Prop :=
  ∀ s : State, s.err = .noError → s.mode = .idle → (∀ x, atSym s.present x = false) →
    ∃ t, exec .buildTree s = .next t ∧
      (∀ i < 511, t.nodes[i]? = some ⟨false, false, 0#8, 0#9, 0#9, 0#40⟩) ∧
      t = { s with nodes := t.nodes, nleaf := 0#9, root := 0x1FF#9, cur := 0x1FF#9,
                   treeValid := true, codesValid := false }

/-- R133: with one present symbol BUILD_TREE adds the filler, which is in the table from then on. -/
def Obligations.BuildTreeAddsTheFiller : Prop :=
  ∀ (s : State) (r : Byte), s.err = .noError → s.mode = .idle →
    (∀ x, atSym s.present x = true ↔ x = r) → (atSym s.freq r).getLsbD 31 = false →
    ∃ t, exec .buildTree s = .next t ∧ t.nleaf = 2#9 ∧ t.root = 2#9 ∧
      (∀ x, atSym t.present x = true ↔ x = r ∨ x = if r = 0x00#8 then 0x01#8 else 0x00#8) ∧
      ∀ x, atSym t.freq x = if x = (if r = 0x00#8 then 0x01#8 else 0x00#8) then 1#32 else atSym s.freq x

/-- R132, R133, R134, R137: with legal frequencies BUILD_TREE completes. The table is as before unless exactly
one symbol is present, and then gains the filler alone; the leaves are the present symbols in ascending order
with their frequencies, NLEAF, ROOT and CUR are set, the records past 2n - 2 are all-zero, and nothing else but
the tree and its flags changes. -/
def Obligations.BuildTreeSeedsTheLeavesInSymbolOrder : Prop :=
  ∀ s : State, s.err = .noError → s.mode = .idle →
    (∀ x, atSym s.present x = true → (atSym s.freq x).getLsbD 31 = false) →
    ∃ t n, exec .buildTree s = .next t ∧ n = (presentSymbols t).length ∧ n ≠ 1 ∧ n ≤ 256 ∧
      ((¬ ∃ r, ∀ x, atSym s.present x = true ↔ x = r) → t.freq = s.freq ∧ t.present = s.present) ∧
      (∀ r, (∀ x, atSym s.present x = true ↔ x = r) → ∀ x,
        atSym t.freq x = (if x = (if r = 0x00#8 then 0x01#8 else 0x00#8) then 1#32 else atSym s.freq x) ∧
        atSym t.present x = if x = (if r = 0x00#8 then 0x01#8 else 0x00#8) then true else atSym s.present x) ∧
      (∀ x, x ∈ presentSymbols t ↔ atSym t.present x = true) ∧
      (presentSymbols t).Pairwise (fun x y => x.toNat < y.toNat) ∧
      t.nleaf.toNat = n ∧ (2 ≤ n → t.root.toNat = 2 * n - 2) ∧ (n = 0 → t.root = 0x1FF#9) ∧
      (∀ k (h : k < (presentSymbols t).length), t.nodes[k]? =
        some ⟨true, true, (presentSymbols t)[k], 0#9, 0#9,
          (atSym t.freq (presentSymbols t)[k]).setWidth 40⟩) ∧
      (∀ i < 511, 2 * n - 1 ≤ i → t.nodes[i]? = some ⟨false, false, 0#8, 0#9, 0#9, 0#40⟩) ∧
      t = { s with freq := t.freq, present := t.present, nodes := t.nodes, nleaf := t.nleaf,
                   root := t.root, cur := t.root, treeValid := true, codesValid := false }

/-- R135, R136: each internal node n to 2n - 2 joins the two nodes of smallest key among those still queued
when it was made, the smaller to the left, with the exact sum of their weights. -/
def Obligations.BuildTreeMergesTheTwoSmallest : Prop :=
  ∀ s : State, s.err = .noError → s.mode = .idle →
    (∀ x, atSym s.present x = true → (atSym s.freq x).getLsbD 31 = false) →
    ∃ t, exec .buildTree s = .next t ∧
      ∀ i, t.nleaf.toNat ≤ i → i < 2 * t.nleaf.toNat - 1 →
        ∃ (l r : NodeIdx) (c d : Node) (w : Weight),
          t.nodes[i]? = some ⟨true, false, 0#8, l, r, w⟩ ∧
          t.nodes[l.toNat]? = some c ∧ t.nodes[r.toNat]? = some d ∧
          w.toNat = c.weight.toNat + d.weight.toNat ∧
          QueuedAt t.nodes t.nleaf.toNat i l.toNat ∧ QueuedAt t.nodes t.nleaf.toNat i r.toNat ∧
          KeyBefore t.nodes l.toNat r.toNat ∧
          ∀ j, QueuedAt t.nodes t.nleaf.toNat i j → j ≠ l.toNat → j ≠ r.toNat →
            KeyBefore t.nodes r.toNat j

/-- R138: in a built tree with at least two leaves the root weighs the sum of the frequencies, below 2^39,
every other node is the child of exactly one internal node, and every path from the root to a leaf has 1 to
n - 1 branches. -/
def Obligations.BuiltTreesAreBinaryTrees : Prop :=
  ∀ s : State, s.err = .noError → s.mode = .idle →
    (∀ x, atSym s.present x = true → (atSym s.freq x).getLsbD 31 = false) →
    (∃ x, atSym s.present x = true) →
    ∃ t, exec .buildTree s = .next t ∧ 2 ≤ t.nleaf.toNat ∧
      (∃ c, nodeAt t.nodes t.root = some c ∧ c.weight.toNat < 2 ^ 39 ∧
        c.weight.toNat = ((presentSymbols t).map fun x => (atSym t.freq x).toNat).sum) ∧
      (∀ j < 2 * t.nleaf.toNat - 2, ∃! i, t.nleaf.toNat ≤ i ∧ i < 2 * t.nleaf.toNat - 1 ∧
        ∃ c, t.nodes[i]? = some c ∧ (c.left.toNat = j ∨ c.right.toNat = j)) ∧
      ∀ p x, PathToLeaf t p x → 1 ≤ p.length ∧ p.length ≤ t.nleaf.toNat - 1

/-- R130, R133: BUILD_TREE repeated in IDLE rebuilds the same tree and adds no second filler. -/
def Obligations.BuildTreeRepeatedChangesNothing : Prop :=
  ∀ s : State, s.err = .noError → s.mode = .idle →
    (∀ x, atSym s.present x = true → (atSym s.freq x).getLsbD 31 = false) →
    ∃ t, exec .buildTree s = .next t ∧ exec .buildTree t = .next t

/-- R139, R140, R64: the fields of NODE_INFO, the two halves of a weight, and index 511. -/
def Obligations.NodeReads : Prop :=
  ∀ (s : State) (i : NodeIdx),
    (∀ c, nodeAt s.nodes i = some c →
      (∃ w, exec (.rdNodeInfo i) s = .next { s with reply := some w } ∧
        w.getLsbD 31 = c.valid ∧ w.getLsbD 30 = c.leaf ∧ w.extractLsb' 27 3 = 0#3 ∧
        w.extractLsb' 18 9 = c.left ∧ w.extractLsb' 9 9 = c.right ∧ w.getLsbD 8 = false ∧
        w.extractLsb' 0 8 = c.sym) ∧
      ∃ lo hi : Word, exec (.rdNodeWlo i) s = .next { s with reply := some lo } ∧
        exec (.rdNodeWhi i) s = .next { s with reply := some hi } ∧ hi.toNat < 256 ∧
        c.weight.toNat = lo.toNat + 2 ^ 32 * hi.toNat) ∧
    (i.toNat < 511 → ∃ c, nodeAt s.nodes i = some c) ∧
    (i = 0x1FF#9 → exec (.rdNodeInfo i) s = .next { s with reply := some 0#32 } ∧
      exec (.rdNodeWlo i) s = .next { s with reply := some 0#32 } ∧
      exec (.rdNodeWhi i) s = .next { s with reply := some 0#32 })

/-! ### Code generator -/

/-- R150, R236: GEN_CODES' checks, first to last. -/
def Obligations.GenCodesChecks : Prop :=
  ∀ s : State,
    (s.err ≠ .noError → exec .genCodes s = .next s) ∧
    (s.err = .noError → s.mode ≠ .idle ∨ s.treeValid = false →
      exec .genCodes s = .next (errorEntry .state 0x00000003#32 s))

/-- R150 to R153: on a valid tree GEN_CODES completes, stores for the symbol of each leaf the path to that
leaf, every code bit past it 0, and for every other symbol no code; only the code table and CODES_VALID
change. -/
def Obligations.GenCodesStoresTheTreePaths : Prop :=
  ∀ s : State, TreeInv s → s.err = .noError → s.mode = .idle → s.treeValid = true →
    ∃ t, exec .genCodes s = .next t ∧
      (∀ x p, PathToLeaf s p x → (atSym t.codeLen x).toNat = p.length ∧
        ∀ k, codeBit (atSym t.codeWord x) k = p.getD k false) ∧
      (∀ x, (∀ p, ¬ PathToLeaf s p x) → atSym t.codeLen x = 0#8 ∧
        ∀ k, codeBit (atSym t.codeWord x) k = false) ∧
      t = { s with codeLen := t.codeLen, codeWord := t.codeWord, codesValid := true }

/-- R154: with an empty tree every CODE_LEN is 0 and CODES_VALID becomes 1; an encode stream on that table
accepts no symbol, and ENC_FINISH ends it with no payload and PAD = 0. -/
def Obligations.EmptyTreeGivesAnEmptyCodeTable : Prop :=
  ∀ s : State, s.err = .noError → s.mode = .idle → s.treeValid = true → s.nleaf = 0#9 →
    ∃ t, exec .genCodes s = .next t ∧ t.codesValid = true ∧ (∀ x, atSym t.codeLen x = 0#8) ∧
      ∃ u, exec .encStart t = .next u ∧ u.out = [] ∧ (∀ d, exec (.wrEncData d) u =
        .next (errorEntry .noSym ((d.extractLsb' 0 8).setWidth 32) u)) ∧
        exec .encFinish u = .next { u with pad := 0#8, mode := .idle, done := true }

/-- R156: after GEN_CODES on a tree with n >= 2 leaves, exactly the n symbols of the leaves have a code, of
1 to n - 1 bits, no code is the start of another, and the lengths meet the Kraft equality. -/
def Obligations.CodesArePrefixFreeAndComplete : Prop :=
  ∀ s : State, TreeInv s → s.err = .noError → s.mode = .idle → s.treeValid = true →
    2 ≤ s.nleaf.toNat →
    ∃ t, exec .genCodes s = .next t ∧
      (∀ x, Coded t x ↔ ∃ i c, i < s.nleaf.toNat ∧ s.nodes[i]? = some c ∧ c.sym = x) ∧
      (∀ x, Coded t x → 1 ≤ (codeBits t x).length ∧ (codeBits t x).length ≤ s.nleaf.toNat - 1) ∧
      (∀ x y, Coded t x → Coded t y → x ≠ y → ¬ codeBits t x <+: codeBits t y) ∧
      (allSymbols.map fun x => if atSym t.codeLen x = 0#8 then 0
        else 2 ^ (255 - (atSym t.codeLen x).toNat)).sum = 2 ^ 255

/-- R157, R158: RD_CODE_LEN, and bit 31 - j of RD_CODE_WORD k is code bit 32k + j, which is 0 at or above
CODE_LEN. -/
def Obligations.CodeReads : Prop :=
  ∀ (s : State) (x : Byte),
    (∃ w, exec (.rdCodeLen x) s = .next { s with reply := some w } ∧
      w.toNat = (atSym s.codeLen x).toNat) ∧
    ∀ k : BitVec 3, ∃ w, exec (.rdCodeWord x k) s = .next { s with reply := some w } ∧
      ∀ j < 32, w.getLsbD (31 - j) = codeBit (atSym s.codeWord x) (32 * k.toNat + j) ∧
        (CodeInv s → (atSym s.codeLen x).toNat ≤ 32 * k.toNat + j → w.getLsbD (31 - j) = false)

/-! ### Encoder -/

/-- R165: ENC_START. -/
def Obligations.EncStartOpensAnEmptyStream : Prop :=
  ∀ s : State,
    (s.err ≠ .noError → exec .encStart s = .next s) ∧
    (s.err = .noError → s.mode ≠ .idle ∨ s.codesValid = false →
      exec .encStart s = .next (errorEntry .state 0x00000004#32 s)) ∧
    (s.err = .noError → s.mode = .idle → s.codesValid = true →
      exec .encStart s = .next { s with out := [], acc := 0#8, accN := 0#3, encBits := 0#64,
                                        done := false, mode := .enc })

/-- R166, R236: WR_ENC_DATA's checks, first to last. -/
def Obligations.EncDataChecks : Prop :=
  ∀ (d : Word) (s : State),
    (s.err ≠ .noError → exec (.wrEncData d) s = .next s) ∧
    (s.err = .noError → s.mode ≠ .enc →
      exec (.wrEncData d) s = .next (errorEntry .state 0x00010040#32 s)) ∧
    (s.err = .noError → s.mode = .enc → 64 < s.out.length + 32 →
      exec (.wrEncData d) s = .next (errorEntry .overrun 0x00010040#32 s)) ∧
    (s.err = .noError → s.mode = .enc → s.out.length + 32 ≤ 64 → atSym s.codeLen (d.extractLsb' 0 8) = 0#8 →
      exec (.wrEncData d) s = .next (errorEntry .noSym ((d.extractLsb' 0 8).setWidth 32) s))

/-- R166, R167: an accepted WR_ENC_DATA appends the symbol's code to the bitstream, first bit first, pushes
(ACC_N + CODE_LEN) div 8 bytes behind those already in OUT, adds CODE_LEN to ENC_BITS, and changes nothing
else. -/
def Obligations.EncDataAppendsTheCode : Prop :=
  ∀ (d : Word) (s : State), s.err = .noError → s.mode = .enc → s.out.length + 32 ≤ 64 →
    atSym s.codeLen (d.extractLsb' 0 8) ≠ 0#8 →
    ∃ t, exec (.wrEncData d) s = .next t ∧
      streamBits t = streamBits s ++ (List.range (atSym s.codeLen (d.extractLsb' 0 8)).toNat).map
        (codeBit (atSym s.codeWord (d.extractLsb' 0 8))) ∧
      (∃ bytes, t.out = s.out ++ bytes ∧
        bytes.length = (s.accN.toNat + (atSym s.codeLen (d.extractLsb' 0 8)).toNat) / 8) ∧
      t.encBits = s.encBits + (atSym s.codeLen (d.extractLsb' 0 8)).setWidth 64 ∧
      t = { s with out := t.out, acc := t.acc, accN := t.accN, encBits := t.encBits }

/-- R168, R169: ENC_FINISH pushes the partial byte padded with zero bits, writes the padding to PAD, and
closes the stream with DONE. The hypothesis that ACC_N is ENC_BITS mod 8 is R169's and holds in every
stream (ControlInv). -/
def Obligations.EncFinishPadsTheStream : Prop :=
  ∀ s : State, s.err = .noError → s.mode = .enc → s.accN.toNat = s.encBits.toNat % 8 →
    (0 < s.accN.toNat → s.out.length < 64) →
    ∃ t, exec .encFinish s = .next t ∧
      t.out.flatMap byteBits = streamBits s ++ List.replicate t.pad.toNat false ∧
      t.out.length = s.out.length + (if 0 < s.accN.toNat then 1 else 0) ∧
      t.pad.toNat = (8 - s.encBits.toNat % 8) % 8 ∧
      t = { s with out := t.out, pad := t.pad, acc := 0#8, accN := 0#3, mode := .idle, done := true }

/-- R168, R236: ENC_FINISH's checks, first to last. -/
def Obligations.EncFinishChecks : Prop :=
  ∀ s : State,
    (s.err ≠ .noError → exec .encFinish s = .next s) ∧
    (s.err = .noError → s.mode ≠ .enc →
      exec .encFinish s = .next (errorEntry .state 0x00000005#32 s)) ∧
    (s.err = .noError → s.mode = .enc → 0 < s.accN.toNat → 64 ≤ s.out.length →
      exec .encFinish s = .next (errorEntry .overrun 0x00000005#32 s))

/-! ### Decoder -/

/-- R185, R186: the writes of PAD and of the halves of DEC_LEN. -/
def Obligations.StreamParameterWrites : Prop :=
  ∀ (d : Word) (s : State),
    (s.err ≠ .noError → exec (.wrPad d) s = .next s ∧ exec (.wrDecLenLo d) s = .next s ∧
      exec (.wrDecLenHi d) s = .next s) ∧
    (s.err = .noError → s.mode ≠ .idle →
      exec (.wrPad d) s = .next (errorEntry .state 0x00010010#32 s) ∧
      exec (.wrDecLenLo d) s = .next (errorEntry .state 0x00010020#32 s) ∧
      exec (.wrDecLenHi d) s = .next (errorEntry .state 0x00010024#32 s)) ∧
    (s.err = .noError → s.mode = .idle → ∃ p : Byte, ∃ lo hi : Count,
      exec (.wrPad d) s = .next { s with pad := p } ∧
      exec (.wrDecLenLo d) s = .next { s with decLen := lo } ∧
      exec (.wrDecLenHi d) s = .next { s with decLen := hi } ∧
      p.toNat = d.toNat % 256 ∧
      lo.toNat = s.decLen.toNat / 2 ^ 32 * 2 ^ 32 + d.toNat ∧
      hi.toNat = d.toNat * 2 ^ 32 + s.decLen.toNat % 2 ^ 32)

/-- R188, R236: DEC_START, its checks first to last, and its effect. -/
def Obligations.DecStartChecksInOrder : Prop :=
  ∀ s : State,
    (s.err ≠ .noError → exec .decStart s = .next s) ∧
    (s.err = .noError → s.mode ≠ .idle ∨ s.treeValid = false →
      exec .decStart s = .next (errorEntry .state 0x00000006#32 s)) ∧
    (s.err = .noError → s.mode = .idle → s.treeValid = true →
      7 < s.pad.toNat ∨ (s.decLen = 0#64 ∧ s.pad ≠ 0#8) →
      exec .decStart s = .next (errorEntry .padding (s.pad.setWidth 32) s)) ∧
    (s.err = .noError → s.mode = .idle → s.treeValid = true → s.pad.toNat ≤ 7 → s.nleaf = 0#9 →
      s.decLen ≠ 0#64 → exec .decStart s = .next (errorEntry .noTree 0#32 s)) ∧
    (s.err = .noError → s.mode = .idle → s.treeValid = true → s.pad = 0#8 → s.nleaf ≠ 0#9 →
      s.decLen = 0#64 → exec .decStart s = .next (errorEntry .truncated (s.root.setWidth 32) s)) ∧
    (s.err = .noError → s.mode = .idle → s.treeValid = true → s.pad = 0#8 → s.nleaf = 0#9 →
      s.decLen = 0#64 → exec .decStart s = .next { s with out := [], done := true }) ∧
    (s.err = .noError → s.mode = .idle → s.treeValid = true → s.pad.toNat ≤ 7 → s.nleaf ≠ 0#9 →
      s.decLen ≠ 0#64 → exec .decStart s =
        .next { s with out := [], done := false, remain := s.decLen, cur := s.root, mode := .dec })

/-- R189, R236: WR_DEC_DATA's checks before the walk. -/
def Obligations.DecDataChecks : Prop :=
  ∀ (d : Word) (s : State),
    (s.err ≠ .noError → exec (.wrDecData d) s = .next s) ∧
    (s.err = .noError → s.mode ≠ .dec →
      exec (.wrDecData d) s = .next (errorEntry .state 0x00010044#32 s)) ∧
    (s.err = .noError → s.mode = .dec → 64 < s.out.length + 8 →
      exec (.wrDecData d) s = .next (errorEntry .overrun 0x00010044#32 s))

/-- R189, R191: an accepted WR_DEC_DATA walks the byte's bits, most significant first and without the
padding of the last byte, appends at most 8 symbols to OUT, and subtracts 1 from REMAIN; the last byte ends
the stream with DONE at ROOT, or else with E_TRUNCATED and the walk position. -/
def Obligations.DecDataWalksTheByte : Prop :=
  ∀ (d : Word) (s : State), TreeInv s → s.err = .noError → s.mode = .dec → 1 ≤ s.remain.toNat →
    s.out.length + 8 ≤ 64 →
    ∃ t syms cur,
      walkBits s (((List.range 8).map fun i => (d.extractLsb' 0 8).getLsbD (7 - i)).take
        (if 1 < s.remain.toNat then 8 else 8 - s.pad.toNat)) =
          .ok { s with out := s.out ++ syms, cur := cur } ∧
      syms.length ≤ 8 ∧ exec (.wrDecData d) s = .next t ∧
      (1 < s.remain.toNat →
        t = { s with out := s.out ++ syms, cur := cur, remain := s.remain - 1#64 }) ∧
      (s.remain.toNat = 1 → cur = s.root →
        t = { s with out := s.out ++ syms, cur := s.root, remain := 0#64, mode := .idle, done := true }) ∧
      (s.remain.toNat = 1 → cur ≠ s.root →
        t = errorEntry .truncated (cur.setWidth 32) { s with out := s.out ++ syms })

/-- R190: one bit moves CUR from an internal node to its left child on 0 and its right child on 1; a leaf
reached there is pushed and CUR returns to ROOT. -/
def Obligations.WalkBitFollowsTheTree : Prop :=
  ∀ (s : State) (b : Bool), TreeInv s → s.mode = .dec →
    ∃ n m, nodeAt s.nodes s.cur = some n ∧ n.leaf = false ∧
      nodeAt s.nodes (if b then n.right else n.left) = some m ∧
      (m.leaf = true → walkBit s b = .ok { s with out := s.out ++ [m.sym], cur := s.root }) ∧
      (m.leaf = false → walkBit s b = .ok { s with cur := if b then n.right else n.left })

/-- R187: on the last payload byte the PAD low bits are dropped without being examined. -/
def Obligations.PaddingBitsAreNotExamined : Prop :=
  ∀ (d e : Word) (s : State), s.remain.toNat = 1 → s.pad.toNat ≤ 7 →
    (∀ j, s.pad.toNat ≤ j → j < 8 → d.getLsbD j = e.getLsbD j) →
    exec (.wrDecData d) s = exec (.wrDecData e) s

/-- R194, R156: the codes GEN_CODES stores decode: from ROOT, walking the codes of any sequence of coded
symbols emits exactly those symbols and ends at ROOT. -/
def Obligations.WalkingCodesGivesTheSymbolsBack : Prop :=
  ∀ s : State, TreeInv s → s.err = .noError → s.mode = .idle → s.treeValid = true →
    ∃ t, exec .genCodes s = .next t ∧
      ∀ (xs : List Byte) (u : State), (∀ x ∈ xs, Coded t x) →
        u.nodes = t.nodes → u.root = t.root → u.cur = t.root →
        walkBits u (xs.flatMap (codeBits t)) = .ok { u with out := u.out ++ xs, cur := u.root }

/-! ### Whole streams -/

/-- R172: over an encode stream, with a symbol written only while IN_READY is 1 and with a code, no error is
raised, and once ENC_FINISH closes it the bytes popped and still in OUT are the bitstream, most significant
bit first, with PAD zero bits after it; they are ceil(ENC_BITS / 8) bytes. -/
def Obligations.EncodeStreamsCarryTheCodes : Prop :=
  ∀ (s u t : State) (xs ys : List Byte), s.err = .noError → s.mode = .idle → s.codesValid = true →
    exec .encStart s = .next u → EncodeRun u xs ys t →
    t.err = .noError ∧ t.mode = .enc ∧
    (t.out.length < 64 → ∃ v, exec .encFinish t = .next v ∧ v.err = .noError ∧ v.done = true ∧
      (ys ++ v.out).flatMap byteBits = xs.flatMap (codeBits s) ++ List.replicate v.pad.toNat false ∧
      v.pad.toNat ≤ 7 ∧
      8 * (ys ++ v.out).length = (xs.flatMap (codeBits s)).length + v.pad.toNat ∧
      v.encBits.toNat = (xs.flatMap (codeBits s)).length % 2 ^ 64 ∧
      ((xs.flatMap (codeBits s)).length < 2 ^ 64 → (ys ++ v.out).length = (v.encBits.toNat + 7) / 8))

/-- R194: a payload decodes to the symbols it was encoded from. An encode stream of `xs` on `s` gives the
payload `ys ++ v.out` and PAD; on any `w` with the same frequency table and a built tree, with that PAD and
that payload length, DEC_START opens a stream in which no payload byte raises an error, and after the last
byte the stream is done and has given exactly `xs`. An empty `xs` needs the empty table. -/
def Obligations.PayloadsDecodeToTheirSymbols : Prop :=
  ∀ (s u t v w : State) (xs ys : List Byte),
    Inv s → s.err = .noError → s.mode = .idle → s.codesValid = true →
    exec .encStart s = .next u → EncodeRun u xs ys t → exec .encFinish t = .next v → v.err = .noError →
    Inv w → w.err = .noError → w.mode = .idle → w.treeValid = true →
    w.freq = s.freq → w.present = s.present → w.pad = v.pad → w.decLen.toNat = (ys ++ v.out).length →
    (xs = [] → s.nleaf = 0#9) →
    ∃ a, exec .decStart w = .next a ∧ ∀ bs zs b, DecodeRun a bs zs b → bs <+: ys ++ v.out →
      b.err = .noError ∧ (bs = ys ++ v.out → zs ++ b.out = xs ∧ b.mode = .idle ∧ b.done = true)

/-! ### Output, status and the plain reads -/

/-- R214: RD_OUT_DATA pops the head with bit 8 set, or returns 0 from an empty FIFO. -/
def Obligations.OutDataPopsOneByte : Prop :=
  ∀ s : State,
    (∀ b rest, s.out = b :: rest → ∃ w : Word, w.toNat = 256 + b.toNat ∧
      exec .rdOutData s = .next { s with out := rest, reply := some w }) ∧
    (s.out = [] → exec .rdOutData s = .next { s with reply := some 0x00000000#32 })

/-- R46, R45, R216: the fields of STATUS. -/
def Obligations.StatusFields : Prop :=
  ∀ s : State, ∃ w : Word, exec .rdStatus s = .next { s with reply := some w } ∧
    w.extractLsb' 0 2 = (match s.mode with
      | .idle => 0#2
      | .enc => 1#2
      | .dec => 2#2) ∧
    w.getLsbD 2 = s.treeValid ∧ w.getLsbD 3 = s.codesValid ∧ w.getLsbD 4 = s.done ∧
    (w.getLsbD 5 = true ↔ s.err = .noError ∧
      ((s.mode = .enc ∧ 32 ≤ 64 - s.out.length) ∨ (s.mode = .dec ∧ 8 ≤ 64 - s.out.length))) ∧
    (w.getLsbD 6 = true ↔ 0 < s.out.length) ∧ w.getLsbD 7 = false ∧
    w.extractLsb' 8 4 = (match s.err with
      | .noError => 0#4
      | .illegal => 1#4
      | .state => 2#4
      | .overrun => 3#4
      | .badFreq => 4#4
      | .noSym => 5#4
      | .padding => 6#4
      | .truncated => 7#4
      | .noTree => 8#4) ∧
    w.extractLsb' 12 20 = 0#20

/-- R45: while IN_READY is 1 the next write to the open stream's data register passes its room check. -/
def Obligations.InReadyMeansRoom : Prop :=
  ∀ (s t : State) (d : Word), inReady s = true →
    (s.mode = .enc → exec (.wrEncData d) s = .next t → t.err ≠ .overrun) ∧
    (s.mode = .dec → exec (.wrDecData d) s = .next t → t.err ≠ .overrun)

/-- R141, R171, R185, R193, R215, R217, R218: the registers read in one word. -/
def Obligations.NarrowRegisterReads : Prop :=
  ∀ s : State, ∃ nleaf root pad cur acc count : Word,
    exec .rdNleaf s = .next { s with reply := some nleaf } ∧ nleaf.toNat = s.nleaf.toNat ∧
    exec .rdRoot s = .next { s with reply := some root } ∧ root.toNat = s.root.toNat ∧
    exec .rdPad s = .next { s with reply := some pad } ∧ pad.toNat = s.pad.toNat ∧
    exec .rdCur s = .next { s with reply := some cur } ∧ cur.toNat = s.cur.toNat ∧
    exec .rdAcc s = .next { s with reply := some acc } ∧
      acc.toNat = 256 * s.accN.toNat + s.acc.toNat ∧
    exec .rdOutCount s = .next { s with reply := some count } ∧
      (s.out.length ≤ 64 → count.toNat = s.out.length) ∧
    exec .rdErrInfo s = .next { s with reply := some s.errInfo } ∧
    exec .rdId s = .next { s with reply := some 0x48554631#32 }

/-- R170, R186, R192: the two halves of ENC_BITS, DEC_LEN and REMAIN. -/
def Obligations.CountReads : Prop :=
  ∀ s : State, ∃ el eh dl dh rl rh : Word,
    exec .rdEncBitsLo s = .next { s with reply := some el } ∧
    exec .rdEncBitsHi s = .next { s with reply := some eh } ∧
    s.encBits.toNat = el.toNat + 2 ^ 32 * eh.toNat ∧
    exec .rdDecLenLo s = .next { s with reply := some dl } ∧
    exec .rdDecLenHi s = .next { s with reply := some dh } ∧
    s.decLen.toNat = dl.toNat + 2 ^ 32 * dh.toNat ∧
    exec .rdDecRemainLo s = .next { s with reply := some rl } ∧
    exec .rdDecRemainHi s = .next { s with reply := some rh } ∧
    s.remain.toNat = rl.toNat + 2 ^ 32 * rh.toNat

/-- R66: every read but RD_OUT_DATA changes nothing but the reply, whatever the state, so two reads of one
register return the same word. -/
def Obligations.OnlyOutDataReadsHaveASideEffect : Prop :=
  ∀ (i : Instr) (s : State), isRead i = true → i ≠ .rdOutData →
    ∃ w, exec i s = .next { s with reply := some w } ∧
      exec i { s with reply := some w } = .next { s with reply := some w }

/-! ### Whole-machine rules -/

/-- R28, R29, R31, R33, R34, R35, R36, R40: who writes the tables and DEC_LEN. Only CLEAR clears a presence
bit; the frequency table changes by WR_FREQ, BUILD_TREE and CLEAR alone, the tree by BUILD_TREE and CLEAR
alone, the code table by GEN_CODES and CLEAR alone, and DEC_LEN by its writes and CLEAR alone. -/
def Obligations.OnlyTheNamedOperationsWriteTheTables : Prop :=
  ∀ (i : Instr) (s t : State), exec i s = .next t → isCmd i .clear = false →
    (∀ x, atSym s.present x = true → atSym t.present x = true) ∧
    ((∀ x v, i ≠ .wrFreq x v) → isCmd i .buildTree = false → t.freq = s.freq ∧ t.present = s.present) ∧
    (isCmd i .buildTree = false → t.nodes = s.nodes ∧ t.nleaf = s.nleaf ∧ t.root = s.root) ∧
    (isCmd i .genCodes = false → t.codeLen = s.codeLen ∧ t.codeWord = s.codeWord) ∧
    ((∀ v, i ≠ .wrDecLenLo v) → (∀ v, i ≠ .wrDecLenHi v) → t.decLen = s.decLen)

/-- The invariants hold at reset. -/
def Obligations.InvariantsHoldAtReset : Prop := Inv State.reset

/-- R47, with R37, R43, R155, R169 and R192: the control invariants are kept by every step from any state
that has them, whatever its tables hold. -/
def Obligations.StepKeepsTheControlInvariants : Prop :=
  ∀ s t : State, ControlInv s → step s = .next t → ControlInv t

/-- R23, R31 to R34, R138: every step keeps the tree invariants, from any state that has them. -/
def Obligations.StepKeepsTheTreeInvariants : Prop :=
  ∀ s t : State, TreeInv s → step s = .next t → TreeInv t

/-- R30, R47: what holds between any two host accesses is kept by every step. -/
def Obligations.StepKeepsTheInvariants : Prop :=
  ∀ s t : State, Inv s → step s = .next t → Inv t

/-- R68: from every state that meets the invariants every operation and every step completes. -/
def Obligations.EveryAccessCompletes : Prop :=
  ∀ s : State, Inv s → (∀ i, ∃ t, exec i s = .next t) ∧ ∃ t, step s = .next t
end

