-- ==== Sys2Proof/Laws/State.lean ====
section
/-! SUPPORT. What each shared update of the state does to each field: one lemma per field, true by rfl. -/

namespace Sys2Proof.Machine

/-! ### The error entry (60_exceptions.md R234). -/

@[simp] theorem errorEntry_mode (e : ErrCode) (i : Word) (s : State) : (errorEntry e i s).mode = .idle := rfl
@[simp] theorem errorEntry_treeValid (e : ErrCode) (i : Word) (s : State) : (errorEntry e i s).treeValid = s.treeValid := rfl
@[simp] theorem errorEntry_codesValid (e : ErrCode) (i : Word) (s : State) : (errorEntry e i s).codesValid = s.codesValid := rfl
@[simp] theorem errorEntry_done (e : ErrCode) (i : Word) (s : State) : (errorEntry e i s).done = false := rfl
@[simp] theorem errorEntry_err (e : ErrCode) (i : Word) (s : State) : (errorEntry e i s).err = e := rfl
@[simp] theorem errorEntry_errInfo (e : ErrCode) (i : Word) (s : State) : (errorEntry e i s).errInfo = i := rfl
@[simp] theorem errorEntry_freq (e : ErrCode) (i : Word) (s : State) : (errorEntry e i s).freq = s.freq := rfl
@[simp] theorem errorEntry_present (e : ErrCode) (i : Word) (s : State) : (errorEntry e i s).present = s.present := rfl
@[simp] theorem errorEntry_nodes (e : ErrCode) (i : Word) (s : State) : (errorEntry e i s).nodes = s.nodes := rfl
@[simp] theorem errorEntry_nleaf (e : ErrCode) (i : Word) (s : State) : (errorEntry e i s).nleaf = s.nleaf := rfl
@[simp] theorem errorEntry_root (e : ErrCode) (i : Word) (s : State) : (errorEntry e i s).root = s.root := rfl
@[simp] theorem errorEntry_codeLen (e : ErrCode) (i : Word) (s : State) : (errorEntry e i s).codeLen = s.codeLen := rfl
@[simp] theorem errorEntry_codeWord (e : ErrCode) (i : Word) (s : State) : (errorEntry e i s).codeWord = s.codeWord := rfl
@[simp] theorem errorEntry_acc (e : ErrCode) (i : Word) (s : State) : (errorEntry e i s).acc = 0#8 := rfl
@[simp] theorem errorEntry_accN (e : ErrCode) (i : Word) (s : State) : (errorEntry e i s).accN = 0#3 := rfl
@[simp] theorem errorEntry_encBits (e : ErrCode) (i : Word) (s : State) : (errorEntry e i s).encBits = s.encBits := rfl
@[simp] theorem errorEntry_pad (e : ErrCode) (i : Word) (s : State) : (errorEntry e i s).pad = s.pad := rfl
@[simp] theorem errorEntry_decLen (e : ErrCode) (i : Word) (s : State) : (errorEntry e i s).decLen = s.decLen := rfl
@[simp] theorem errorEntry_remain (e : ErrCode) (i : Word) (s : State) : (errorEntry e i s).remain = 0#64 := rfl
@[simp] theorem errorEntry_cur (e : ErrCode) (i : Word) (s : State) : (errorEntry e i s).cur = s.root := rfl
@[simp] theorem errorEntry_out (e : ErrCode) (i : Word) (s : State) : (errorEntry e i s).out = s.out := rfl
@[simp] theorem errorEntry_pending (e : ErrCode) (i : Word) (s : State) : (errorEntry e i s).pending = s.pending := rfl
@[simp] theorem errorEntry_reply (e : ErrCode) (i : Word) (s : State) : (errorEntry e i s).reply = s.reply := rfl

/-! ### The return from an error (R237). -/

@[simp] theorem leaveError_mode (s : State) : (leaveError s).mode = s.mode := rfl
@[simp] theorem leaveError_treeValid (s : State) : (leaveError s).treeValid = s.treeValid := rfl
@[simp] theorem leaveError_codesValid (s : State) : (leaveError s).codesValid = s.codesValid := rfl
@[simp] theorem leaveError_done (s : State) : (leaveError s).done = s.done := rfl
@[simp] theorem leaveError_err (s : State) : (leaveError s).err = .noError := rfl
@[simp] theorem leaveError_errInfo (s : State) : (leaveError s).errInfo = 0#32 := rfl
@[simp] theorem leaveError_freq (s : State) : (leaveError s).freq = s.freq := rfl
@[simp] theorem leaveError_present (s : State) : (leaveError s).present = s.present := rfl
@[simp] theorem leaveError_nodes (s : State) : (leaveError s).nodes = s.nodes := rfl
@[simp] theorem leaveError_nleaf (s : State) : (leaveError s).nleaf = s.nleaf := rfl
@[simp] theorem leaveError_root (s : State) : (leaveError s).root = s.root := rfl
@[simp] theorem leaveError_codeLen (s : State) : (leaveError s).codeLen = s.codeLen := rfl
@[simp] theorem leaveError_codeWord (s : State) : (leaveError s).codeWord = s.codeWord := rfl
@[simp] theorem leaveError_acc (s : State) : (leaveError s).acc = s.acc := rfl
@[simp] theorem leaveError_accN (s : State) : (leaveError s).accN = s.accN := rfl
@[simp] theorem leaveError_encBits (s : State) : (leaveError s).encBits = s.encBits := rfl
@[simp] theorem leaveError_pad (s : State) : (leaveError s).pad = s.pad := rfl
@[simp] theorem leaveError_decLen (s : State) : (leaveError s).decLen = s.decLen := rfl
@[simp] theorem leaveError_remain (s : State) : (leaveError s).remain = s.remain := rfl
@[simp] theorem leaveError_cur (s : State) : (leaveError s).cur = s.cur := rfl
@[simp] theorem leaveError_out (s : State) : (leaveError s).out = s.out := rfl
@[simp] theorem leaveError_pending (s : State) : (leaveError s).pending = s.pending := rfl
@[simp] theorem leaveError_reply (s : State) : (leaveError s).reply = s.reply := rfl

/-! ### A push to OUT. -/

@[simp] theorem pushOut_mode (b : Byte) (s : State) : (pushOut b s).mode = s.mode := rfl
@[simp] theorem pushOut_treeValid (b : Byte) (s : State) : (pushOut b s).treeValid = s.treeValid := rfl
@[simp] theorem pushOut_codesValid (b : Byte) (s : State) : (pushOut b s).codesValid = s.codesValid := rfl
@[simp] theorem pushOut_done (b : Byte) (s : State) : (pushOut b s).done = s.done := rfl
@[simp] theorem pushOut_err (b : Byte) (s : State) : (pushOut b s).err = s.err := rfl
@[simp] theorem pushOut_errInfo (b : Byte) (s : State) : (pushOut b s).errInfo = s.errInfo := rfl
@[simp] theorem pushOut_freq (b : Byte) (s : State) : (pushOut b s).freq = s.freq := rfl
@[simp] theorem pushOut_present (b : Byte) (s : State) : (pushOut b s).present = s.present := rfl
@[simp] theorem pushOut_nodes (b : Byte) (s : State) : (pushOut b s).nodes = s.nodes := rfl
@[simp] theorem pushOut_nleaf (b : Byte) (s : State) : (pushOut b s).nleaf = s.nleaf := rfl
@[simp] theorem pushOut_root (b : Byte) (s : State) : (pushOut b s).root = s.root := rfl
@[simp] theorem pushOut_codeLen (b : Byte) (s : State) : (pushOut b s).codeLen = s.codeLen := rfl
@[simp] theorem pushOut_codeWord (b : Byte) (s : State) : (pushOut b s).codeWord = s.codeWord := rfl
@[simp] theorem pushOut_acc (b : Byte) (s : State) : (pushOut b s).acc = s.acc := rfl
@[simp] theorem pushOut_accN (b : Byte) (s : State) : (pushOut b s).accN = s.accN := rfl
@[simp] theorem pushOut_encBits (b : Byte) (s : State) : (pushOut b s).encBits = s.encBits := rfl
@[simp] theorem pushOut_pad (b : Byte) (s : State) : (pushOut b s).pad = s.pad := rfl
@[simp] theorem pushOut_decLen (b : Byte) (s : State) : (pushOut b s).decLen = s.decLen := rfl
@[simp] theorem pushOut_remain (b : Byte) (s : State) : (pushOut b s).remain = s.remain := rfl
@[simp] theorem pushOut_cur (b : Byte) (s : State) : (pushOut b s).cur = s.cur := rfl
@[simp] theorem pushOut_out (b : Byte) (s : State) : (pushOut b s).out = s.out ++ [b] := rfl
@[simp] theorem pushOut_pending (b : Byte) (s : State) : (pushOut b s).pending = s.pending := rfl
@[simp] theorem pushOut_reply (b : Byte) (s : State) : (pushOut b s).reply = s.reply := rfl

/-! ### A frequency load. -/

@[simp] theorem loadFreq_mode (x : Byte) (v : Word) (s : State) : (loadFreq x v s).mode = s.mode := rfl
@[simp] theorem loadFreq_treeValid (x : Byte) (v : Word) (s : State) : (loadFreq x v s).treeValid = s.treeValid := rfl
@[simp] theorem loadFreq_codesValid (x : Byte) (v : Word) (s : State) : (loadFreq x v s).codesValid = s.codesValid := rfl
@[simp] theorem loadFreq_done (x : Byte) (v : Word) (s : State) : (loadFreq x v s).done = s.done := rfl
@[simp] theorem loadFreq_err (x : Byte) (v : Word) (s : State) : (loadFreq x v s).err = s.err := rfl
@[simp] theorem loadFreq_errInfo (x : Byte) (v : Word) (s : State) : (loadFreq x v s).errInfo = s.errInfo := rfl
@[simp] theorem loadFreq_freq (x : Byte) (v : Word) (s : State) : (loadFreq x v s).freq = putSym s.freq x v := rfl
@[simp] theorem loadFreq_present (x : Byte) (v : Word) (s : State) : (loadFreq x v s).present = putSym s.present x true := rfl
@[simp] theorem loadFreq_nodes (x : Byte) (v : Word) (s : State) : (loadFreq x v s).nodes = s.nodes := rfl
@[simp] theorem loadFreq_nleaf (x : Byte) (v : Word) (s : State) : (loadFreq x v s).nleaf = s.nleaf := rfl
@[simp] theorem loadFreq_root (x : Byte) (v : Word) (s : State) : (loadFreq x v s).root = s.root := rfl
@[simp] theorem loadFreq_codeLen (x : Byte) (v : Word) (s : State) : (loadFreq x v s).codeLen = s.codeLen := rfl
@[simp] theorem loadFreq_codeWord (x : Byte) (v : Word) (s : State) : (loadFreq x v s).codeWord = s.codeWord := rfl
@[simp] theorem loadFreq_acc (x : Byte) (v : Word) (s : State) : (loadFreq x v s).acc = s.acc := rfl
@[simp] theorem loadFreq_accN (x : Byte) (v : Word) (s : State) : (loadFreq x v s).accN = s.accN := rfl
@[simp] theorem loadFreq_encBits (x : Byte) (v : Word) (s : State) : (loadFreq x v s).encBits = s.encBits := rfl
@[simp] theorem loadFreq_pad (x : Byte) (v : Word) (s : State) : (loadFreq x v s).pad = s.pad := rfl
@[simp] theorem loadFreq_decLen (x : Byte) (v : Word) (s : State) : (loadFreq x v s).decLen = s.decLen := rfl
@[simp] theorem loadFreq_remain (x : Byte) (v : Word) (s : State) : (loadFreq x v s).remain = s.remain := rfl
@[simp] theorem loadFreq_cur (x : Byte) (v : Word) (s : State) : (loadFreq x v s).cur = s.cur := rfl
@[simp] theorem loadFreq_out (x : Byte) (v : Word) (s : State) : (loadFreq x v s).out = s.out := rfl
@[simp] theorem loadFreq_pending (x : Byte) (v : Word) (s : State) : (loadFreq x v s).pending = s.pending := rfl
@[simp] theorem loadFreq_reply (x : Byte) (v : Word) (s : State) : (loadFreq x v s).reply = s.reply := rfl

/-! ### An event taken off the queue. -/

@[simp] theorem dequeue_mode (r : List HostEvent) (s : State) : (dequeue r s).mode = s.mode := rfl
@[simp] theorem dequeue_treeValid (r : List HostEvent) (s : State) : (dequeue r s).treeValid = s.treeValid := rfl
@[simp] theorem dequeue_codesValid (r : List HostEvent) (s : State) : (dequeue r s).codesValid = s.codesValid := rfl
@[simp] theorem dequeue_done (r : List HostEvent) (s : State) : (dequeue r s).done = s.done := rfl
@[simp] theorem dequeue_err (r : List HostEvent) (s : State) : (dequeue r s).err = s.err := rfl
@[simp] theorem dequeue_errInfo (r : List HostEvent) (s : State) : (dequeue r s).errInfo = s.errInfo := rfl
@[simp] theorem dequeue_freq (r : List HostEvent) (s : State) : (dequeue r s).freq = s.freq := rfl
@[simp] theorem dequeue_present (r : List HostEvent) (s : State) : (dequeue r s).present = s.present := rfl
@[simp] theorem dequeue_nodes (r : List HostEvent) (s : State) : (dequeue r s).nodes = s.nodes := rfl
@[simp] theorem dequeue_nleaf (r : List HostEvent) (s : State) : (dequeue r s).nleaf = s.nleaf := rfl
@[simp] theorem dequeue_root (r : List HostEvent) (s : State) : (dequeue r s).root = s.root := rfl
@[simp] theorem dequeue_codeLen (r : List HostEvent) (s : State) : (dequeue r s).codeLen = s.codeLen := rfl
@[simp] theorem dequeue_codeWord (r : List HostEvent) (s : State) : (dequeue r s).codeWord = s.codeWord := rfl
@[simp] theorem dequeue_acc (r : List HostEvent) (s : State) : (dequeue r s).acc = s.acc := rfl
@[simp] theorem dequeue_accN (r : List HostEvent) (s : State) : (dequeue r s).accN = s.accN := rfl
@[simp] theorem dequeue_encBits (r : List HostEvent) (s : State) : (dequeue r s).encBits = s.encBits := rfl
@[simp] theorem dequeue_pad (r : List HostEvent) (s : State) : (dequeue r s).pad = s.pad := rfl
@[simp] theorem dequeue_decLen (r : List HostEvent) (s : State) : (dequeue r s).decLen = s.decLen := rfl
@[simp] theorem dequeue_remain (r : List HostEvent) (s : State) : (dequeue r s).remain = s.remain := rfl
@[simp] theorem dequeue_cur (r : List HostEvent) (s : State) : (dequeue r s).cur = s.cur := rfl
@[simp] theorem dequeue_out (r : List HostEvent) (s : State) : (dequeue r s).out = s.out := rfl
@[simp] theorem dequeue_pending (r : List HostEvent) (s : State) : (dequeue r s).pending = r := rfl
@[simp] theorem dequeue_reply (r : List HostEvent) (s : State) : (dequeue r s).reply = none := rfl

/-! ### CLEAR and reset. -/

@[simp] theorem clearAll_mode (s : State) : (clearAll s).mode = State.reset.mode := rfl
@[simp] theorem clearAll_treeValid (s : State) : (clearAll s).treeValid = State.reset.treeValid := rfl
@[simp] theorem clearAll_codesValid (s : State) : (clearAll s).codesValid = State.reset.codesValid := rfl
@[simp] theorem clearAll_done (s : State) : (clearAll s).done = State.reset.done := rfl
@[simp] theorem clearAll_err (s : State) : (clearAll s).err = State.reset.err := rfl
@[simp] theorem clearAll_errInfo (s : State) : (clearAll s).errInfo = State.reset.errInfo := rfl
@[simp] theorem clearAll_freq (s : State) : (clearAll s).freq = State.reset.freq := rfl
@[simp] theorem clearAll_present (s : State) : (clearAll s).present = State.reset.present := rfl
@[simp] theorem clearAll_nodes (s : State) : (clearAll s).nodes = State.reset.nodes := rfl
@[simp] theorem clearAll_nleaf (s : State) : (clearAll s).nleaf = State.reset.nleaf := rfl
@[simp] theorem clearAll_root (s : State) : (clearAll s).root = State.reset.root := rfl
@[simp] theorem clearAll_codeLen (s : State) : (clearAll s).codeLen = State.reset.codeLen := rfl
@[simp] theorem clearAll_codeWord (s : State) : (clearAll s).codeWord = State.reset.codeWord := rfl
@[simp] theorem clearAll_acc (s : State) : (clearAll s).acc = State.reset.acc := rfl
@[simp] theorem clearAll_accN (s : State) : (clearAll s).accN = State.reset.accN := rfl
@[simp] theorem clearAll_encBits (s : State) : (clearAll s).encBits = State.reset.encBits := rfl
@[simp] theorem clearAll_pad (s : State) : (clearAll s).pad = State.reset.pad := rfl
@[simp] theorem clearAll_decLen (s : State) : (clearAll s).decLen = State.reset.decLen := rfl
@[simp] theorem clearAll_remain (s : State) : (clearAll s).remain = State.reset.remain := rfl
@[simp] theorem clearAll_cur (s : State) : (clearAll s).cur = State.reset.cur := rfl
@[simp] theorem clearAll_out (s : State) : (clearAll s).out = State.reset.out := rfl
@[simp] theorem clearAll_pending (s : State) : (clearAll s).pending = s.pending := rfl
@[simp] theorem clearAll_reply (s : State) : (clearAll s).reply = s.reply := rfl

/-! ### The reset state -/

@[simp] theorem reset_mode : State.reset.mode = .idle := rfl
@[simp] theorem reset_treeValid : State.reset.treeValid = false := rfl
@[simp] theorem reset_codesValid : State.reset.codesValid = false := rfl
@[simp] theorem reset_done : State.reset.done = false := rfl
@[simp] theorem reset_err : State.reset.err = .noError := rfl
@[simp] theorem reset_errInfo : State.reset.errInfo = 0#32 := rfl
@[simp] theorem reset_nleaf : State.reset.nleaf = 0#9 := rfl
@[simp] theorem reset_root : State.reset.root = 0x1FF#9 := rfl
@[simp] theorem reset_acc : State.reset.acc = 0#8 := rfl
@[simp] theorem reset_accN : State.reset.accN = 0#3 := rfl
@[simp] theorem reset_encBits : State.reset.encBits = 0#64 := rfl
@[simp] theorem reset_pad : State.reset.pad = 0#8 := rfl
@[simp] theorem reset_decLen : State.reset.decLen = 0#64 := rfl
@[simp] theorem reset_remain : State.reset.remain = 0#64 := rfl
@[simp] theorem reset_cur : State.reset.cur = 0x1FF#9 := rfl
@[simp] theorem reset_out : State.reset.out = [] := rfl
@[simp] theorem reset_pending : State.reset.pending = [] := rfl
@[simp] theorem reset_reply : State.reset.reply = none := rfl

end Sys2Proof.Machine
end

