-- ==== Sys2Proof/Laws/Ops.lean ====
section
/-! SUPPORT. One spec lemma per shared operation: register files, arena, gating, the packer and the walk. -/

namespace Sys2Proof.Machine

/-! ### Register files -/

theorem atSym_putSym {α : Type} (v : SymFile α) (x y : Byte) (a : α) :
    atSym (putSym v x a) y = if y = x then a else atSym v y := by
  unfold atSym putSym
  rw [Vector.getElem_set]
  by_cases h : y = x
  · simp [h]
  · have : x.toNat ≠ y.toNat := fun e => h (BitVec.eq_of_toNat_eq e.symm)
    simp [h, this]

@[simp] theorem atSym_putSym_self {α : Type} (v : SymFile α) (x : Byte) (a : α) :
    atSym (putSym v x a) x = a := by simp [atSym_putSym]

@[simp] theorem atSym_replicate {α : Type} (a : α) (x : Byte) : atSym (Vector.replicate 256 a) x = a := by
  simp [atSym]

theorem symFile_ext {α : Type} {v w : SymFile α} (h : ∀ x, atSym v x = atSym w x) : v = w := by
  apply Vector.ext
  intro i hi
  have := h (BitVec.ofNat 8 i)
  simpa [atSym, Nat.mod_eq_of_lt hi] using this

theorem mem_allSymbols (x : Byte) : x ∈ allSymbols := by
  refine List.mem_map.2 ⟨x.toNat, List.mem_range.2 x.isLt, by simp⟩

theorem allSymbols_ascending : allSymbols.Pairwise fun x y => x.toNat < y.toNat := by
  unfold allSymbols
  rw [List.pairwise_map]
  refine List.pairwise_lt_range.imp_of_mem fun {a b} ha hb h => ?_
  rw [List.mem_range] at ha hb
  simp only [BitVec.toNat_ofNat]
  omega

theorem allSymbols_length : allSymbols.length = 256 := by simp [allSymbols]

/-- The entry list pairs each symbol with its entry. -/
theorem symEntries_eq {α : Type} (v : SymFile α) : symEntries v = allSymbols.map fun x => (x, atSym v x) := by
  apply List.ext_getElem
  · simp [symEntries, allSymbols]
  · intro i h1 h2
    have hi : i < 256 := by simpa [allSymbols] using h2
    simp [symEntries, allSymbols, atSym, Nat.mod_eq_of_lt hi]

/-! ### The node arena -/

theorem nodeAt_eq (a : Arena) (i : NodeIdx) : nodeAt a i = a[i.toNat]? := rfl

theorem putNode_getElem? (a : Arena) (i : NodeIdx) (n : Node) (j : Nat) (hi : i.toNat < 511) :
    (putNode a i n)[j]? = if j = i.toNat then some n else a[j]? := by
  unfold putNode
  rw [Vector.getElem?_setIfInBounds]
  by_cases h : j = i.toNat
  · simp [h, hi]
  · simp [h, Ne.symm h]

theorem nodeAt_of_lt (a : Arena) (i : NodeIdx) (h : i.toNat < 511) : nodeAt a i = some a[i.toNat] := by
  simp [nodeAt, h]

theorem reset_nodes (i : Nat) (h : i < 511) : State.reset.nodes[i]? = some Node.zero := by
  simp [State.reset, h]

/-! ### Gating and mode checks -/

theorem gated_clear {s : State} (h : s.err = .noError) (b : Result) : gated s b = b := by simp [gated, h]

theorem gated_error {s : State} (h : s.err ≠ .noError) (b : Result) : gated s b = .next s := by
  simp [gated, h]

theorem requireMode_met {m : Mode} {s : State} (h : s.mode = m) (i : Word) (b : Result) :
    requireMode m i s b = b := by simp [requireMode, h]

theorem requireMode_unmet {m : Mode} {s : State} (h : s.mode ≠ m) (i : Word) (b : Result) :
    requireMode m i s b = .next (errorEntry .state i s) := by simp [requireMode, raiseError, h]

/-- All a gated operation can do: nothing, or its body. -/
theorem gated_next {s t : State} {b : Result} (h : gated s b = .next t) :
    (s.err ≠ .noError ∧ t = s) ∨ (s.err = .noError ∧ b = .next t) := by
  unfold gated at h
  split at h
  · exact .inr ⟨‹_›, h⟩
  · cases h; exact .inl ⟨‹_›, rfl⟩

/-- All a mode check can do: the error entry, or its body. -/
theorem requireMode_next {m : Mode} {i : Word} {s t : State} {b : Result}
    (h : requireMode m i s b = .next t) :
    (s.mode ≠ m ∧ t = errorEntry .state i s) ∨ (s.mode = m ∧ b = .next t) := by
  unfold requireMode at h
  split at h
  · exact .inr ⟨‹_›, h⟩
  · cases h; exact .inl ⟨‹_›, rfl⟩

/-! ### The bit packer -/

/-- pack_bit writes OUT, ACC and ACC_N only. -/
theorem packBit_frame (s : State) (b : Bool) :
    packBit s b = { s with out := (packBit s b).out, acc := (packBit s b).acc, accN := (packBit s b).accN } := by
  unfold packBit
  dsimp only
  split <;> rfl

theorem packBits_frame (s : State) (l : List Bool) :
    packBits s l =
      { s with out := (packBits s l).out, acc := (packBits s l).acc, accN := (packBits s l).accN } := by
  unfold packBits
  induction l generalizing s with
  | nil => rfl
  | cons b l ih =>
    rw [List.foldl_cons, ih]
    generalize List.foldl packBit (packBit s b) l = u
    rw [packBit_frame]

@[simp] theorem packBits_nil (s : State) : packBits s [] = s := rfl
@[simp] theorem packBits_cons (s : State) (b : Bool) (l : List Bool) :
    packBits s (b :: l) = packBits (packBit s b) l := rfl

/-! ### The walk -/

/-- walk_bit writes OUT and CUR only. -/
theorem walkBit_frame {s t : State} {b : Bool} (h : walkBit s b = .ok t) :
    t = { s with out := t.out, cur := t.cur } := by
  unfold walkBit at h
  split at h
  · cases h
  · split at h
    · cases h
    · split at h <;> (cases h; rfl)

theorem walkBits_frame {s t : State} {l : List Bool} (h : walkBits s l = .ok t) :
    t = { s with out := t.out, cur := t.cur } := by
  induction l generalizing s with
  | nil => cases h; rfl
  | cons b l ih =>
    unfold walkBits at h
    split at h
    · cases h
    · rename_i u hu
      have := ih h
      rw [walkBit_frame hu] at this
      exact this

theorem walkBits_append (s : State) (l r : List Bool) :
    walkBits s (l ++ r) = match walkBits s l with
      | .error f => .error f
      | .ok t => walkBits t r := by
  induction l generalizing s with
  | nil => rfl
  | cons b l ih =>
    simp only [List.cons_append, walkBits]
    split
    · rfl
    · exact ih _

/-! ### The filler -/

/-- add_filler writes FREQ and PRESENT only. -/
theorem addFiller_frame (s : State) :
    addFiller s = { s with freq := (addFiller s).freq, present := (addFiller s).present } := by
  unfold addFiller
  split <;> rfl

/-! ### Outcomes of the plain operations -/

@[simp] theorem respond_eq (v : Word) (s : State) : respond v s = .next { s with reply := some v } := rfl

@[simp] theorem raiseError_eq (e : ErrCode) (i : Word) (s : State) :
    raiseError e i s = .next (errorEntry e i s) := rfl

end Sys2Proof.Machine
end

