-- ==== Sys2Proof/Laws/Tree.lean ====
section
/-! SUPPORT. What BUILD_TREE's parts do: extract_min takes the smallest key, the leaves are the present
symbols, and each merge joins the two smallest queued nodes (41_tree_builder.md R131 to R138). -/

namespace Sys2Proof.Machine

/-! ### Keys and extract_min (R135) -/

/-- The key order as an order of numbers. -/
def keyVal (e : HeapKey) : Nat := e.weight.toNat * 512 + e.idx.toNat

theorem keyLt_iff (a b : HeapKey) : keyLt a b = true ↔ keyVal a < keyVal b := by
  have ha : a.idx.toNat < 512 := a.idx.isLt
  have hb : b.idx.toNat < 512 := b.idx.isLt
  have he : (a.weight = b.weight) ↔ a.weight.toNat = b.weight.toNat := BitVec.toNat_inj.symm
  simp only [keyLt, keyVal, Bool.or_eq_true, Bool.and_eq_true, decide_eq_true_eq, he]
  omega

theorem keyVal_inj {a b : HeapKey} (h : keyVal a = keyVal b) : a.idx = b.idx := by
  have ha : a.idx.toNat < 512 := a.idx.isLt
  have hb : b.idx.toNat < 512 := b.idx.isLt
  simp only [keyVal] at h
  exact BitVec.eq_of_toNat_eq (by omega)

theorem extractMin_perm (k : HeapKey) (q : List HeapKey) :
    ((extractMin k q).1 :: (extractMin k q).2).Perm (k :: q) := by
  induction q generalizing k with
  | nil => exact .refl _
  | cons x q ih =>
    unfold extractMin
    split
    · exact ((List.Perm.swap ..).trans ((ih x).cons k))
    · exact ((List.Perm.swap ..).trans ((ih k).cons x)).trans (.swap ..)

theorem extractMin_min (k : HeapKey) (q : List HeapKey) :
    ∀ e ∈ (extractMin k q).2, keyVal (extractMin k q).1 ≤ keyVal e := by
  induction q generalizing k with
  | nil => simp [extractMin]
  | cons x q ih =>
    have hall : ∀ z, ∀ e ∈ z :: q, keyVal (extractMin z q).1 ≤ keyVal e := fun z e he =>
      (List.mem_cons.1 ((extractMin_perm z q).mem_iff.2 he)).elim (fun h => h ▸ Nat.le_refl _) (ih z e)
    unfold extractMin
    split
    · rename_i h
      rw [keyLt_iff] at h
      intro e he
      rcases List.mem_cons.1 he with rfl | he
      · have := hall x x (by simp)
        simp only at this ⊢
        omega
      · exact ih x e he
    · rename_i h
      rw [keyLt_iff] at h
      intro e he
      rcases List.mem_cons.1 he with rfl | he
      · have := hall k k (by simp)
        simp only at this ⊢
        omega
      · exact ih k e he

theorem extractMin_length (k : HeapKey) (q : List HeapKey) : (extractMin k q).2.length = q.length := by
  have := (extractMin_perm k q).length_eq
  simpa using this

/-! ### Present symbols and the filler (R131, R133, R134) -/

/-- The present symbols are the symbols whose presence bit is set. -/
theorem presentSymbols_eq (s : State) : presentSymbols s = allSymbols.filter fun x => atSym s.present x := by
  simp [presentSymbols, symEntries_eq, List.filter_map, Function.comp_def]

theorem firstBadFreq_eq (s : State) :
    firstBadFreq s = allSymbols.find? fun x => atSym s.present x && (atSym s.freq x).getLsbD 31 := by
  simp [firstBadFreq, presentSymbols_eq, List.find?_filter]

theorem mem_presentSymbols {s : State} {x : Byte} : x ∈ presentSymbols s ↔ atSym s.present x = true := by
  simp [presentSymbols_eq, mem_allSymbols]

theorem presentSymbols_ascending (s : State) :
    (presentSymbols s).Pairwise fun x y => x.toNat < y.toNat := by
  rw [presentSymbols_eq]; exact allSymbols_ascending.filter _

theorem presentSymbols_nodup (s : State) : (presentSymbols s).Nodup :=
  (presentSymbols_ascending s).imp fun h e => absurd (congrArg BitVec.toNat e) (by omega)

/-- Exactly one symbol is present (R133). -/
theorem presentSymbols_eq_singleton {s : State} {r : Byte} :
    presentSymbols s = [r] ↔ ∀ x, atSym s.present x = true ↔ x = r := by
  constructor
  · intro h x; rw [← mem_presentSymbols, h, List.mem_singleton]
  · intro h
    have : (presentSymbols s).Perm [r] := (List.perm_ext_iff_of_nodup (presentSymbols_nodup s) (by simp)).2 fun x => by
      rw [mem_presentSymbols, h, List.mem_singleton]
    exact List.perm_singleton.1 this

theorem presentSymbols_length_le (s : State) : (presentSymbols s).length ≤ 256 := by
  have := List.length_filter_le (fun x => atSym s.present x) allSymbols
  rwa [allSymbols_length, ← presentSymbols_eq] at this

theorem presentSymbols_congr {s t : State} (h : s.present = t.present) :
    presentSymbols s = presentSymbols t := by simp [presentSymbols, h]

theorem firstBadFreq_none {s : State} :
    firstBadFreq s = none ↔ ∀ x, atSym s.present x = true → (atSym s.freq x).getLsbD 31 = false := by
  simp only [firstBadFreq_eq, List.find?_eq_none, Bool.and_eq_true, not_and, Bool.not_eq_true]
  exact ⟨fun h x => h x (mem_allSymbols x), fun h x _ => h x⟩

theorem firstBadFreq_congr {s t : State} (h : s.present = t.present) (h' : s.freq = t.freq) :
    firstBadFreq s = firstBadFreq t := by simp [firstBadFreq, presentSymbols, h, h']

/-- R131: the symbol check_frequencies reports is the smallest bad one. -/
theorem firstBadFreq_some {s : State} {x : Byte} :
    firstBadFreq s = some x ↔ (atSym s.present x = true ∧ (atSym s.freq x).getLsbD 31 = true ∧
      ∀ y : Byte, y.toNat < x.toNat → ¬ (atSym s.present y = true ∧ (atSym s.freq y).getLsbD 31 = true)) := by
  constructor
  · intro h
    rw [firstBadFreq_eq] at h
    obtain ⟨hx, l, r, hlr, hl⟩ := List.find?_eq_some_iff_append.1 h
    simp only [Bool.and_eq_true] at hx
    refine ⟨hx.1, hx.2, fun y hy hbad => ?_⟩
    have hp := allSymbols_ascending
    have hm := mem_allSymbols y
    rw [hlr] at hp hm
    rcases List.mem_append.1 hm with hm | hm
    · have := hl y hm
      rw [hbad.1, hbad.2] at this
      exact absurd this (by decide)
    · rcases List.mem_cons.1 hm with rfl | hm
      · omega
      · have := (List.pairwise_cons.1 (List.pairwise_append.1 hp).2.1).1 y hm
        omega
  · rintro ⟨hp, hb, hmin⟩
    cases h : firstBadFreq s with
    | none => exact absurd ((firstBadFreq_none.1 h) x hp) (by simp [hb])
    | some z =>
      rw [firstBadFreq_eq] at h
      have hz := List.find?_some h
      simp only [Bool.and_eq_true] at hz
      have h1 : ¬ z.toNat < x.toNat := fun hlt => hmin z hlt hz
      have h2 : ¬ x.toNat < z.toNat := fun hlt => by
        obtain ⟨-, l, r, hlr, hl⟩ := List.find?_eq_some_iff_append.1 h
        have hpw := allSymbols_ascending
        have hm := mem_allSymbols x
        rw [hlr] at hpw hm
        rcases List.mem_append.1 hm with hm | hm
        · have := hl x hm
          rw [hp, hb] at this
          exact absurd this (by decide)
        · rcases List.mem_cons.1 hm with rfl | hm
          · omega
          · have := (List.pairwise_cons.1 (List.pairwise_append.1 hpw).2.1).1 x hm
            omega
      rw [show z = x from BitVec.eq_of_toNat_eq (by omega)]

theorem fillerFor_ne (r : Byte) : fillerFor r ≠ r := by
  unfold fillerFor
  split
  · rename_i h; subst h; decide
  · exact fun h => ‹¬ _› h.symm

theorem addFiller_single {s : State} {r : Byte} (h : presentSymbols s = [r]) :
    addFiller s = loadFreq (fillerFor r) 1#32 s := by simp [addFiller, h]

theorem addFiller_other {s : State} (h : (presentSymbols s).length ≠ 1) : addFiller s = s := by
  unfold addFiller
  split
  · rename_i r hr; simp [hr] at h
  · rfl

/-- After add_filler the table is empty or has at least two symbols (R133). -/
theorem addFiller_count (s : State) : (presentSymbols (addFiller s)).length ≠ 1 := by
  by_cases h : (presentSymbols s).length = 1
  · obtain ⟨r, hr⟩ := List.length_eq_one_iff.1 h
    rw [addFiller_single hr]
    have hmem : ∀ x, x ∈ presentSymbols (loadFreq (fillerFor r) 1#32 s) ↔ x ∈ [fillerFor r, r] := by
      intro x
      have : x ∈ presentSymbols s ↔ x = r := by simp [hr]
      rw [mem_presentSymbols] at this
      rw [mem_presentSymbols, loadFreq_present, atSym_putSym]
      by_cases hx : x = fillerFor r <;> simp [hx, this]
    have hp := (List.perm_ext_iff_of_nodup (presentSymbols_nodup _)
      (by simp [fillerFor_ne] : [fillerFor r, r].Nodup)).2 hmem
    simp [hp.length_eq]
  · rwa [addFiller_other h]

/-- The table changes only when exactly one symbol is present (R130, R133). -/
theorem addFiller_unchanged {s : State} (h : ¬ ∃ r, ∀ x, atSym s.present x = true ↔ x = r) : addFiller s = s :=
  addFiller_other fun h1 => by
    obtain ⟨r, hr⟩ := List.length_eq_one_iff.1 h1
    exact h ⟨r, presentSymbols_eq_singleton.1 hr⟩

theorem addFiller_addFiller (s : State) : addFiller (addFiller s) = addFiller s :=
  addFiller_other (addFiller_count s)

theorem addFiller_legal {s : State} (h : firstBadFreq s = none) : firstBadFreq (addFiller s) = none := by
  unfold addFiller
  split
  · rename_i r hr
    rw [firstBadFreq_none] at h ⊢
    intro x hx
    rw [loadFreq_freq, atSym_putSym]
    split
    · decide
    · rename_i hne
      rw [loadFreq_present, atSym_putSym, if_neg hne] at hx
      exact h x hx
  · exact h

/-! ### Leaves (R134) -/

theorem seedLeaves_getElem? (freq : SymFile Word) (xs : List Byte) (k : Nat) (a : Arena) (j : Nat)
    (hk : k + xs.length ≤ 511) :
    (seedLeaves freq xs k a)[j]? =
      if j < k then a[j]?
      else match xs[j - k]? with
        | some x => some (leafNode x (atSym freq x))
        | none => a[j]? := by
  induction xs generalizing k a with
  | nil => simp [seedLeaves]
  | cons x xs ih =>
    simp only [List.length_cons] at hk
    rw [seedLeaves, ih (k + 1) _ (by omega)]
    have hidx : (BitVec.ofNat 9 k).toNat = k := by simp only [BitVec.toNat_ofNat]; omega
    rw [putNode_getElem? _ _ _ _ (by omega), hidx]
    rcases Nat.lt_trichotomy j k with h | h | h
    · simp [h, show j < k + 1 by omega, show j ≠ k by omega]
    · subst h; simp
    · obtain ⟨m, rfl⟩ : ∃ m, j = k + 1 + m := ⟨j - (k + 1), by omega⟩
      simp [show ¬ k + 1 + m < k + 1 by omega, show ¬ k + 1 + m < k by omega,
        show k + 1 + m - (k + 1) = m by omega, show k + 1 + m - k = m + 1 by omega,
        show k + 1 + m ≠ k by omega]

theorem leafKeys_length (freq : SymFile Word) (xs : List Byte) (k : Nat) :
    (leafKeys freq xs k).length = xs.length := by
  induction xs generalizing k with
  | nil => rfl
  | cons x xs ih => simp [leafKeys, ih]

theorem leafKeys_getElem? (freq : SymFile Word) (xs : List Byte) (k j : Nat) :
    (leafKeys freq xs k)[j]? =
      xs[j]?.map fun x => ⟨(atSym freq x).setWidth 40, BitVec.ofNat 9 (k + j)⟩ := by
  induction xs generalizing k j with
  | nil => simp [leafKeys]
  | cons x xs ih =>
    cases j with
    | zero => simp [leafKeys]
    | succ j => simp [leafKeys, ih, Nat.add_assoc, Nat.add_comm 1 j]

/-! ### Merges (R136) -/

/-- What merge_until_one makes of record `i`: the join of the two smallest queued nodes. -/
def JoinOk (a : Arena) (n i : Nat) : Prop :=
  ∃ l r : NodeIdx, ∃ c d : Node, ∃ w : Weight,
    a[i]? = some ⟨true, false, 0#8, l, r, w⟩ ∧ l.toNat < i ∧ r.toNat < i ∧
    a[l.toNat]? = some c ∧ a[r.toNat]? = some d ∧ w.toNat = c.weight.toNat + d.weight.toNat ∧
    QueuedAt a n i l.toNat ∧ QueuedAt a n i r.toNat ∧ KeyBefore a l.toNat r.toNat ∧
    ∀ j, QueuedAt a n i j → j ≠ l.toNat → j ≠ r.toNat → KeyBefore a r.toNat j

theorem ChildBelow.mono {a : Arena} {n m m' j : Nat} (h : m ≤ m') :
    ChildBelow a n m j → ChildBelow a n m' j := by
  rintro ⟨i, c, h1, h2, h3⟩
  exact ⟨i, c, h1, by omega, h3⟩

theorem ChildBelow.congr {a b : Arena} {n m j : Nat} (h : ∀ i < m, a[i]? = b[i]?) :
    ChildBelow a n m j ↔ ChildBelow b n m j := by
  constructor <;> rintro ⟨i, c, h1, h2, h3, h4⟩
  · exact ⟨i, c, h1, h2, h i h2 ▸ h3, h4⟩
  · exact ⟨i, c, h1, h2, (h i h2).symm ▸ h3, h4⟩

theorem QueuedAt.congr {a b : Arena} {n m j : Nat} (h : ∀ i < m, a[i]? = b[i]?) :
    QueuedAt a n m j ↔ QueuedAt b n m j := by
  unfold QueuedAt
  rw [ChildBelow.congr h]

theorem KeyBefore.congr {a b : Arena} {m i j : Nat} (h : ∀ i < m, a[i]? = b[i]?) (hi : i < m) (hj : j < m) :
    KeyBefore a i j → KeyBefore b i j := by
  rintro ⟨c, d, h1, h2, h3⟩
  exact ⟨c, d, h i hi ▸ h1, h j hj ▸ h2, h3⟩

theorem JoinOk.congr {a b : Arena} {n i : Nat} (h : ∀ j < i + 1, a[j]? = b[j]?) (hj : JoinOk a n i) :
    JoinOk b n i := by
  obtain ⟨l, r, c, d, w, h1, h2, h3, h4, h5, h6, h7, h8, h9, h10⟩ := hj
  have h' : ∀ j < i, a[j]? = b[j]? := fun j hj => h j (by omega)
  exact ⟨l, r, c, d, w, h i (by omega) ▸ h1, h2, h3, h' _ h2 ▸ h4, h' _ h3 ▸ h5, h6,
    (QueuedAt.congr h').1 h7, (QueuedAt.congr h').1 h8, h9.congr h' h2 h3,
    fun j hq hl hr => (h10 j ((QueuedAt.congr h').2 hq) hl hr).congr h' h3 hq.1⟩

/-- What holds each time merge_until_one tests its loop condition, with `next` the next free record. -/
structure MergeInv (n total : Nat) (a₀ : Arena) (next : Nat) (q : List HeapKey) (a : Arena) : Prop where
  few : n ≤ 256
  count : q.length + next = 2 * n
  le_next : n ≤ next
  queued : ∀ e ∈ q, e.idx.toNat < next ∧ ∃ c, a[e.idx.toNat]? = some c ∧ c.weight = e.weight
  nodup : (q.map HeapKey.idx).Nodup
  queue_iff : ∀ j < next, (∃ e ∈ q, e.idx.toNat = j) ↔ ¬ ChildBelow a n next j
  leaves : ∀ j < n, a[j]? = a₀[j]?
  rest : ∀ j < 511, next ≤ j → a[j]? = some Node.zero
  joins : ∀ i < next, n ≤ i → JoinOk a n i
  sum : (q.map fun e => e.weight.toNat).sum = total
  small : total < 2 ^ 40

/-- Two entries of the queue compare as their nodes' keys. -/
theorem keyBefore_of_keyVal {a : Arena} {x y : HeapKey} {c d : Node}
    (hx : a[x.idx.toNat]? = some c) (hxw : c.weight = x.weight)
    (hy : a[y.idx.toNat]? = some d) (hyw : d.weight = y.weight)
    (hle : keyVal x ≤ keyVal y) (hne : x.idx ≠ y.idx) : KeyBefore a x.idx.toNat y.idx.toNat := by
  have h512 : x.idx.toNat < 512 := x.idx.isLt
  have h512' : y.idx.toNat < 512 := y.idx.isLt
  have : x.idx.toNat ≠ y.idx.toNat := fun h => hne (BitVec.eq_of_toNat_eq h)
  refine ⟨c, d, hx, hy, ?_⟩
  rw [← BitVec.toNat_inj, hxw, hyw]
  simp only [keyVal] at hle
  omega

theorem MergeInv.step {n total next : Nat} {a₀ a : Arena} {k : HeapKey} {q : List HeapKey}
    {x y k' : HeapKey} {q' rest : List HeapKey}
    (h : MergeInv n total a₀ next (k :: q) a) (h1 : extractMin k q = (x, k' :: q'))
    (h2 : extractMin k' q' = (y, rest)) :
    MergeInv n total a₀ (next + 1) (⟨x.weight + y.weight, BitVec.ofNat 9 next⟩ :: rest)
      (putNode a (BitVec.ofNat 9 next) (joinNode x y)) := by
  have p1 := extractMin_perm k q
  have p2 := extractMin_perm k' q'
  have m1 := extractMin_min k q
  have m2 := extractMin_min k' q'
  rw [h1] at p1 m1
  rw [h2] at p2 m2
  dsimp only at p1 p2 m1 m2
  have pp : (x :: y :: rest).Perm (k :: q) := (p2.cons x).trans p1
  have hlen := pp.length_eq
  have hcount := h.count
  have hle := h.le_next
  have hfew := h.few
  simp only [List.length_cons] at hlen hcount
  have hnext : next < 511 := by omega
  have hidx : (BitVec.ofNat 9 next).toNat = next := by simp only [BitVec.toNat_ofNat]; omega
  have hget : ∀ j, (putNode a (BitVec.ofNat 9 next) (joinNode x y))[j]? =
      if j = next then some (joinNode x y) else a[j]? := by
    intro j
    rw [putNode_getElem? _ _ _ _ (by omega), hidx]
  generalize putNode a (BitVec.ofNat 9 next) (joinNode x y) = b at hget
  have hbelow : ∀ j < next, a[j]? = b[j]? := fun j hj => by rw [hget, if_neg (by omega)]
  have hx : x ∈ k :: q := pp.mem_iff.1 (by simp)
  have hy : y ∈ k :: q := pp.mem_iff.1 (by simp)
  have hrest : ∀ e ∈ rest, e ∈ k :: q := fun e he => pp.mem_iff.1 (by simp [he])
  obtain ⟨hxn, c, hc, hcw⟩ := h.queued x hx
  obtain ⟨hyn, d, hd, hdw⟩ := h.queued y hy
  have hnd : ((x :: y :: rest).map HeapKey.idx).Nodup := (pp.map _).nodup_iff.2 h.nodup
  simp only [List.map_cons, List.nodup_cons, List.mem_cons, List.mem_map, not_or, not_exists, not_and] at hnd
  obtain ⟨⟨hxy, hxr⟩, hyr, hrr⟩ := hnd
  have hsum := h.sum
  rw [← (pp.map _).sum_eq] at hsum
  simp only [List.map_cons, List.sum_cons] at hsum
  have hsmall := h.small
  have hw : (x.weight + y.weight).toNat = x.weight.toNat + y.weight.toNat := by
    rw [BitVec.toNat_add, Nat.mod_eq_of_lt (by omega)]
  have hxyv : keyVal x ≤ keyVal y := m1 y (p2.mem_iff.1 (by simp))
  have hchild : ∀ j, ChildBelow b n (next + 1) j ↔
      (ChildBelow a n next j ∨ x.idx.toNat = j ∨ y.idx.toNat = j) := by
    intro j
    constructor
    · rintro ⟨i, e, hi1, hi2, hi3, hi4⟩
      by_cases hin : i = next
      · subst hin
        rw [hget, if_pos rfl] at hi3
        cases hi3
        exact .inr hi4
      · rw [hget, if_neg hin] at hi3
        exact .inl ⟨i, e, hi1, by omega, hi3, hi4⟩
    · rintro (⟨i, e, hi1, hi2, hi3, hi4⟩ | hj)
      · exact ⟨i, e, hi1, by omega, by rw [hget, if_neg (by omega)]; exact hi3, hi4⟩
      · exact ⟨next, joinNode x y, hle, by omega, by rw [hget, if_pos rfl], hj⟩
  refine ⟨hfew, ?_, by omega, ?_, ?_, ?_, ?_, ?_, ?_, ?_, hsmall⟩
  · simp only [List.length_cons]; omega
  · intro e he
    rcases List.mem_cons.1 he with rfl | he
    · exact ⟨by simp only [hidx]; omega, joinNode x y, by simp only [hidx]; rw [hget, if_pos rfl], rfl⟩
    · obtain ⟨g1, f, g2, g3⟩ := h.queued e (hrest e he)
      exact ⟨by omega, f, by rw [hget, if_neg (by omega)]; exact g2, g3⟩
  · simp only [List.map_cons, List.nodup_cons]
    refine ⟨fun hm => ?_, hrr⟩
    obtain ⟨e, he, hee⟩ := List.mem_map.1 hm
    have := (h.queued e (hrest e he)).1
    rw [hee, hidx] at this
    omega
  · intro j hj
    rw [hchild]
    by_cases hjn : j = next
    · subst hjn
      have hnc : ¬ ChildBelow a n j j := by
        rintro ⟨i, e, hi1, hi2, hi3, hi4⟩
        obtain ⟨l, r, _, _, _, g1, g2, g3, -⟩ := h.joins i hi2 hi1
        rw [g1] at hi3
        cases hi3
        dsimp only at hi4
        omega
      constructor
      · rintro - (h' | h' | h')
        · exact hnc h'
        · omega
        · omega
      · intro _
        exact ⟨_, List.mem_cons_self, hidx⟩
    · have hiff := h.queue_iff j (by omega)
      constructor
      · rintro ⟨e, he, hee⟩ hor
        rcases List.mem_cons.1 he with rfl | he
        · simp only [hidx] at hee; omega
        rcases hor with h' | h' | h'
        · exact hiff.1 ⟨e, hrest e he, hee⟩ h'
        · exact hxr e he (BitVec.eq_of_toNat_eq (hee.trans h'.symm))
        · exact hyr e he (BitVec.eq_of_toNat_eq (hee.trans h'.symm))
      · intro hno
        obtain ⟨e, he, hee⟩ := hiff.2 fun hcb => hno (.inl hcb)
        rcases List.mem_cons.1 (pp.mem_iff.2 he) with rfl | he'
        · exact absurd (.inr (.inl hee)) hno
        · rcases List.mem_cons.1 he' with rfl | he''
          · exact absurd (.inr (.inr hee)) hno
          · exact ⟨e, List.mem_cons_of_mem _ he'', hee⟩
  · intro j hj
    rw [hget, if_neg (by omega), h.leaves j hj]
  · intro j hj hjn
    rw [hget, if_neg (by omega)]
    exact h.rest j hj (by omega)
  · intro i hi hin
    by_cases hi' : i = next
    · subst hi'
      have hq : ∀ j, QueuedAt b n i j ↔ (∃ e ∈ k :: q, e.idx.toNat = j) := by
        intro j
        rw [← QueuedAt.congr hbelow]
        constructor
        · rintro ⟨g1, g2⟩; exact (h.queue_iff j g1).2 g2
        · rintro ⟨e, he, rfl⟩
          have := (h.queued e he).1
          exact ⟨this, (h.queue_iff _ this).1 ⟨e, he, rfl⟩⟩
      have hkb := keyBefore_of_keyVal hc hcw hd hdw hxyv hxy
      refine ⟨x.idx, y.idx, c, d, x.weight + y.weight, by rw [hget, if_pos rfl]; rfl, hxn, hyn,
        hbelow _ hxn ▸ hc, hbelow _ hyn ▸ hd, by rw [hw, hcw, hdw], (hq _).2 ⟨x, hx, rfl⟩,
        (hq _).2 ⟨y, hy, rfl⟩, hkb.congr hbelow hxn hyn, ?_⟩
      intro j hj hjx hjy
      obtain ⟨e, he, rfl⟩ := (hq j).1 hj
      obtain ⟨hen, f, hf, hfw⟩ := h.queued e he
      rcases List.mem_cons.1 (pp.mem_iff.2 he) with rfl | he'
      · exact absurd rfl hjx
      · rcases List.mem_cons.1 he' with rfl | he''
        · exact absurd rfl hjy
        · exact (keyBefore_of_keyVal hd hdw hf hfw (m2 e he'')
            (fun heq => hjy (by rw [heq]))).congr hbelow hyn hen
    · exact (h.joins i (by omega) hin).congr fun j hj => hbelow j (by omega)
  · simp only [List.map_cons, List.sum_cons, hw]
    omega

/-- merge_until_one ends with one node queued and every record made (R136, R138). -/
theorem mergeNodes_spec {n total : Nat} {a₀ : Arena} (fuel next : Nat) (q : List HeapKey) (a : Arena)
    (h : MergeInv n total a₀ next q a) (hq : q ≠ []) (hf : q.length ≤ fuel) :
    ∃ e, MergeInv n total a₀ (2 * n - 1) [e] (mergeNodes fuel next q a) := by
  induction fuel generalizing next q a with
  | zero => cases q <;> simp_all
  | succ fuel ih =>
    cases q with
    | nil => exact absurd rfl hq
    | cons k q =>
      have hl := extractMin_length k q
      have hcount := h.count
      simp only [List.length_cons] at hcount hf
      unfold mergeNodes
      split
      · rename_i x h1
        rw [h1] at hl
        have hq0 : q = [] := List.length_eq_zero_iff.1 hl.symm
        subst hq0
        have hn : next = 2 * n - 1 := by simp only [List.length_nil] at hcount; omega
        exact ⟨k, hn ▸ h⟩
      · rename_i x k' q' h1
        have hl2 := extractMin_length k' q'
        split
        rename_i y rest h2
        rw [h1] at hl
        rw [h2] at hl2
        simp only [List.length_cons] at hl hl2
        exact ih _ _ _ (h.step h1 h2) (by simp) (by simp only [List.length_cons]; omega)

/-! ### The whole arena (R132, R134, R136, R137) -/

/-- The sum of the frequencies of `syms`, the weight of their root. -/
def freqSum (freq : SymFile Word) (syms : List Byte) : Nat := (syms.map fun x => (atSym freq x).toNat).sum

theorem freqSum_lt {freq : SymFile Word} {syms : List Byte}
    (h : ∀ x ∈ syms, (atSym freq x).getLsbD 31 = false) : freqSum freq syms ≤ syms.length * (2 ^ 31 - 1) := by
  induction syms with
  | nil => simp [freqSum]
  | cons x xs ih =>
    have hx : (atSym freq x).toNat < 2 ^ 31 := by
      have hm : (atSym freq x).msb = false := by rw [BitVec.msb_eq_getLsbD_last]; exact h x (by simp)
      rw [BitVec.msb_eq_decide, decide_eq_false_iff_not] at hm
      omega
    have := ih fun y hy => h y (by simp [hy])
    simp only [freqSum, List.map_cons, List.sum_cons, List.length_cons] at this ⊢
    omega

/-- The queue seed_leaves leaves meets the loop's invariant. -/
theorem seed_mergeInv {freq : SymFile Word} {syms : List Byte} (hn : syms.length ≤ 256)
    (h : ∀ x ∈ syms, (atSym freq x).getLsbD 31 = false) :
    MergeInv syms.length (freqSum freq syms) (seedLeaves freq syms 0 State.reset.nodes) syms.length
      (leafKeys freq syms 0) (seedLeaves freq syms 0 State.reset.nodes) := by
  have hseed : ∀ j, (seedLeaves freq syms 0 State.reset.nodes)[j]? = match syms[j]? with
      | some x => some (leafNode x (atSym freq x))
      | none => State.reset.nodes[j]? := fun j => by
    rw [seedLeaves_getElem? _ _ _ _ _ (by omega), if_neg (by omega), Nat.sub_zero]
  have hkey := leafKeys_getElem? freq syms 0
  have hkl := leafKeys_length freq syms 0
  have hmem : ∀ e ∈ leafKeys freq syms 0, ∃ j x, syms[j]? = some x ∧ e.idx.toNat = j ∧
      e.weight = (atSym freq x).setWidth 40 := by
    intro e he
    obtain ⟨j, hj⟩ := List.mem_iff_getElem?.1 he
    rw [hkey] at hj
    obtain ⟨x, hx, rfl⟩ := Option.map_eq_some_iff.1 hj
    have := (List.getElem?_eq_some_iff.1 hx).1
    exact ⟨j, x, hx, by simp only [BitVec.toNat_ofNat]; omega, rfl⟩
  have hnc : ∀ j, ¬ ChildBelow (seedLeaves freq syms 0 State.reset.nodes) syms.length syms.length j := by
    rintro j ⟨i, -, h1, h2, -⟩
    omega
  refine ⟨hn, by rw [hkl]; omega, Nat.le_refl _, ?_, ?_, ?_, fun _ _ => rfl, ?_, fun i h1 h2 => absurd h2 (by omega),
    ?_, ?_⟩
  · intro e he
    obtain ⟨j, x, hx, hj, hw⟩ := hmem e he
    refine ⟨by rw [hj]; exact (List.getElem?_eq_some_iff.1 hx).1, leafNode x (atSym freq x), ?_, hw.symm⟩
    rw [hj, hseed, hx]
  · rw [List.nodup_iff_injective_getElem]
    rintro ⟨i, hi⟩ ⟨j, hj⟩ hij
    simp only [List.length_map, hkl] at hi hj
    have hgi : ∀ m (hm : m < syms.length), ((leafKeys freq syms 0).map HeapKey.idx)[m]'(by simp [hkl, hm]) =
        BitVec.ofNat 9 m := by
      intro m hm
      have := hkey m
      rw [List.getElem?_eq_getElem (by omega), List.getElem?_eq_getElem hm] at this
      simp only [Option.map_some, Option.some.injEq, Nat.zero_add] at this
      simp [this]
    dsimp only at hij
    rw [hgi i hi, hgi j hj] at hij
    have := congrArg BitVec.toNat hij
    simp only [BitVec.toNat_ofNat] at this
    simp only [Fin.mk.injEq]
    omega
  · intro j hj
    refine ⟨fun _ => hnc j, fun _ => ?_⟩
    refine ⟨⟨(atSym freq syms[j]).setWidth 40, BitVec.ofNat 9 j⟩, List.mem_iff_getElem?.2 ⟨j, ?_⟩, ?_⟩
    · rw [hkey, List.getElem?_eq_getElem hj]; simp
    · simp only [BitVec.toNat_ofNat]; omega
  · intro j hj hjn
    rw [hseed, List.getElem?_eq_none hjn]
    exact reset_nodes j hj
  · clear hseed hkey hkl hmem hnc hn
    unfold freqSum
    generalize 0 = k
    induction syms generalizing k with
    | nil => rfl
    | cons x xs ih =>
      have hlt := (atSym freq x).isLt
      simp only [leafKeys, List.map_cons, List.sum_cons, BitVec.toNat_setWidth]
      rw [ih (fun y hy => h y (by simp [hy])), Nat.mod_eq_of_lt (by omega)]
  · have := freqSum_lt h
    have : syms.length * (2 ^ 31 - 1) ≤ 256 * (2 ^ 31 - 1) := Nat.mul_le_mul_right _ hn
    omega

/-- An empty table leaves an all-zero arena (R132). -/
theorem treeArena_nil (freq : SymFile Word) : treeArena freq [] = State.reset.nodes := rfl

/-- The tree of `n >= 1` present symbols with legal frequencies: the leaves are the symbols in order, every
other record to 2n - 2 joins the two smallest queued nodes, the records after stay zero, every node but the
last has a parent, and the last weighs the sum of the frequencies (R134, R136, R137, R138). -/
theorem treeArena_spec {freq : SymFile Word} {syms : List Byte} (h1 : syms ≠ []) (hn : syms.length ≤ 256)
    (h : ∀ x ∈ syms, (atSym freq x).getLsbD 31 = false) :
    (∀ i (hi : i < syms.length), (treeArena freq syms)[i]? = some (leafNode syms[i] (atSym freq syms[i]))) ∧
    (∀ i < 2 * syms.length - 1, syms.length ≤ i → JoinOk (treeArena freq syms) syms.length i) ∧
    (∀ i < 511, 2 * syms.length - 1 ≤ i → (treeArena freq syms)[i]? = some Node.zero) ∧
    (∀ j < 2 * syms.length - 2, ChildBelow (treeArena freq syms) syms.length (2 * syms.length - 1) j) ∧
    (∃ c, (treeArena freq syms)[2 * syms.length - 2]? = some c ∧ c.weight.toNat = freqSum freq syms) := by
  have hpos : 0 < syms.length := List.length_pos_iff.2 h1
  obtain ⟨e, he⟩ := mergeNodes_spec syms.length syms.length _ _ (seed_mergeInv hn h)
    (fun h0 => by have := leafKeys_length freq syms 0; rw [h0] at this; simp at this; omega)
    (by rw [leafKeys_length])
  change MergeInv _ _ _ _ _ (treeArena freq syms) at he
  generalize treeArena freq syms = a at he
  have hroot : ¬ ChildBelow a syms.length (2 * syms.length - 1) (2 * syms.length - 2) := by
    rintro ⟨i, c, hi1, hi2, hi3, hi4⟩
    obtain ⟨l, r, _, _, _, g1, g2, g3, -⟩ := he.joins i hi2 hi1
    rw [g1] at hi3
    cases hi3
    dsimp only at hi4
    omega
  obtain ⟨e', he', hidx⟩ := (he.queue_iff (2 * syms.length - 2) (by omega)).2 hroot
  obtain rfl := List.mem_singleton.1 he'
  refine ⟨fun i hi => ?_, he.joins, he.rest, fun j hj => ?_, ?_⟩
  · rw [he.leaves i hi, seedLeaves_getElem? _ _ _ _ _ (by omega)]
    simp [List.getElem?_eq_getElem hi]
  · by_contra hno
    obtain ⟨e'', he'', hj'⟩ := (he.queue_iff j (by omega)).2 hno
    obtain rfl := List.mem_singleton.1 he''
    omega
  · obtain ⟨-, c, hc, hw⟩ := he.queued e' he'
    have hs := he.sum
    simp only [List.map_cons, List.map_nil, List.sum_cons, List.sum_nil, Nat.add_zero] at hs
    exact ⟨c, hidx ▸ hc, by rw [hw, hs]⟩

/-- A built arena has the shape of a tree (R31, R32). -/
theorem treeArena_shape {freq : SymFile Word} {syms : List Byte} (hn : syms.length ≤ 256)
    (ha : syms.Pairwise fun x y => x.toNat < y.toNat) (h : ∀ x ∈ syms, (atSym freq x).getLsbD 31 = false) :
    TreeShape (treeArena freq syms) syms.length := by
  by_cases h1 : syms = []
  · subst h1
    exact ⟨fun i hi => absurd hi (by simp), fun i hi => absurd hi (by simp), fun i hi => absurd hi (by simp),
      fun j hj => absurd hj (by simp), fun i hi => absurd hi (by simp), fun i hi _ => reset_nodes i hi⟩
  · obtain ⟨hl, hj, hr, hp, -⟩ := treeArena_spec h1 hn h
    refine ⟨fun i hi => ⟨_, _, hl i hi⟩, ?_, ?_, hp, ?_, hr⟩
    · intro i hi j hji c d hc hd
      rw [hl i hi] at hc
      rw [hl j (by omega)] at hd
      cases hc
      cases hd
      exact List.pairwise_iff_getElem.1 ha j i (by omega) hi hji
    · intro i hi hin
      obtain ⟨l, r, c, d, w, g1, g2, g3, -, -, -, -, -, hkb, -⟩ := hj i hi hin
      refine ⟨l, r, w, g1, g2, g3, fun hlr => ?_⟩
      obtain ⟨c', d', k1, k2, k3⟩ := hkb
      rw [hlr] at k1 k3
      rw [k1] at k2
      cases k2
      omega
    · intro i hi hin j hji hjn c d hc hd
      obtain ⟨l, r, _, _, _, g1, -, -, -, -, -, ⟨-, hql⟩, ⟨-, hqr⟩, -, -⟩ := hj i hi hin
      rw [g1] at hc
      cases hc
      refine ⟨fun e => hql ⟨j, d, hjn, hji, hd, .inl ?_⟩, fun e => hql ⟨j, d, hjn, hji, hd, .inr ?_⟩,
        fun e => hqr ⟨j, d, hjn, hji, hd, .inl ?_⟩, fun e => hqr ⟨j, d, hjn, hji, hd, .inr ?_⟩⟩ <;>
      exact congrArg BitVec.toNat e.symm

end Sys2Proof.Machine
end

