-- ==== Sys2Proof/Laws/Codes.lean ====
section
/-! SUPPORT. What GEN_CODES does: the bits of a stored code, unique paths, and the walk
(42_code_generator.md R151 to R156). -/

namespace Sys2Proof.Machine

/-! ### Bits of a code (10_state.md R36) -/

theorem getLsbD_putBit (w : Word) {j : Nat} (hj : j < 32) (b : Bool) (m : Nat) :
    (putBit w j b).getLsbD m = if m = j then b else w.getLsbD m := by
  unfold putBit
  split <;> rename_i hb
  · simp only [BitVec.getLsbD_or, BitVec.getLsbD_twoPow]
    by_cases h : m = j
    · subst h; simp [hj, hb]
    · simp [h, Ne.symm h]
  · simp only [BitVec.getLsbD_and, BitVec.getLsbD_not, BitVec.getLsbD_twoPow]
    by_cases h : m = j
    · subst h; simp [hj, hb]
    · by_cases hm : m < 32
      · simp [h, Ne.symm h, hm]
      · simp [h, BitVec.getLsbD_of_ge w m (by omega)]

theorem codeBit_putCodeBit (r : CodeRow) {i : Nat} (hi : i < 256) (b : Bool) (k : Nat) :
    codeBit (putCodeBit r i b) k = if k = i then b else codeBit r k := by
  have h8 : i / 32 < 8 := by omega
  have hr : r[i / 32]? = some r[i / 32] := by simp [h8]
  unfold putCodeBit
  rw [hr]
  dsimp only
  unfold codeBit
  rw [Vector.getElem?_setIfInBounds]
  by_cases hw : i / 32 = k / 32
  · rw [if_pos hw, if_pos h8, ← hw, hr]
    dsimp only
    rw [getLsbD_putBit _ (by omega)]
    by_cases hk : k = i
    · subst hk; simp
    · rw [if_neg hk, if_neg (by omega)]
  · rw [if_neg hw, if_neg (by rintro rfl; exact hw rfl)]

theorem codeBit_putPath (p : List Bool) (i : Nat) (r : CodeRow) (h : i + p.length ≤ 256) (k : Nat) :
    codeBit (putPath p i r) k = if k < i then codeBit r k else p.getD (k - i) (codeBit r k) := by
  induction p generalizing i r with
  | nil => simp [putPath]
  | cons b p ih =>
    simp only [List.length_cons] at h
    rw [putPath, ih _ _ (by omega), codeBit_putCodeBit _ (by omega)]
    rcases Nat.lt_trichotomy k i with hk | rfl | hk
    · simp [hk, show k < i + 1 by omega, show k ≠ i by omega]
    · simp
    · obtain ⟨m, rfl⟩ : ∃ m, k = i + 1 + m := ⟨k - (i + 1), by omega⟩
      simp [show ¬ i + 1 + m < i + 1 by omega, show ¬ i + 1 + m < i by omega, show i + 1 + m ≠ i by omega,
        show i + 1 + m - (i + 1) = m by omega, show i + 1 + m - i = m + 1 by omega]

theorem codeBit_zero (k : Nat) : codeBit (Vector.replicate 8 0#32) k = false := by
  unfold codeBit
  by_cases h : k / 32 < 8 <;> simp [h]

theorem codeBit_putPath_cleared (p : List Bool) (h : p.length ≤ 256) (k : Nat) :
    codeBit (putPath p 0 (Vector.replicate 8 0#32)) k = p.getD k false := by
  rw [codeBit_putPath _ _ _ (by omega), codeBit_zero]
  simp

/-! ### Paths -/

/-- The path `q` from node `i` ends at the leaf of symbol `x`. -/
def LeafAt (a : Arena) (i : NodeIdx) (q : List Bool) (x : Byte) : Prop :=
  ∃ j n, follow a i q = some j ∧ nodeAt a j = some n ∧ n.leaf = true ∧ n.sym = x

theorem pathToLeaf_iff (s : State) (p : List Bool) (x : Byte) : PathToLeaf s p x ↔ LeafAt s.nodes s.root p x :=
  Iff.rfl

theorem follow_append (a : Arena) (i : NodeIdx) (p q : List Bool) :
    follow a i (p ++ q) = (follow a i p).bind fun j => follow a j q := by
  induction p generalizing i with
  | nil => rfl
  | cons b p ih =>
    simp only [List.cons_append, follow]
    split
    · rfl
    · split
      · rfl
      · exact ih _

theorem follow_leaf {a : Arena} {i j : NodeIdx} {n : Node} {q : List Bool} (hi : nodeAt a i = some n)
    (hl : n.leaf = true) (h : follow a i q = some j) : q = [] ∧ j = i := by
  cases q with
  | nil => exact ⟨rfl, (Option.some.inj h).symm⟩
  | cons b q => simp [follow, hi, hl] at h

theorem LeafAt.at_leaf {a : Arena} {i : NodeIdx} {n : Node} {q : List Bool} {x : Byte}
    (hi : nodeAt a i = some n) (hl : n.leaf = true) : LeafAt a i q x ↔ q = [] ∧ n.sym = x := by
  constructor
  · rintro ⟨j, m, h1, h2, h3, h4⟩
    obtain ⟨rfl, rfl⟩ := follow_leaf hi hl h1
    rw [hi] at h2
    cases h2
    exact ⟨rfl, h4⟩
  · rintro ⟨rfl, h⟩
    exact ⟨i, n, rfl, hi, hl, h⟩

theorem LeafAt.at_join {a : Arena} {i : NodeIdx} {n : Node} {q : List Bool} {x : Byte}
    (hi : nodeAt a i = some n) (hl : n.leaf = false) :
    LeafAt a i q x ↔ ∃ b q', q = b :: q' ∧ LeafAt a (if b then n.right else n.left) q' x := by
  constructor
  · rintro ⟨j, m, h1, h2, h3, h4⟩
    cases q with
    | nil =>
      cases h1
      rw [hi] at h2
      cases h2
      rw [hl] at h3
      cases h3
    | cons b q =>
      simp only [follow, hi, hl, Bool.false_eq_true, if_false] at h1
      exact ⟨b, q, rfl, j, m, h1, h2, h3, h4⟩
  · rintro ⟨b, q', rfl, j, m, h1, h2, h3, h4⟩
    exact ⟨j, m, by simpa only [follow, hi, hl, Bool.false_eq_true, if_false] using h1, h2, h3, h4⟩

/-! ### Trees: depth and unique paths (R138) -/

/-- The number of internal nodes a path below node `i` can meet. -/
def height (n i : Nat) : Nat := i + 1 - n

/-- A step down from an internal node. -/
theorem TreeShape.child {a : Arena} {n : Nat} (h : TreeShape a n) {i : NodeIdx} (hi : i.toNat < 2 * n - 1)
    (hin : n ≤ i.toNat) : ∃ c, nodeAt a i = some c ∧ c.leaf = false ∧ ∀ b : Bool,
      (if b then c.right else c.left).toNat < i.toNat := by
  obtain ⟨l, r, w, h1, h2, h3, -⟩ := h.join i.toNat hi hin
  refine ⟨_, h1, rfl, fun b => ?_⟩
  cases b <;> simpa

theorem TreeShape.node {a : Arena} {n : Nat} (h : TreeShape a n) {i : NodeIdx}
    (hi : i.toNat < 2 * n - 1) : ∃ c, nodeAt a i = some c ∧ c.leaf = decide (i.toNat < n) := by
  by_cases hin : i.toNat < n
  · obtain ⟨x, w, h1⟩ := h.leaf i.toNat hin
    exact ⟨_, h1, by simp [hin]⟩
  · obtain ⟨c, h1, h2, -⟩ := h.child hi (by omega)
    exact ⟨c, h1, by simp [h2, hin]⟩

theorem TreeShape.follow_height {a : Arena} {n : Nat} (h : TreeShape a n) (q : List Bool)
    {i j : NodeIdx} (hi : i.toNat < 2 * n - 1) (hq : follow a i q = some j) :
    j.toNat < 2 * n - 1 ∧ q.length + height n j.toNat ≤ height n i.toNat ∧ q.length + j.toNat ≤ i.toNat := by
  induction q generalizing i with
  | nil => cases hq; simp [hi]
  | cons b q ih =>
    by_cases hin : i.toNat < n
    · obtain ⟨c, h1, h2⟩ := h.node hi
      have := follow_leaf h1 (by simp [h2, hin]) hq
      simp at this
    · obtain ⟨c, h1, h2, h3⟩ := h.child hi (by omega)
      simp only [follow, h1, h2, Bool.false_eq_true, if_false] at hq
      have := h3 b
      have ⟨g1, g2, g3⟩ := ih (by omega) hq
      simp only [height, List.length_cons] at g2 ⊢
      omega

theorem TreeShape.follow_unique {a : Arena} {n : Nat} (h : TreeShape a n) {i j : NodeIdx}
    (hi : i.toNat < 2 * n - 1) : ∀ p q : List Bool, follow a i p = some j → follow a i q = some j → p = q := by
  intro p
  induction p using List.reverseRecOn generalizing j with
  | nil =>
    intro q hp hq
    cases hp
    have := (h.follow_height q hi hq).2.2
    exact (List.length_eq_zero_iff.1 (by omega)).symm
  | append_singleton p b ih =>
    intro q hp hq
    rcases List.eq_nil_or_concat q with rfl | ⟨q, c, rfl⟩
    · cases hq
      have := (h.follow_height _ hi hp).2.2
      simp at this
    · rw [List.concat_eq_append] at hq ⊢
      rw [follow_append] at hp hq
      obtain ⟨u, hu, hub⟩ := Option.bind_eq_some_iff.1 hp
      obtain ⟨v, hv, hvc⟩ := Option.bind_eq_some_iff.1 hq
      have hu1 := (h.follow_height p hi hu).1
      have hv1 := (h.follow_height q hi hv).1
      have inner : ∀ (w : NodeIdx) (d : Bool), w.toNat < 2 * n - 1 → follow a w [d] = some j →
          ∃ l r k, n ≤ w.toNat ∧ a[w.toNat]? = some ⟨true, false, 0#8, l, r, k⟩ ∧ l ≠ r ∧ j = if d then r else l := by
        intro w d hw hd
        by_cases hwn : w.toNat < n
        · obtain ⟨c, h1, h2⟩ := h.node hw
          have := follow_leaf h1 (by simp [h2, hwn]) hd
          simp at this
        · obtain ⟨l, r, k, h1, h2, h3, h4⟩ := h.join w.toNat hw (by omega)
          refine ⟨l, r, k, by omega, h1, h4, ?_⟩
          have h1' : nodeAt a w = some ⟨true, false, 0#8, l, r, k⟩ := h1
          simp only [follow, h1', Bool.false_eq_true, if_false, Option.some.injEq] at hd
          exact hd.symm
      obtain ⟨l, r, k, e1, e2, e3, e4⟩ := inner u b hu1 hub
      obtain ⟨l', r', k', f1, f2, f3, f4⟩ := inner v c hv1 hvc
      have huv : u = v := by
        rcases Nat.lt_trichotomy u.toNat v.toNat with hlt | heq | hlt
        · have := h.one_parent v.toNat hv1 f1 u.toNat hlt e1 _ _ f2 e2
          dsimp only at this
          cases b <;> cases c <;> simp_all
        · exact BitVec.eq_of_toNat_eq heq
        · have := h.one_parent u.toNat hu1 e1 v.toNat hlt f1 _ _ e2 f2
          dsimp only at this
          cases b <;> cases c <;> simp_all
      subst huv
      rw [e2] at f2
      cases f2
      rw [ih q hu hv]
      cases b <;> cases c <;> simp_all

/-- Two paths from a node to leaves of one symbol are the same path. -/
theorem TreeShape.leafAt_unique {a : Arena} {n : Nat} (h : TreeShape a n) {i : NodeIdx}
    (hi : i.toNat < 2 * n - 1) {p q : List Bool} {x : Byte} (hp : LeafAt a i p x) (hq : LeafAt a i q x) :
    p = q := by
  obtain ⟨j, c, h1, h2, h3, rfl⟩ := hp
  obtain ⟨k, d, g1, g2, g3, g4⟩ := hq
  have hj := (h.follow_height p hi h1).1
  have hk := (h.follow_height q hi g1).1
  have hjn : j.toNat < n := by
    obtain ⟨c', e1, e2⟩ := h.node hj
    rw [h2] at e1; cases e1; simpa [h3] using e2
  have hkn : k.toNat < n := by
    obtain ⟨d', e1, e2⟩ := h.node hk
    rw [g2] at e1; cases e1; simpa [g3] using e2
  have hjk : j = k := by
    rcases Nat.lt_trichotomy j.toNat k.toNat with hlt | heq | hlt
    · have := h.sym_ascending k.toNat hkn j.toNat hlt d c g2 h2
      rw [g4] at this
      omega
    · exact BitVec.eq_of_toNat_eq heq
    · have := h.sym_ascending j.toNat hjn k.toNat hlt c d h2 g2
      rw [g4] at this
      omega
  subst hjk
  exact h.follow_unique hi p q h1 g1

/-- Every node of the tree is reached from the root. -/
theorem TreeShape.reached {a : Arena} {n : Nat} (h : TreeShape a n) (hn : n ≤ 256) (h2 : 2 ≤ n) (root : NodeIdx)
    (hr : root.toNat = 2 * n - 2) (d : Nat) : ∀ j : NodeIdx, j.toNat + d = 2 * n - 2 →
      ∃ p, follow a root p = some j := by
  induction d using Nat.strongRecOn with
  | ind d ih =>
    intro j hj
    by_cases hd : d = 0
    · exact ⟨[], by rw [follow, show root = j from BitVec.eq_of_toNat_eq (by omega)]⟩
    · obtain ⟨i, c, h3, h4, h5, h6⟩ := h.has_parent j.toNat (by omega)
      obtain ⟨l, r, w, g1, g2, g3, g4⟩ := h.join i h4 h3
      rw [g1] at h5
      cases h5
      dsimp only at h6
      have hidx : (BitVec.ofNat 9 i).toNat = i := by simp only [BitVec.toNat_ofNat]; omega
      obtain ⟨p, hp⟩ := ih (2 * n - 2 - i) (by omega) (BitVec.ofNat 9 i) (by omega)
      have hnode : nodeAt a (BitVec.ofNat 9 i) = some ⟨true, false, 0#8, l, r, w⟩ := by
        rw [nodeAt, hidx]; exact g1
      rcases h6 with h6 | h6
      · refine ⟨p ++ [false], ?_⟩
        rw [follow_append, hp]
        simp only [Option.bind_some, follow, hnode, Bool.false_eq_true, if_false]
        rw [BitVec.eq_of_toNat_eq h6]
      · refine ⟨p ++ [true], ?_⟩
        rw [follow_append, hp]
        simp only [Option.bind_some, follow, hnode, Bool.false_eq_true, if_false, if_true]
        rw [BitVec.eq_of_toNat_eq h6]

/-! ### The Kraft equality (R156) -/

/-- A leaf at depth `l` takes `2 ^ (m - l)` of the `2 ^ m` sequences of `m` bits. -/
def share (m : Nat) : Option Nat → Nat
  | none => 0
  | some l => 2 ^ (m - l)

theorem sum_one_symbol {c : Byte} {k : Nat} (xs : List Byte) (hn : xs.Nodup) (hc : c ∈ xs) :
    (xs.map fun x => if x = c then k else 0).sum = k := by
  induction xs with
  | nil => cases hc
  | cons x xs ih =>
    rw [List.nodup_cons] at hn
    by_cases hx : x = c
    · subst hx
      have : (xs.map fun y => if y = x then k else 0) = xs.map fun _ => 0 :=
        List.map_congr_left fun y hy => if_neg fun e : y = x => hn.1 (e ▸ hy)
      simp [this]
    · have := ih hn.2 ((List.mem_cons.1 hc).resolve_left (Ne.symm hx))
      simp [hx, this]

theorem allSymbols_nodup : allSymbols.Nodup :=
  allSymbols_ascending.imp fun h e => absurd (congrArg BitVec.toNat e) (by omega)

/-- The leaves below a node fill the tree below it (R156, the Kraft equality). -/
theorem TreeShape.kraft {a : Arena} {n : Nat} (h : TreeShape a n) (m : Nat) :
    ∀ (i : NodeIdx) (depth : Byte → Option Nat),
    i.toNat < 2 * n - 1 → height n i.toNat ≤ m →
    (∀ x q, LeafAt a i q x → depth x = some q.length) → (∀ x, (∀ q, ¬ LeafAt a i q x) → depth x = none) →
    (allSymbols.map fun x => share m (depth x)).sum = 2 ^ m := by
  have atLeaf : ∀ (m : Nat) (i : NodeIdx) (depth : Byte → Option Nat), i.toNat < n → i.toNat < 2 * n - 1 →
      (∀ x q, LeafAt a i q x → depth x = some q.length) → (∀ x, (∀ q, ¬ LeafAt a i q x) → depth x = none) →
      (allSymbols.map fun x => share m (depth x)).sum = 2 ^ m := by
    intro m i depth hin hi hd hno
    obtain ⟨c, h1, h2⟩ := h.node hi
    have hl : c.leaf = true := by simp [h2, hin]
    have : (fun x => share m (depth x)) = fun x => if x = c.sym then 2 ^ m else 0 := by
      funext x
      split
      · rename_i e; rw [hd x [] ((LeafAt.at_leaf h1 hl).2 ⟨rfl, e.symm⟩)]; rfl
      · rename_i e; rw [hno x fun q hq => e ((LeafAt.at_leaf h1 hl).1 hq).2.symm]; rfl
    rw [this, sum_one_symbol _ allSymbols_nodup (mem_allSymbols _)]
  induction m with
  | zero =>
    intro i depth hi hm hd hno
    exact atLeaf 0 i depth (by simp only [height] at hm; omega) hi hd hno
  | succ m ih =>
    intro i depth hi hm hd hno
    by_cases hin : i.toNat < n
    · exact atLeaf (m + 1) i depth hin hi hd hno
    · obtain ⟨c, h1, hl, hc⟩ := h.child hi (by omega)
      classical
      have half : ∀ b : Bool, (allSymbols.map fun x => share m
          (if ∃ q, LeafAt a (if b then c.right else c.left) q x then (depth x).map (· - 1) else none)).sum = 2 ^ m := by
        intro b
        have hb := hc b
        refine ih _ _ (by omega) (by simp only [height] at hm ⊢; omega) (fun x q hq => ?_)
          fun x hx => if_neg fun ⟨q, hq⟩ => hx q hq
        rw [if_pos ⟨q, hq⟩, hd x _ ((LeafAt.at_join h1 hl).2 ⟨b, q, rfl, hq⟩)]
        simp
      have hf := half false
      have ht := half true
      have : (fun x => share (m + 1) (depth x)) = fun x => share m
          (if ∃ q, LeafAt a (if false then c.right else c.left) q x then (depth x).map (· - 1) else none) + 
          share m
          (if ∃ q, LeafAt a (if true then c.right else c.left) q x then (depth x).map (· - 1) else none) := by
        funext x
        by_cases hx : ∃ q, LeafAt a i q x
        · obtain ⟨q, hq⟩ := hx
          obtain ⟨b, q', rfl, hb⟩ := (LeafAt.at_join h1 hl).1 hq
          have hother : ¬ ∃ q', LeafAt a (if !b then c.right else c.left) q' x := fun ⟨q', hq'⟩ => by
            have := h.leafAt_unique hi hq ((LeafAt.at_join h1 hl).2 ⟨!b, q', rfl, hq'⟩)
            simp at this
          rw [hd x _ hq]
          cases b
          · rw [if_pos ⟨q', hb⟩, if_neg (by simpa using hother)]; simp [share]
          · rw [if_neg (by simpa using hother), if_pos ⟨q', hb⟩]; simp [share]
        · have hx' : ∀ q, ¬ LeafAt a i q x := fun q hq => hx ⟨q, hq⟩
          rw [hno x hx']
          have : ∀ b : Bool, ¬ ∃ q, LeafAt a (if b then c.right else c.left) q x := fun b ⟨q, hq⟩ =>
            hx' _ ((LeafAt.at_join h1 hl).2 ⟨b, q, rfl, hq⟩)
          rw [if_neg (this false), if_neg (this true)]
          rfl
      rw [this, List.sum_map_add, hf, ht]
      omega

/-! ### The walk (R152, R153) -/

theorem recordCode_len (x y : Byte) (p : List Bool) (t : CodeTable) :
    atSym (recordCode x p t).len y = if y = x then BitVec.ofNat 8 p.length else atSym t.len y :=
  atSym_putSym _ _ _ _

theorem recordCode_word (x y : Byte) (p : List Bool) (t : CodeTable) :
    atSym (recordCode x p t).word y = if y = x then putPath p 0 (atSym t.word x) else atSym t.word y :=
  atSym_putSym _ _ _ _

/-- The walk from node `i` with path `p` records `p ++ q` for each leaf at a path `q` below `i`, and
nothing else. -/
theorem walkCodes_spec {a : Arena} {n : Nat} (h : TreeShape a n) (fuel : Nat) (i : NodeIdx)
    (p : List Bool) (t : CodeTable) (hi : i.toNat < 2 * n - 1) (hf : height n i.toNat < fuel) :
    ∃ t', walkCodes a fuel i p t = .ok t' ∧ ∀ x,
      (∀ q, LeafAt a i q x → atSym t'.len x = BitVec.ofNat 8 (p ++ q).length ∧
        atSym t'.word x = putPath (p ++ q) 0 (atSym t.word x)) ∧
      ((∀ q, ¬ LeafAt a i q x) → atSym t'.len x = atSym t.len x ∧ atSym t'.word x = atSym t.word x) := by
  induction fuel generalizing i p t with
  | zero => exact absurd hf (by omega)
  | succ fuel ih =>
    unfold walkCodes
    by_cases hin : i.toNat < n
    · obtain ⟨c, h1, h2⟩ := h.node hi
      have hl : c.leaf = true := by simp [h2, hin]
      rw [h1]
      simp only [hl, if_true]
      refine ⟨_, rfl, fun x => ⟨fun q hq => ?_, fun hno => ?_⟩⟩
      · obtain ⟨rfl, rfl⟩ := (LeafAt.at_leaf h1 hl).1 hq
        simp [recordCode_len, recordCode_word]
      · have : x ≠ c.sym := fun e => hno [] ((LeafAt.at_leaf h1 hl).2 ⟨rfl, e.symm⟩)
        simp [recordCode_len, recordCode_word, this]
    · obtain ⟨c, h1, hl, hc⟩ := h.child hi (by omega)
      have hcl := hc false
      have hcr := hc true
      simp only [Bool.false_eq_true, if_false, if_true] at hcl hcr
      have hh : ∀ j, j < i.toNat → height n j < fuel := fun j hj => by
        simp only [height] at hf ⊢; omega
      obtain ⟨t₁, e1, s1⟩ := ih c.left (p ++ [false]) t (by omega) (hh _ hcl)
      obtain ⟨t₂, e2, s2⟩ := ih c.right (p ++ [true]) t₁ (by omega) (hh _ hcr)
      rw [h1]
      simp only [hl, Bool.false_eq_true, if_false, e1, e2]
      refine ⟨t₂, rfl, fun x => ⟨fun q hq => ?_, fun hno => ?_⟩⟩
      · obtain ⟨b, q, rfl, hb⟩ := (LeafAt.at_join h1 hl).1 hq
        have hother : ∀ q', ¬ LeafAt a (if !b then c.right else c.left) q' x := fun q' hq' => by
          have := h.leafAt_unique hi hq ((LeafAt.at_join h1 hl).2 ⟨!b, q', rfl, hq'⟩)
          simp at this
        cases b with
        | false =>
          have g1 := (s1 x).1 q hb
          have g2 := (s2 x).2 hother
          rw [g2.1, g2.2, g1.1, g1.2]
          simp
        | true =>
          have g1 := (s1 x).2 hother
          have g2 := (s2 x).1 q hb
          rw [g2.1, g2.2, g1.2]
          simp
      · have g1 := (s1 x).2 fun q hq => hno _ ((LeafAt.at_join h1 hl).2 ⟨false, q, rfl, hq⟩)
        have g2 := (s2 x).2 fun q hq => hno _ ((LeafAt.at_join h1 hl).2 ⟨true, q, rfl, hq⟩)
        rw [g2.1, g2.2]
        exact g1

/-! ### The code table (R150 to R154) -/

theorem deriveCodes_empty {s : State} (h : s.nleaf = 0#9) : deriveCodes s = .ok CodeTable.cleared := by
  simp [deriveCodes, h]

theorem TreeInv.root_toNat {s : State} (h : TreeInv s) (h2 : 2 ≤ s.nleaf.toNat) :
    s.root.toNat = 2 * s.nleaf.toNat - 2 := by
  have h0 : s.nleaf ≠ 0#9 := fun e => by rw [e] at h2; exact absurd h2 (by decide)
  have hle : s.nleaf.toNat ≤ 256 := h.count.elim (fun e => absurd e h0) (·.2)
  rw [h.root_eq, if_neg h0, BitVec.toNat_ofNat]
  omega

/-- GEN_CODES on a non-empty tree never stops, and stores for the leaf at path `q` the code `q`, and no code
for any other symbol (R151, R152, R153). -/
theorem deriveCodes_spec {s : State} (h : TreeInv s) (h2 : 2 ≤ s.nleaf.toNat) :
    ∃ t, deriveCodes s = .ok t ∧ ∀ x,
      (∀ q, PathToLeaf s q x → 1 ≤ q.length ∧ q.length ≤ s.nleaf.toNat - 1 ∧ (atSym t.len x).toNat = q.length ∧
        ∀ k, codeBit (atSym t.word x) k = q.getD k false) ∧
      ((∀ q, ¬ PathToLeaf s q x) → atSym t.len x = 0#8 ∧ ∀ k, codeBit (atSym t.word x) k = false) := by
  have h0 : s.nleaf ≠ 0#9 := fun e => by rw [e] at h2; exact absurd h2 (by decide)
  have hle : s.nleaf.toNat ≤ 256 := h.count.elim (fun e => absurd e h0) (·.2)
  have hr := h.root_toNat h2
  obtain ⟨t, ht, hs⟩ := walkCodes_spec h.shape (Config.maxLen + 1) s.root [] CodeTable.cleared
    (by omega) (by simp only [height, Config.maxLen]; omega)
  refine ⟨t, by simp [deriveCodes, h0, ht], fun x => ⟨fun q hq => ?_, fun hno => ?_⟩⟩
  · obtain ⟨e1, e2⟩ := (hs x).1 q hq
    obtain ⟨j, c, g1, g2, g3, -⟩ := hq
    obtain ⟨k1, k2, k3⟩ := h.shape.follow_height q (by omega) g1
    have hjn : j.toNat < s.nleaf.toNat := by
      obtain ⟨c', f1, f2⟩ := h.shape.node k1
      rw [g2] at f1; cases f1; simpa [g3] using f2
    have hlen : q.length ≤ s.nleaf.toNat - 1 := by simp only [height] at k2; omega
    have hpos : 1 ≤ q.length := by
      cases q with
      | nil =>
        have := Option.some.inj g1
        rw [← this] at hjn
        omega
      | cons => simp
    refine ⟨hpos, hlen, ?_, fun k => ?_⟩
    · rw [e1, List.nil_append, BitVec.toNat_ofNat, Nat.mod_eq_of_lt (by omega)]
    · rw [e2, List.nil_append]
      simp only [CodeTable.cleared, State.reset, atSym_replicate]
      exact codeBit_putPath_cleared q (by omega) k
  · obtain ⟨e1, e2⟩ := (hs x).2 hno
    rw [e1, e2]
    simp only [CodeTable.cleared, State.reset, atSym_replicate, true_and]
    exact codeBit_zero

end Sys2Proof.Machine
end

