-- ==== Sys2Proof/Laws/Decode.lean ====
section
/-! SUPPORT. The decoder on offsets: fields as arithmetic, and each window's round trip. -/

namespace Sys2Proof

/-! ### Fields of an offset as arithmetic -/

theorem wordOffset_ofNat {n : Nat} (h : n < 65536) (h4 : n % 4 = 0) : wordOffset (BitVec.ofNat 16 n) = n := by
  simp only [wordOffset, BitVec.toNat_ofNat]
  omega

theorem symField_toNat (off : Offset) : (symField off).toNat = off.toNat / 4 % 256 := by
  simp [symField, BitVec.extractLsb'_toNat, Nat.shiftRight_eq_div_pow]

theorem wordField_toNat (off : Offset) : (wordField off).toNat = off.toNat / 4 % 8 := by
  simp [wordField, BitVec.extractLsb'_toNat, Nat.shiftRight_eq_div_pow]

theorem nodeField_toNat (off : Offset) : (nodeField off).toNat = off.toNat / 4 % 512 := by
  simp [nodeField, BitVec.extractLsb'_toNat, Nat.shiftRight_eq_div_pow]

theorem codeSymField_toNat (off : Offset) : (codeSymField off).toNat = off.toNat / 32 % 256 := by
  simp [codeSymField, BitVec.extractLsb'_toNat, Nat.shiftRight_eq_div_pow]

theorem symField_ofNat {base : Nat} (s : Byte) (hb : base % 1024 = 0) :
    symField (BitVec.ofNat 16 (base + 4 * s.toNat)) = s := by
  apply BitVec.eq_of_toNat_eq
  rw [symField_toNat, BitVec.toNat_ofNat]
  have := s.isLt
  omega

theorem wordField_ofNat {base : Nat} (k : BitVec 3) (hb : base % 32 = 0) :
    wordField (BitVec.ofNat 16 (base + 4 * k.toNat)) = k := by
  apply BitVec.eq_of_toNat_eq
  rw [wordField_toNat, BitVec.toNat_ofNat]
  have := k.isLt
  omega

theorem nodeField_ofNat {base : Nat} (i : NodeIdx) (hb : base % 2048 = 0) :
    nodeField (BitVec.ofNat 16 (base + 4 * i.toNat)) = i := by
  apply BitVec.eq_of_toNat_eq
  rw [nodeField_toNat, BitVec.toNat_ofNat]
  have := i.isLt
  omega

theorem codeSymField_ofNat (s : Byte) (k : BitVec 3) :
    codeSymField (codeWordOffset s k) = s := by
  apply BitVec.eq_of_toNat_eq
  rw [codeSymField_toNat, codeWordOffset, BitVec.toNat_ofNat]
  have := s.isLt
  have := k.isLt
  omega

theorem wordField_codeWordOffset (s : Byte) (k : BitVec 3) : wordField (codeWordOffset s k) = k := by
  apply BitVec.eq_of_toNat_eq
  rw [wordField_toNat, codeWordOffset, BitVec.toNat_ofNat]
  have := s.isLt
  have := k.isLt
  omega

/-! ### What the decoder finds in each window -/

theorem decodeRead_present {off : Offset} (h : 0x060 ≤ wordOffset off ∧ wordOffset off ≤ 0x07C) :
    decodeRead off = .ok (.rdPresent (wordField off)) := by
  unfold decodeRead
  simp only [h, and_self, if_true]
  repeat rw [if_neg (by omega)]

theorem decodeRead_freq {off : Offset} (h : 0x400 ≤ wordOffset off ∧ wordOffset off ≤ 0x7FC) :
    decodeRead off = .ok (.rdFreq (symField off)) := by
  unfold decodeRead
  simp only [h, and_self, if_true]
  repeat rw [if_neg (by omega)]

theorem decodeRead_codeLen {off : Offset} (h : 0x800 ≤ wordOffset off ∧ wordOffset off ≤ 0xBFC) :
    decodeRead off = .ok (.rdCodeLen (symField off)) := by
  unfold decodeRead
  simp only [h, and_self, if_true]
  repeat rw [if_neg (by omega)]

theorem decodeRead_codeWord {off : Offset} (h : 0x2000 ≤ wordOffset off ∧ wordOffset off ≤ 0x3FFC) :
    decodeRead off = .ok (.rdCodeWord (codeSymField off) (wordField off)) := by
  unfold decodeRead
  simp only [h, and_self, if_true]
  repeat rw [if_neg (by omega)]

theorem decodeRead_nodeInfo {off : Offset} (h : 0x4000 ≤ wordOffset off ∧ wordOffset off ≤ 0x47FC) :
    decodeRead off = nodeRead off .rdNodeInfo := by
  unfold decodeRead
  simp only [h, and_self, if_true]
  repeat rw [if_neg (by omega)]

theorem decodeRead_nodeWlo {off : Offset} (h : 0x4800 ≤ wordOffset off ∧ wordOffset off ≤ 0x4FFC) :
    decodeRead off = nodeRead off .rdNodeWlo := by
  unfold decodeRead
  simp only [h, and_self, if_true]
  repeat rw [if_neg (by omega)]

theorem decodeRead_nodeWhi {off : Offset} (h : 0x5000 ≤ wordOffset off ∧ wordOffset off ≤ 0x57FC) :
    decodeRead off = nodeRead off .rdNodeWhi := by
  unfold decodeRead
  simp only [h, and_self, if_true]
  repeat rw [if_neg (by omega)]

theorem decodeWrite_freq {off : Offset} (d : Word) (h : 0x400 ≤ wordOffset off ∧ wordOffset off ≤ 0x7FC) :
    decodeWrite off d = .ok (.wrFreq (symField off) d) := by
  unfold decodeWrite
  simp only [h, and_self, if_true]
  repeat rw [if_neg (by omega)]

theorem nodeRead_ok {off : Offset} {mk : NodeIdx → Instr} (h : NodeIdx.inArena (nodeField off) = true) :
    nodeRead off mk = .ok (mk (nodeField off)) := by simp [nodeRead, h]

theorem wordOffset_window {base n : Nat} (hb : base % 4 = 0) (h : base + 4 * n < 65536) :
    wordOffset (BitVec.ofNat 16 (base + 4 * n)) = base + 4 * n :=
  wordOffset_ofNat h (by omega)

/-! ### Keys -/

theorem wordOffset_lt (off : Offset) : wordOffset off < 65536 := by
  have := off.isLt; simp only [wordOffset]; omega

theorem key_read (off : Offset) : (Access.read off).key.toNat = wordOffset off := by
  have := off.isLt
  simp only [Access.key, wordOffset, BitVec.toNat_append, BitVec.extractLsb'_toNat, Nat.shiftRight_eq_div_pow,
    BitVec.toNat_ofNat, Nat.shiftLeft_eq]
  simp
  omega

theorem key_write (off : Offset) (d : Word) : (Access.write off d).key.toNat = 65536 + wordOffset off := by
  have := off.isLt
  have h : (1#1 ++ off.extractLsb' 2 14 ++ 0#2 : BitVec 17).toNat = 65536 + wordOffset off := by
    rw [BitVec.toNat_append, BitVec.toNat_append, BitVec.extractLsb'_toNat,
      ← Nat.shiftLeft_add_eq_or_of_lt (by simp), ← Nat.shiftLeft_add_eq_or_of_lt (by omega)]
    simp [wordOffset, Nat.shiftRight_eq_div_pow, Nat.shiftLeft_eq]
    omega
  exact h

/-- Two accesses of one key have one direction and one word offset. -/
theorem key_eq_cases {a b : Access} (h : b.key = a.key) :
    (∃ o o', a = .read o ∧ b = .read o' ∧ wordOffset o' = wordOffset o) ∨
    (∃ o o' d d', a = .write o d ∧ b = .write o' d' ∧ wordOffset o' = wordOffset o) := by
  have h := congrArg BitVec.toNat h
  cases a with
  | read o =>
    cases b with
    | read o' => rw [key_read, key_read] at h; exact .inl ⟨_, _, rfl, rfl, h⟩
    | write o' d' => rw [key_read, key_write] at h; have := wordOffset_lt o; omega
  | write o d =>
    cases b with
    | read o' => rw [key_read, key_write] at h; have := wordOffset_lt o'; omega
    | write o' d' => rw [key_write, key_write] at h; exact .inr ⟨_, _, _, _, rfl, rfl, by omega⟩

/-! ### Accesses to one word offset decode alike -/

/-- The decoder's answer without its reason to refuse. -/
def found (r : Except Reject Instr) : Option Instr :=
  match r with
  | .ok i => some i
  | .error _ => none

theorem found_some {r : Except Reject Instr} {i : Instr} : found r = some i ↔ r = .ok i := by
  cases r <;> simp [found]

@[simp] theorem found_ok (i : Instr) : found (.ok i) = some i := rfl
@[simp] theorem found_error (r : Reject) : found (.error r) = none := rfl

theorem found_ite (p : Prop) [Decidable p] (a b : Except Reject Instr) :
    found (if p then a else b) = if p then found a else found b := by split <;> rfl

theorem fields_congr {off off' : Offset} (h : wordOffset off = wordOffset off') :
    symField off = symField off' ∧ wordField off = wordField off' ∧ nodeField off = nodeField off' ∧
      codeSymField off = codeSymField off' := by
  have h4 : off.toNat / 4 = off'.toNat / 4 := by simp only [wordOffset] at h; omega
  refine ⟨BitVec.eq_of_toNat_eq ?_, BitVec.eq_of_toNat_eq ?_, BitVec.eq_of_toNat_eq ?_, BitVec.eq_of_toNat_eq ?_⟩
  · rw [symField_toNat, symField_toNat, h4]
  · rw [wordField_toNat, wordField_toNat, h4]
  · rw [nodeField_toNat, nodeField_toNat, h4]
  · rw [codeSymField_toNat, codeSymField_toNat]; omega

theorem decodeRead_congr {off off' : Offset} (h : wordOffset off = wordOffset off') :
    found (decodeRead off) = found (decodeRead off') := by
  obtain ⟨e1, e2, e3, e4⟩ := fields_congr h
  unfold decodeRead nodeRead
  simp only [h, e1, e2, e3, e4, found_ite, found_ok, found_error]

theorem decodeWrite_congr {off off' : Offset} (d : Word) (h : wordOffset off = wordOffset off') :
    found (decodeWrite off d) = found (decodeWrite off' d) := by
  obtain ⟨e1, -, -, -⟩ := fields_congr h
  unfold decodeWrite
  simp only [h, e1, found_ite, found_ok, found_error]

/-! ### What the decoder reads, encoded again -/

theorem encode_nodeRead {off off' : Offset} {mk : NodeIdx → Instr} {i : Instr} {w : Nat}
    (h : nodeRead off mk = .ok i) (hw : ∀ n, (mk n).wellFormed = NodeIdx.inArena n)
    (he : ∀ n, encode (mk n) = .bus (.read (nodeOffset w n))) (ho : off' = nodeOffset w (nodeField off)) :
    i.wellFormed = true ∧ encode i = .bus (.read off') := by
  unfold nodeRead at h
  split at h
  · cases h; exact ⟨(hw _).trans ‹_›, by rw [he, ho]⟩
  · cases h

theorem wordOffset_nodeOffset {off : Offset} {w : Nat} (h : w ≤ wordOffset off ∧ wordOffset off < w + 2048)
    (hw : w % 2048 = 0) (hlt : w + 2048 ≤ 65536) : wordOffset (nodeOffset w (nodeField off)) = wordOffset off := by
  have := nodeField_toNat off
  have := (nodeField off).isLt
  rw [nodeOffset, wordOffset_window (by omega) (by omega)]
  simp only [wordOffset] at h ⊢
  omega

theorem ite_ok {p : Prop} [Decidable p] {i j : Instr} {r : Except Reject Instr}
    (h : (if p then .ok i else r) = .ok j) : (p ∧ i = j) ∨ (¬ p ∧ r = .ok j) := by
  split at h
  · cases h; exact .inl ⟨‹_›, rfl⟩
  · exact .inr ⟨‹_›, h⟩

theorem encode_decodeRead {off : Offset} {i : Instr} (h : decodeRead off = .ok i) :
    i.wellFormed = true ∧ ∃ off', encode i = .bus (.read off') ∧ wordOffset off' = wordOffset off := by
  have hlt := wordOffset_lt off
  unfold decodeRead at h
  dsimp only at h
  iterate 16
    obtain ⟨hw, rfl⟩ | ⟨-, h⟩ := ite_ok h
    · exact ⟨rfl, _, rfl, hw.symm⟩
  obtain ⟨hw, rfl⟩ | ⟨-, h⟩ := ite_ok h
  · refine ⟨rfl, _, rfl, ?_⟩
    have := wordField_toNat off
    rw [presentOffset, wordOffset_window (by decide) (by omega)]
    simp only [wordOffset] at hw ⊢; omega
  obtain ⟨hw, rfl⟩ | ⟨-, h⟩ := ite_ok h
  · refine ⟨rfl, _, rfl, ?_⟩
    have := symField_toNat off
    rw [freqOffset, wordOffset_window (by decide) (by omega)]
    simp only [wordOffset] at hw ⊢; omega
  obtain ⟨hw, rfl⟩ | ⟨-, h⟩ := ite_ok h
  · refine ⟨rfl, _, rfl, ?_⟩
    have := symField_toNat off
    rw [codeLenOffset, wordOffset_window (by decide) (by omega)]
    simp only [wordOffset] at hw ⊢; omega
  obtain ⟨hw, rfl⟩ | ⟨-, h⟩ := ite_ok h
  · refine ⟨rfl, _, rfl, ?_⟩
    have := codeSymField_toNat off
    have := wordField_toNat off
    rw [codeWordOffset, wordOffset_ofNat (by omega) (by omega)]
    simp only [wordOffset] at hw ⊢; omega
  split at h
  · obtain ⟨g1, g2⟩ := encode_nodeRead h (fun _ => rfl) (fun _ => rfl) rfl
    exact ⟨g1, _, g2, wordOffset_nodeOffset (by omega) (by decide) (by decide)⟩
  split at h
  · obtain ⟨g1, g2⟩ := encode_nodeRead h (fun _ => rfl) (fun _ => rfl) rfl
    exact ⟨g1, _, g2, wordOffset_nodeOffset (by omega) (by decide) (by decide)⟩
  split at h
  · obtain ⟨g1, g2⟩ := encode_nodeRead h (fun _ => rfl) (fun _ => rfl) rfl
    exact ⟨g1, _, g2, wordOffset_nodeOffset (by omega) (by decide) (by decide)⟩
  split at h <;> cases h

theorem encode_decodeWrite {off : Offset} {d : Word} {i : Instr} (h : decodeWrite off d = .ok i) :
    i.wellFormed = true ∧ ∃ off', encode i = .bus (.write off' d) ∧ wordOffset off' = wordOffset off := by
  have hlt := wordOffset_lt off
  unfold decodeWrite at h
  dsimp only at h
  iterate 6
    obtain ⟨hw, rfl⟩ | ⟨-, h⟩ := ite_ok h
    · exact ⟨rfl, _, rfl, hw.symm⟩
  obtain ⟨hw, rfl⟩ | ⟨-, h⟩ := ite_ok h
  · refine ⟨rfl, _, rfl, ?_⟩
    have := symField_toNat off
    rw [freqOffset, wordOffset_window (by decide) (by omega)]
    simp only [wordOffset] at hw ⊢; omega
  · cases h

/-- Which offsets can be written does not depend on the data. -/
theorem decodeWrite_isSome (off : Offset) (d d' : Word) :
    (found (decodeWrite off d)).isSome = (found (decodeWrite off d')).isSome := by
  unfold decodeWrite
  simp only [found_ite, found_ok, found_error]
  repeat' split
  all_goals rfl

/-! ### Offsets of a bus address -/

/-- With HUF_BASE a multiple of 0x10000 the offset is `addr[15:0]` (20_memory.md R61). -/
theorem offsetOf_toNat {n : Nat} (base addr : BitVec n) (hn : 16 ≤ n) (hb : base.toNat % 0x10000 = 0) :
    (offsetOf base addr).toNat = addr.toNat % 65536 := by
  simp only [offsetOf, BitVec.toNat_setWidth, BitVec.toNat_sub]
  have := base.isLt
  have := addr.isLt
  obtain ⟨k, rfl⟩ : ∃ k, n = 16 + k := ⟨n - 16, by omega⟩
  have hp : 2 ^ (16 + k) = 65536 * 2 ^ k := by rw [Nat.pow_add]
  rw [hp] at *
  rw [show (2 : Nat) ^ 16 = 65536 from rfl, Nat.mod_mul_right_mod]
  omega

end Sys2Proof
end

