-- ==== Sys2Proof/Laws/Exec.lean ====
section
/-! SUPPORT. One inversion lemma per meaning: everything the operation can do when it answers a next state. -/

namespace Sys2Proof.Machine

/-- The operation had none of its effect: it was ignored while ERR is not 0 (R235), or it raised an error
(R233, R234). -/
inductive TurnedAway (s : State) : State → Prop where
  | ignored (h : s.err ≠ .noError) : TurnedAway s s
  | raised (h : s.err = .noError) (e : ErrCode) (i : Word) (he : e ≠ .noError) : TurnedAway s (errorEntry e i s)

/-- A field the error entry keeps is kept when the operation is turned away. -/
theorem TurnedAway.keeps {α : Type} {s t : State} (h : TurnedAway s t) (f : State → α)
    (hf : ∀ e i, f (errorEntry e i s) = f s) : f t = f s := by
  cases h
  · rfl
  · exact hf _ _

/-- A gated body: ignored, or the body. -/
theorem turnedAway_gated {s t : State} {b : Result} (h : gated s b = .next t) :
    TurnedAway s t ∨ (s.err = .noError ∧ b = .next t) := by
  obtain ⟨he, rfl⟩ | h := gated_next h
  · exact .inl (.ignored he)
  · exact .inr h

/-- A raised error turns the operation away. -/
theorem turnedAway_raise {s t : State} {e : ErrCode} {i : Word} (he : e ≠ .noError) (hs : s.err = .noError)
    (h : raiseError e i s = .next t) : TurnedAway s t := by
  cases h; exact .raised hs e i he

/-- A gated body behind a mode check: turned away, or the body in that mode. -/
theorem turnedAway_mode {m : Mode} {i : Word} {s t : State} {b : Result}
    (h : (gated s <| requireMode m i s b) = .next t) :
    TurnedAway s t ∨ (s.err = .noError ∧ s.mode = m ∧ b = .next t) := by
  obtain h | ⟨he, h⟩ := turnedAway_gated h
  · exact .inl h
  · obtain ⟨_, rfl⟩ | ⟨hm, h⟩ := requireMode_next h
    · exact .inl (.raised he _ _ (by decide))
    · exact .inr ⟨he, hm, h⟩

/-! ### Frequency table, tree builder, code generator -/

theorem execWrFreq_next {x : Byte} {v : Word} {s t : State} (h : execWrFreq x v s = .next t) :
    TurnedAway s t ∨ (s.err = .noError ∧ s.mode = .idle ∧
      t = { loadFreq x v s with treeValid := false, codesValid := false }) := by
  obtain h | ⟨he, hm, h⟩ := turnedAway_mode h
  · exact .inl h
  · cases h; exact .inr ⟨he, hm, rfl⟩

theorem execBuildTree_next {s t : State} (h : execBuildTree s = .next t) :
    TurnedAway s t ∨ (s.err = .noError ∧ s.mode = .idle ∧ firstBadFreq s = none ∧ t = buildTree s) := by
  obtain h | ⟨he, hm, h⟩ := turnedAway_mode h
  · exact .inl h
  · split at h
    · exact .inl (turnedAway_raise (by decide) he h)
    · cases h; exact .inr ⟨he, hm, ‹_›, rfl⟩

theorem execGenCodes_next {s t : State} (h : execGenCodes s = .next t) :
    TurnedAway s t ∨ (s.err = .noError ∧ s.mode = .idle ∧ s.treeValid = true ∧ ∃ c : CodeTable,
      deriveCodes s = .ok c ∧ t = { s with codeLen := c.len, codeWord := c.word, codesValid := true }) := by
  obtain h | ⟨he, hm, h⟩ := turnedAway_mode h
  · exact .inl h
  · split at h
    · exact .inl (turnedAway_raise (by decide) he h)
    · rename_i hv
      split at h
      · cases h
      · cases h; exact .inr ⟨he, hm, by simpa using hv, _, ‹_›, rfl⟩

/-! ### Encoder -/

theorem execEncStart_next {s t : State} (h : execEncStart s = .next t) :
    TurnedAway s t ∨ (s.err = .noError ∧ s.mode = .idle ∧ s.codesValid = true ∧
      t = { s with out := [], acc := 0#8, accN := 0#3, encBits := 0#64, done := false, mode := .enc }) := by
  obtain h | ⟨he, hm, h⟩ := turnedAway_mode h
  · exact .inl h
  · split at h
    · exact .inl (turnedAway_raise (by decide) he h)
    · rename_i hv
      cases h; exact .inr ⟨he, hm, by simpa using hv, rfl⟩

theorem execWrEncData_next {d : Word} {s t : State} (h : execWrEncData d s = .next t) :
    TurnedAway s t ∨ (s.err = .noError ∧ s.mode = .enc ∧ Config.encRoom ≤ freeRoom s ∧
      atSym s.codeLen (dataByte d) ≠ 0#8 ∧
      t = { packBits s (codeBits s (dataByte d)) with
        encBits := s.encBits + (atSym s.codeLen (dataByte d)).setWidth 64 }) := by
  obtain h | ⟨he, hm, h⟩ := turnedAway_mode h
  · exact .inl h
  · split at h
    · exact .inl (turnedAway_raise (by decide) he h)
    · split at h
      · exact .inl (turnedAway_raise (by decide) he h)
      · cases h; exact .inr ⟨he, hm, by omega, ‹_›, rfl⟩

theorem execEncFinish_next {s t : State} (h : execEncFinish s = .next t) :
    TurnedAway s t ∨ (s.err = .noError ∧ s.mode = .enc ∧ ¬ (0 < s.accN.toNat ∧ freeRoom s = 0) ∧
      t = { (if 0 < s.accN.toNat then pushOut (finalByte s) s else s) with
        pad := paddingOf s.encBits, acc := 0#8, accN := 0#3, mode := .idle, done := true }) := by
  obtain h | ⟨he, hm, h⟩ := turnedAway_mode h
  · exact .inl h
  · split at h
    · exact .inl (turnedAway_raise (by decide) he h)
    · cases h; exact .inr ⟨he, hm, ‹_›, rfl⟩

/-! ### Decoder -/

theorem execWrPad_next {d : Word} {s t : State} (h : execWrPad d s = .next t) :
    TurnedAway s t ∨ (s.err = .noError ∧ s.mode = .idle ∧ t = { s with pad := dataByte d }) := by
  obtain h | ⟨he, hm, h⟩ := turnedAway_mode h
  · exact .inl h
  · cases h; exact .inr ⟨he, hm, rfl⟩

theorem execWrDecLenLo_next {d : Word} {s t : State} (h : execWrDecLenLo d s = .next t) :
    TurnedAway s t ∨ (s.err = .noError ∧ s.mode = .idle ∧ t = { s with decLen := setLow s.decLen d }) := by
  obtain h | ⟨he, hm, h⟩ := turnedAway_mode h
  · exact .inl h
  · cases h; exact .inr ⟨he, hm, rfl⟩

theorem execWrDecLenHi_next {d : Word} {s t : State} (h : execWrDecLenHi d s = .next t) :
    TurnedAway s t ∨ (s.err = .noError ∧ s.mode = .idle ∧ t = { s with decLen := setHigh s.decLen d }) := by
  obtain h | ⟨he, hm, h⟩ := turnedAway_mode h
  · exact .inl h
  · cases h; exact .inr ⟨he, hm, rfl⟩

theorem execDecStart_next {s t : State} (h : execDecStart s = .next t) :
    TurnedAway s t ∨ (s.err = .noError ∧ s.mode = .idle ∧ s.treeValid = true ∧ s.pad.toNat ≤ 7 ∧
      ((s.decLen = 0#64 ∧ s.nleaf = 0#9 ∧ t = { s with out := [], done := true }) ∨
       (s.decLen ≠ 0#64 ∧ s.nleaf ≠ 0#9 ∧
        t = { s with out := [], done := false, remain := s.decLen, cur := s.root, mode := .dec }))) := by
  obtain h | ⟨he, hm, h⟩ := turnedAway_mode h
  · exact .inl h
  · split at h
    · exact .inl (turnedAway_raise (by decide) he h)
    rename_i hv
    split at h
    · exact .inl (turnedAway_raise (by decide) he h)
    split at h
    · exact .inl (turnedAway_raise (by decide) he h)
    split at h
    · exact .inl (turnedAway_raise (by decide) he h)
    rename_i hn
    split at h
    · exact .inl (turnedAway_raise (by decide) he h)
    rename_i hn'
    refine .inr ⟨he, hm, by simpa using hv, by omega, ?_⟩
    split at h <;> cases h
    · exact .inl ⟨‹_›, by simp_all, rfl⟩
    · exact .inr ⟨‹_›, by simp_all, rfl⟩

theorem execWrDecData_next {d : Word} {s t : State} (h : execWrDecData d s = .next t) :
    TurnedAway s t ∨ (s.err = .noError ∧ s.mode = .dec ∧ Config.decRoom ≤ freeRoom s ∧
      ∃ u, walkBits s (payloadBits s (dataByte d)) = .ok u ∧ t = countByte u) := by
  obtain h | ⟨he, hm, h⟩ := turnedAway_mode h
  · exact .inl h
  · split at h
    · exact .inl (turnedAway_raise (by decide) he h)
    · split at h
      · cases h
      · cases h; exact .inr ⟨he, hm, by omega, _, ‹_›, rfl⟩

/-- The three ends of a payload byte: the stream goes on, it is done at ROOT, or it is truncated. -/
theorem countByte_cases (u : State) :
    (u.remain ≠ 1#64 ∧ countByte u = { u with remain := u.remain - 1#64 }) ∨
    (u.remain = 1#64 ∧ u.cur = u.root ∧
      countByte u = { u with remain := 0#64, mode := .idle, done := true }) ∨
    (u.remain = 1#64 ∧ u.cur ≠ u.root ∧
      countByte u = errorEntry .truncated (u.cur.setWidth 32) u) := by
  unfold countByte
  by_cases h1 : u.remain = 1#64
  · simp only [h1]
    by_cases hc : u.cur = u.root
    · exact .inr (.inl ⟨trivial, hc, by simp [endOfPayload, hc]⟩)
    · exact .inr (.inr ⟨trivial, hc, by simp [endOfPayload, hc, errorEntry]⟩)
  · have : u.remain - 1#64 ≠ 0#64 := by bv_omega
    exact .inl ⟨h1, by simp [this]⟩

/-! ### Control and the command register -/

theorem execAbort_next {s t : State} (h : execAbort s = .next t) :
    t = s ∨ (s.err = .noError ∧ s.mode ≠ .idle ∧
      t = { s with mode := .idle, acc := 0#8, accN := 0#3, remain := 0#64, cur := s.root }) := by
  obtain ⟨_, rfl⟩ | ⟨he, h⟩ := gated_next h
  · exact .inl rfl
  · split at h <;> cases h
    · exact .inl rfl
    · exact .inr ⟨he, ‹_›, rfl⟩

theorem execRdOutData_eq (s : State) :
    (s.out = [] ∧ execRdOutData s = .next { s with reply := some 0#32 }) ∨
    ∃ b rest, s.out = b :: rest ∧
      execRdOutData s = .next { s with out := rest, reply := some (0x00000100#32 ||| b.setWidth 32) } := by
  obtain h | ⟨b, rest, h⟩ : s.out = [] ∨ ∃ b rest, s.out = b :: rest := by cases s.out <;> simp
  · exact .inl ⟨h, by simp [execRdOutData, popOut, h]⟩
  · exact .inr ⟨b, rest, h, by simp [execRdOutData, popOut, h]⟩

theorem runCmd_eq (c : Cmd) (s : State) : runCmd c s = exec c.toInstr s := by cases c <;> rfl

/-- A write to CMD runs its command, or turns an illegal word away. -/
theorem execWrCmd_cases (w : Word) (s : State) :
    (∃ c, decodeCmd w = .ok c ∧ exec (.wrCmd w) s = exec c.toInstr s) ∨
    ((∀ c, decodeCmd w ≠ .ok c) ∧ ∃ t, exec (.wrCmd w) s = .next t ∧ TurnedAway s t ∧
      exec (.wrCmd w) s = gated s (raiseError .illegal w s)) := by
  have he : exec (.wrCmd w) s = execWrCmd w s := rfl
  rw [he]
  unfold execWrCmd
  cases h : decodeCmd w with
  | ok c => exact .inl ⟨c, rfl, runCmd_eq c s⟩
  | error r =>
    refine .inr ⟨fun c => by simp, ?_⟩
    by_cases hs : s.err = .noError
    · exact ⟨_, by simp [gated, hs]; rfl, .raised hs _ w (by decide), rfl⟩
    · exact ⟨s, by simp [gated, hs], .ignored hs, rfl⟩

theorem execWrCmd_next {w : Word} {s t : State} (h : exec (.wrCmd w) s = .next t) :
    TurnedAway s t ∨ ∃ c, decodeCmd w = .ok c ∧ exec c.toInstr s = .next t := by
  obtain ⟨c, hc, he⟩ | ⟨_, u, hu, ht, _⟩ := execWrCmd_cases w s
  · exact .inr ⟨c, hc, he ▸ h⟩
  · rw [hu] at h; cases h; exact .inl ht

/-- A relation between the states before and after every operation follows from the operations other than
WR_CMD, whose commands are among them, and from turned-away operations. -/
theorem exec_next_of {P : State → State → Prop} (ht : ∀ s t, TurnedAway s t → P s t)
    (hi : ∀ i s t, (∀ w, i ≠ .wrCmd w) → exec i s = .next t → P s t) {i : Instr} {s t : State}
    (h : exec i s = .next t) : P s t := by
  by_cases hw : ∃ w, i = .wrCmd w
  · obtain ⟨w, rfl⟩ := hw
    obtain h | ⟨c, _, h⟩ := execWrCmd_next h
    · exact ht _ _ h
    · exact hi _ _ _ (by cases c <;> simp [Cmd.toInstr]) h
  · exact hi _ _ _ (fun w e => hw ⟨w, e⟩) h

/-- Every read but RD_OUT_DATA writes the reply and nothing else. -/
theorem read_next {i : Instr} (hr : isRead i = true) (hi : i ≠ .rdOutData) (s : State) :
    ∃ w, exec i s = .next { s with reply := some w } := by
  cases i <;> first
    | exact absurd rfl hi
    | exact ⟨_, rfl⟩
    | (simp [isRead] at hr)

/-- A read that pops nothing writes the reply and nothing else: any read but RD_OUT_DATA, or RD_OUT_DATA of an
empty OUT. -/
theorem still_read_next {i : Instr} {s t : State} (hr : isRead i = true) (hs : i = .rdOutData → s.out = [])
    (h : exec i s = .next t) : ∃ w, t = { s with reply := some w } := by
  by_cases hi : i = .rdOutData
  · subst hi
    change execRdOutData s = _ at h
    obtain ⟨-, e⟩ | ⟨b, rest, e, -⟩ := execRdOutData_eq s
    · rw [e] at h; cases h; exact ⟨_, rfl⟩
    · rw [hs rfl] at e; cases e
  · obtain ⟨w, e⟩ := read_next hr hi s
    rw [e] at h; cases h; exact ⟨w, rfl⟩

end Sys2Proof.Machine
end

