-- ==== Sys2Proof/Laws/Streams.lean ====
section
/-! SUPPORT. What the packer and the walk do to a stream: bits appended in order, symbols emitted leaf by
leaf (43_encoder_packer.md R166 to R169, 44_decoder_unpacker.md R187 to R190). -/

namespace Sys2Proof.Machine

/-! ### The packer -/

theorem accBits_length (s : State) : (accBits s).length = s.accN.toNat := by simp [accBits]

/-- pack_bit appends one bit to the stream (R167). -/
theorem streamBits_packBit (s : State) (b : Bool) : streamBits (packBit s b) = streamBits s ++ [b] := by
  have h8 : s.accN.toNat < 8 := s.accN.isLt
  have hbit : ∀ j, ((s.acc <<< 1) ||| BitVec.setWidth 8 (BitVec.ofBool b)).getLsbD j =
      if j = 0 then b else (decide (j < 8) && s.acc.getLsbD (j - 1)) := by
    intro j
    rw [BitVec.getLsbD_or, BitVec.getLsbD_shiftLeft, BitVec.getLsbD_setWidth]
    rcases Nat.eq_zero_or_pos j with rfl | hj
    · cases b <;> rfl
    · have : (BitVec.ofBool b).getLsbD j = false := BitVec.getLsbD_of_ge _ _ hj
      simp [this, show ¬ j < 1 by omega, show j ≠ 0 by omega]
  unfold packBit
  dsimp only
  generalize ((s.acc <<< 1) ||| BitVec.setWidth 8 (BitVec.ofBool b)) = v at hbit
  split
  · rename_i h7
    have h7 : s.accN.toNat = 7 := by omega
    simp only [streamBits, accBits, pushOut_out, List.flatMap_append, List.flatMap_cons, List.flatMap_nil,
      List.append_nil, List.append_assoc, h7]
    congr 1
    simp [byteBits, hbit, List.range_succ]
  · rename_i h7
    have hn : (s.accN + 1#3).toNat = s.accN.toNat + 1 := by
      rw [BitVec.toNat_add]
      have : (1#3).toNat = 1 := rfl
      omega
    simp only [streamBits, accBits, hn, List.append_assoc]
    congr 1
    rw [List.range_succ, List.map_append]
    congr 1
    · refine List.map_congr_left fun i hi => ?_
      rw [List.mem_range] at hi
      rw [hbit, if_neg (by omega)]
      rw [show s.accN.toNat + 1 - 1 - i - 1 = s.accN.toNat - 1 - i by omega]
      simp [show s.accN.toNat - i < 8 by omega]
    · simp [hbit]

theorem streamBits_packBits (s : State) (l : List Bool) : streamBits (packBits s l) = streamBits s ++ l := by
  induction l generalizing s with
  | nil => simp
  | cons b l ih => rw [packBits_cons, ih, streamBits_packBit, List.append_assoc]; rfl

/-- pack_bit pushes a byte exactly when it completes one (R167). -/
theorem packBit_counts (s : State) (b : Bool) :
    8 * (packBit s b).out.length + (packBit s b).accN.toNat = 8 * s.out.length + s.accN.toNat + 1 := by
  have h8 : s.accN.toNat < 8 := s.accN.isLt
  unfold packBit
  dsimp only
  split
  · rename_i h7
    simp only [pushOut_out, List.length_append, List.length_cons, List.length_nil]
    have : (0#3).toNat = 0 := rfl
    omega
  · have : (s.accN + 1#3).toNat = s.accN.toNat + 1 := by
      rw [BitVec.toNat_add]
      have : (1#3).toNat = 1 := rfl
      omega
    simp only [this]
    omega

theorem packBits_counts (s : State) (l : List Bool) :
    8 * (packBits s l).out.length + (packBits s l).accN.toNat = 8 * s.out.length + s.accN.toNat + l.length := by
  induction l generalizing s with
  | nil => simp
  | cons b l ih =>
    rw [packBits_cons, ih]
    have := packBit_counts s b
    simp only [List.length_cons]
    omega

/-- Bytes already pushed stay in front (R43). -/
theorem packBits_prefixed (s : State) (l : List Bool) : ∃ bytes, (packBits s l).out = s.out ++ bytes := by
  induction l generalizing s with
  | nil => exact ⟨[], by simp⟩
  | cons b l ih =>
    obtain ⟨bytes, h⟩ := ih (packBit s b)
    rw [packBits_cons, h]
    unfold packBit
    dsimp only
    split
    · exact ⟨_, List.append_assoc _ _ _⟩
    · exact ⟨bytes, rfl⟩

/-- ACC[7:ACC_N] stays 0 (R37). -/
theorem packBit_fits (s : State) (b : Bool) (h : s.acc.toNat < 2 ^ s.accN.toNat) :
    (packBit s b).acc.toNat < 2 ^ (packBit s b).accN.toNat := by
  have h8 : s.accN.toNat < 8 := s.accN.isLt
  unfold packBit
  dsimp only
  split
  · simp
  · have hn : (s.accN + 1#3).toNat = s.accN.toNat + 1 := by
      rw [BitVec.toNat_add]
      have : (1#3).toNat = 1 := rfl
      omega
    simp only [hn, BitVec.toNat_or, BitVec.toNat_shiftLeft]
    apply Nat.or_lt_two_pow
    · refine Nat.lt_of_le_of_lt (Nat.mod_le _ _) ?_
      rw [Nat.shiftLeft_eq, Nat.pow_succ]
      omega
    · have : (BitVec.setWidth 8 (BitVec.ofBool b)).toNat ≤ 1 := by cases b <;> decide
      have : 2 ≤ 2 ^ (s.accN.toNat + 1) := by
        rw [Nat.pow_succ]
        have := Nat.one_le_two_pow (n := s.accN.toNat)
        omega
      omega

theorem packBits_fits (s : State) (l : List Bool) (h : s.acc.toNat < 2 ^ s.accN.toNat) :
    (packBits s l).acc.toNat < 2 ^ (packBits s l).accN.toNat := by
  induction l generalizing s with
  | nil => exact h
  | cons b l ih => exact ih _ (packBit_fits s b h)

theorem codeBits_length (s : State) (x : Byte) : (codeBits s x).length = (atSym s.codeLen x).toNat := by
  simp [codeBits]

/-- The stored code of a leaf's symbol is its path. -/
theorem codeBits_eq {s : State} {x : Byte} {q : List Bool} (hl : (atSym s.codeLen x).toNat = q.length)
    (hb : ∀ k, codeBit (atSym s.codeWord x) k = q.getD k false) : codeBits s x = q := by
  apply List.ext_getElem
  · rw [codeBits_length, hl]
  · intro i h1 h2
    simp [codeBits, hb, h2]

/-! ### The final byte and the padding (R168, R169) -/

theorem paddingOf_toNat (c : Count) : (paddingOf c).toNat = (8 - c.toNat % 8) % 8 := by
  simp only [paddingOf, BitVec.toNat_ofNat]
  omega

/-- The final byte holds the partial byte's bits and zeros below (R73, R168). -/
theorem byteBits_finalByte (s : State) (h : 0 < s.accN.toNat) :
    byteBits (finalByte s) = accBits s ++ List.replicate (8 - s.accN.toNat) false := by
  have h8 : s.accN.toNat < 8 := s.accN.isLt
  apply List.ext_getElem
  · simp [byteBits, accBits]; omega
  · intro i h1 h2
    have hi : i < 8 := by simpa [byteBits] using h1
    simp only [byteBits, accBits, finalByte, List.getElem_map, List.getElem_range, BitVec.getLsbD_shiftLeft]
    by_cases hn : i < s.accN.toNat
    · rw [List.getElem_append_left (by simpa using hn)]
      simp only [List.getElem_map, List.getElem_range]
      rw [show 7 - i - (8 - s.accN.toNat) = s.accN.toNat - 1 - i by omega]
      simp [show 7 - i < 8 by omega, show ¬ 7 - i < 8 - s.accN.toNat by omega]
    · rw [List.getElem_append_right (by simpa using hn)]
      simp [show 7 - i < 8 - s.accN.toNat by omega]

/-! ### The walk (R190) -/

/-- All walk_bit can do: move to a child, or emit a leaf's symbol and return to ROOT. -/
theorem walkBit_cases {s t : State} {b : Bool} (h : walkBit s b = .ok t) :
    ∃ n m, nodeAt s.nodes s.cur = some n ∧ nodeAt s.nodes (if b then n.right else n.left) = some m ∧
      ((m.leaf = true ∧ t = { s with out := s.out ++ [m.sym], cur := s.root }) ∨
       (m.leaf = false ∧ t = { s with cur := if b then n.right else n.left })) := by
  unfold walkBit at h
  split at h
  · cases h
  · rename_i n hn
    split at h
    · cases h
    · rename_i m hm
      refine ⟨n, m, hn, hm, ?_⟩
      split at h <;> rename_i hl
      · cases h; exact .inl ⟨hl, rfl⟩
      · cases h; exact .inr ⟨by simpa using hl, rfl⟩

/-- From an internal node of a tree the walk goes on, at an internal node again. -/
theorem walkBit_ok {s : State} {n : Nat} (h : TreeShape s.nodes n) (hroot : s.root.toNat = 2 * n - 2)
    (h2 : 2 ≤ n) (hc : n ≤ s.cur.toNat) (hc' : s.cur.toNat < 2 * n - 1) (b : Bool) :
    ∃ t, walkBit s b = .ok t ∧ n ≤ t.cur.toNat ∧ t.cur.toNat < 2 * n - 1 := by
  obtain ⟨c, h1, hl, hlt⟩ := h.child hc' hc
  have hb := hlt b
  obtain ⟨m, hm, hml⟩ := h.node (show (if b then c.right else c.left).toNat < 2 * n - 1 by omega)
  unfold walkBit
  rw [h1]
  dsimp only
  rw [hm]
  dsimp only
  by_cases hleaf : (if b then c.right else c.left).toNat < n
  · rw [if_pos (by simp [hml, hleaf])]
    exact ⟨_, rfl, by dsimp only; omega, by dsimp only; omega⟩
  · rw [if_neg (by simp [hml, hleaf])]
    exact ⟨_, rfl, by dsimp only; omega, by dsimp only; omega⟩

theorem walkBits_ok {s : State} {n : Nat} (h : TreeShape s.nodes n) (hroot : s.root.toNat = 2 * n - 2)
    (h2 : 2 ≤ n) (hc : n ≤ s.cur.toNat) (hc' : s.cur.toNat < 2 * n - 1) (l : List Bool) :
    ∃ t, walkBits s l = .ok t ∧ n ≤ t.cur.toNat ∧ t.cur.toNat < 2 * n - 1 := by
  induction l generalizing s with
  | nil => exact ⟨s, rfl, hc, hc'⟩
  | cons b l ih =>
    obtain ⟨u, hu, k1, k2⟩ := walkBit_ok h hroot h2 hc hc' b
    have hf := walkBit_frame hu
    have e1 : u.nodes = s.nodes := by rw [hf]
    have e2 : u.root = s.root := by rw [hf]
    obtain ⟨t, ht, g⟩ := ih (s := u) (by rw [e1]; exact h) (by rw [e2]; exact hroot) k1 k2
    exact ⟨t, by simp only [walkBits, hu, ht], g⟩

/-- Each bit emits at most one symbol (R190). -/
theorem walkBits_emits {s t : State} {l : List Bool} (h : walkBits s l = .ok t) :
    ∃ syms, t.out = s.out ++ syms ∧ syms.length ≤ l.length := by
  induction l generalizing s with
  | nil => cases h; exact ⟨[], by simp⟩
  | cons b l ih =>
    unfold walkBits at h
    split at h
    · cases h
    · rename_i u hu
      obtain ⟨syms, e1, e2⟩ := ih h
      obtain ⟨n, m, -, -, ⟨-, rfl⟩ | ⟨-, rfl⟩⟩ := walkBit_cases hu
      · exact ⟨m.sym :: syms, by simpa using e1, by simp; omega⟩
      · exact ⟨syms, e1, by simp; omega⟩

/-- Walking a whole path to a leaf emits its symbol and returns to ROOT. -/
theorem walkBits_path {s : State} {x : Byte} (q : List Bool) (hq : q ≠ []) (h : LeafAt s.nodes s.cur q x) :
    walkBits s q = .ok { s with out := s.out ++ [x], cur := s.root } := by
  induction q generalizing s with
  | nil => exact absurd rfl hq
  | cons b q ih =>
    obtain ⟨j, m, h1, h2, h3, h4⟩ := h
    simp only [follow] at h1
    split at h1
    · cases h1
    · rename_i n hn
      split at h1
      · cases h1
      · cases q with
        | nil =>
          cases h1
          simp only [walkBits, walkBit, hn, h2, h3, if_true, pushOut, h4]
        | cons c q =>
          have hleaf : ∃ k, nodeAt s.nodes (if b then n.right else n.left) = some k ∧ k.leaf = false := by
            cases hk : nodeAt s.nodes (if b then n.right else n.left) with
            | none => simp [follow, hk] at h1
            | some k =>
              refine ⟨k, rfl, ?_⟩
              by_contra hne
              have := follow_leaf hk (by simpa using hne) h1
              simp at this
          obtain ⟨k, hk, hkl⟩ := hleaf
          have hw : walkBit s b = .ok { s with cur := if b then n.right else n.left } := by
            simp only [walkBit, hn, hk, hkl, Bool.false_eq_true, if_false]
          have := ih (s := { s with cur := if b then n.right else n.left }) (by simp)
            ⟨j, m, h1, h2, h3, h4⟩
          rw [walkBits, hw]
          exact this

/-- The walk depends on NODE, ROOT and CUR alone: from another state with the same three it emits the same
symbols and ends at the same node (R190). -/
theorem walkBits_transfer {s t u : State} (h1 : s.nodes = t.nodes) (h2 : s.root = t.root) (h3 : s.cur = t.cur)
    (l : List Bool) (h : walkBits s l = .ok u) :
    ∃ syms, u.out = s.out ++ syms ∧ walkBits t l = .ok { t with out := t.out ++ syms, cur := u.cur } := by
  induction l generalizing s t with
  | nil => cases h; exact ⟨[], by simp, by simp [walkBits, h3]⟩
  | cons b l ih =>
    unfold walkBits at h ⊢
    split at h
    · cases h
    · rename_i w hw
      obtain ⟨n, m, g1, g2, ⟨g3, rfl⟩ | ⟨g3, rfl⟩⟩ := walkBit_cases hw
      · have e : walkBit t b = .ok { t with out := t.out ++ [m.sym], cur := t.root } := by
          unfold walkBit
          rw [← h1, ← h3, g1]; dsimp only; rw [g2]; simp [g3, pushOut, h1]
        rw [e]
        obtain ⟨syms, k1, k2⟩ := ih (s := { s with out := s.out ++ [m.sym], cur := s.root })
          (t := { t with out := t.out ++ [m.sym], cur := t.root }) h1 h2 h2 h
        exact ⟨m.sym :: syms, by simpa using k1, by simpa using k2⟩
      · have e : walkBit t b = .ok { t with cur := if b then n.right else n.left } := by
          unfold walkBit
          rw [← h1, ← h3, g1]; dsimp only; rw [g2]; simp [g3]
        rw [e]
        exact ih (s := { s with cur := if b then n.right else n.left })
          (t := { t with cur := if b then n.right else n.left }) h1 h2 rfl h

theorem payloadBits_length (s : State) (b : Byte) : (payloadBits s b).length ≤ 8 := by
  simp only [payloadBits, List.length_take, byteBits, List.length_map, List.length_range]
  omega

end Sys2Proof.Machine
end

