-- ==== Sys2Proof/Laws/Invariants.lean ====
section
/-! SUPPORT. Facts the invariants are kept and witnessed with. -/

namespace Sys2Proof.Machine

/-- The tree invariants speak of the tree, of CUR in a decode stream, and of the table while TREE_VALID. -/
theorem TreeInv.congr {s t : State} (h : TreeInv s)
    (e : t.nleaf = s.nleaf ∧ t.root = s.root ∧ t.nodes = s.nodes)
    (hc : t.mode = .dec → s.nleaf.toNat ≤ t.cur.toNat ∧ t.cur.toNat < 2 * s.nleaf.toNat - 1)
    (hv : t.treeValid = true → s.treeValid = true ∧ t.freq = s.freq ∧ t.present = s.present) :
    TreeInv t := by
  obtain ⟨e1, e2, e3⟩ := e
  constructor
  · rw [e1]; exact h.count
  · rw [e1, e2]; exact h.root_eq
  · rw [e1, e3]; exact h.shape
  · rw [e1]; exact hc
  · intro ht
    obtain ⟨h1, h2, h3⟩ := hv ht
    rw [firstBadFreq_congr h3 h2, presentSymbols_congr h3, e1, e3, h2]
    exact h.current h1

/-- The reset arena has the shape of the empty tree. -/
theorem reset_shape : TreeShape State.reset.nodes 0 := 
  ⟨fun i hi => absurd hi (by simp), fun i hi => absurd hi (by simp), fun i hi => absurd hi (by simp),
      fun j hj => absurd hj (by simp), fun i hi => absurd hi (by simp), fun i hi _ => reset_nodes i hi⟩

/-- BUILD_TREE past its checks leaves the tree invariants, whatever the state before. -/
theorem buildTree_treeInv {s : State} (hm : s.mode = .idle) (hb : firstBadFreq s = none) :
    TreeInv (buildTree s) := by
  have hl := addFiller_legal hb
  have hn := presentSymbols_length_le (addFiller s)
  have hc := addFiller_count s
  have hnn : (BitVec.ofNat 9 (presentSymbols (addFiller s)).length).toNat =
      (presentSymbols (addFiller s)).length := by
    rw [BitVec.toNat_ofNat]; omega
  have hsh := treeArena_shape (freq := (addFiller s).freq) hn (presentSymbols_ascending _)
    fun x hx => firstBadFreq_none.1 hl x (mem_presentSymbols.1 hx)
  constructor
  · by_cases h : (presentSymbols (addFiller s)).length = 0
    · left; show BitVec.ofNat 9 _ = _; rw [h]
    · right; show 2 ≤ (BitVec.ofNat 9 _).toNat ∧ (BitVec.ofNat 9 _).toNat ≤ 256
      rw [hnn]; omega
  · show rootIndex _ = if BitVec.ofNat 9 _ = _ then _ else BitVec.ofNat 9 (2 * (BitVec.ofNat 9 _).toNat - 2)
    rw [hnn]
    unfold rootIndex
    by_cases h : (presentSymbols (addFiller s)).length = 0
    · rw [h]; rfl
    · rw [if_neg h, if_neg]
      intro h'
      have := congrArg BitVec.toNat h'
      rw [hnn] at this
      exact h this
  · show TreeShape (treeArena _ _) (BitVec.ofNat 9 _).toNat
    rw [hnn]; exact hsh
  · intro h
    exfalso
    change (addFiller s).mode = _ at h
    rw [addFiller_frame] at h
    exact absurd (hm.symm.trans h) (by decide)
  · intro _
    exact ⟨hl, hnn, rfl⟩

/-- A decode stream is open on a tree of at least two leaves. -/
theorem TreeInv.two_leaves {s : State} (h : TreeInv s) (hm : s.mode = .dec) : 2 ≤ s.nleaf.toNat := by
  have := h.cur_internal hm
  obtain h' | h' := h.count
  · rw [h'] at this; simp at this
  · exact h'.1

/-- Loading a frequency keeps the table invariant (R30). -/
theorem TableInv.load {s : State} (h : TableInv s) (x : Byte) (v : Word) : TableInv (loadFreq x v s) := by
  intro y hy
  rw [loadFreq_present, atSym_putSym] at hy
  rw [loadFreq_freq, atSym_putSym]
  split at hy
  · cases hy
  · rename_i hne
    rw [if_neg hne]
    exact h y hy

/-- So does the filler (R133). -/
theorem TableInv.filler {s : State} (h : TableInv s) : TableInv (addFiller s) := by
  unfold addFiller
  split
  · exact h.load _ _
  · exact h

/-- GEN_CODES reads NLEAF, ROOT and NODE alone (R150). -/
theorem deriveCodes_congr {s t : State} (h1 : t.nleaf = s.nleaf) (h2 : t.root = s.root) (h3 : t.nodes = s.nodes) :
    deriveCodes t = deriveCodes s := by
  unfold deriveCodes
  rw [h1, h2, h3]

/-- In a derived table every code bit at or above CODE_LEN is 0 (R36, R153). -/
theorem deriveCodes_beyond {s : State} {c : CodeTable} (h : TreeInv s) (hc : deriveCodes s = .ok c) (x : Byte)
    (i : Nat) (hi : (atSym c.len x).toNat ≤ i) : codeBit (atSym c.word x) i = false := by
  obtain h0 | h2 := h.count
  · rw [deriveCodes_empty h0] at hc; cases hc
    simp only [CodeTable.cleared, State.reset, atSym_replicate]
    exact codeBit_zero i
  · obtain ⟨t, ht, hs⟩ := deriveCodes_spec h h2.1
    rw [hc] at ht; cases ht
    by_cases hp : ∃ q, PathToLeaf s q x
    · obtain ⟨q, hq⟩ := hp
      obtain ⟨_, _, e1, e2⟩ := (hs x).1 q hq
      rw [e2, List.getD_eq_default _ _ (by omega)]
    · exact ((hs x).2 (fun q hq => hp ⟨q, hq⟩)).2 i

end Sys2Proof.Machine
end

