-- ==== Sys2Proof/Laws/PerInstr.lean ====
section
/-! SUPPORT. The round trip of each constructor: decoding its encoding gives it back. -/

namespace Sys2Proof.Laws.RoundTrip

/-- Decoding the encoding of a well-formed operation gives it back (30_encoding.md R100 to R105). -/
def Statement (i : Instr) : Prop := i.wellFormed = true → decode (encode i) = .ok i

theorem nop : Statement (.nop) := fun _ => rfl

theorem clear : Statement (.clear) := fun _ => rfl

theorem buildTree : Statement (.buildTree) := fun _ => rfl

theorem genCodes : Statement (.genCodes) := fun _ => rfl

theorem encStart : Statement (.encStart) := fun _ => rfl

theorem encFinish : Statement (.encFinish) := fun _ => rfl

theorem decStart : Statement (.decStart) := fun _ => rfl

theorem abort : Statement (.abort) := fun _ => rfl

theorem ackErr : Statement (.ackErr) := fun _ => rfl

theorem wrCmd (w : Word) : Statement (.wrCmd w) := fun _ => rfl

theorem wrFreq (s : Byte) (d : Word) : Statement (.wrFreq s d) := fun _ => by
  have := s.isLt
  have hw : wordOffset (freqOffset s) = 0x400 + 4 * s.toNat := wordOffset_window (by decide) (by omega)
  show decodeWrite (freqOffset s) d = _
  rw [decodeWrite_freq d (by omega), freqOffset, symField_ofNat s (by decide)]

theorem rdFreq (s : Byte) : Statement (.rdFreq s) := fun _ => by
  have := s.isLt
  have hw : wordOffset (freqOffset s) = 0x400 + 4 * s.toNat := wordOffset_window (by decide) (by omega)
  show decodeRead (freqOffset s) = _
  rw [decodeRead_freq (by omega), freqOffset, symField_ofNat s (by decide)]

theorem rdPresent (k : BitVec 3) : Statement (.rdPresent k) := fun _ => by
  have := k.isLt
  have hw : wordOffset (presentOffset k) = 0x060 + 4 * k.toNat := wordOffset_window (by decide) (by omega)
  show decodeRead (presentOffset k) = _
  rw [decodeRead_present (by omega), presentOffset, wordField_ofNat k (by decide)]

theorem rdNodeInfo (i : NodeIdx) : Statement (.rdNodeInfo i) := fun h => by
  have := i.isLt
  have hw : wordOffset (nodeOffset 0x4000 i) = 0x4000 + 4 * i.toNat := wordOffset_window (by decide) (by omega)
  have hf : nodeField (nodeOffset 0x4000 i) = i := nodeField_ofNat i (by decide)
  show decodeRead (nodeOffset 0x4000 i) = _
  rw [decodeRead_nodeInfo (by omega), nodeRead_ok (by rw [hf]; exact h), hf]

theorem rdNodeWlo (i : NodeIdx) : Statement (.rdNodeWlo i) := fun h => by
  have := i.isLt
  have hw : wordOffset (nodeOffset 0x4800 i) = 0x4800 + 4 * i.toNat := wordOffset_window (by decide) (by omega)
  have hf : nodeField (nodeOffset 0x4800 i) = i := nodeField_ofNat i (by decide)
  show decodeRead (nodeOffset 0x4800 i) = _
  rw [decodeRead_nodeWlo (by omega), nodeRead_ok (by rw [hf]; exact h), hf]

theorem rdNodeWhi (i : NodeIdx) : Statement (.rdNodeWhi i) := fun h => by
  have := i.isLt
  have hw : wordOffset (nodeOffset 0x5000 i) = 0x5000 + 4 * i.toNat := wordOffset_window (by decide) (by omega)
  have hf : nodeField (nodeOffset 0x5000 i) = i := nodeField_ofNat i (by decide)
  show decodeRead (nodeOffset 0x5000 i) = _
  rw [decodeRead_nodeWhi (by omega), nodeRead_ok (by rw [hf]; exact h), hf]

theorem rdNleaf : Statement (.rdNleaf) := fun _ => rfl

theorem rdRoot : Statement (.rdRoot) := fun _ => rfl

theorem rdCodeLen (s : Byte) : Statement (.rdCodeLen s) := fun _ => by
  have := s.isLt
  have hw : wordOffset (codeLenOffset s) = 0x800 + 4 * s.toNat := wordOffset_window (by decide) (by omega)
  show decodeRead (codeLenOffset s) = _
  rw [decodeRead_codeLen (by omega), codeLenOffset, symField_ofNat s (by decide)]

theorem rdCodeWord (s : Byte) (k : BitVec 3) : Statement (.rdCodeWord s k) := fun _ => by
  have := s.isLt
  have := k.isLt
  have hw : wordOffset (codeWordOffset s k) = 0x2000 + 32 * s.toNat + 4 * k.toNat :=
    wordOffset_ofNat (by omega) (by omega)
  show decodeRead (codeWordOffset s k) = _
  rw [decodeRead_codeWord (by omega), codeSymField_ofNat, wordField_codeWordOffset]

theorem wrEncData (d : Word) : Statement (.wrEncData d) := fun _ => rfl

theorem rdEncBitsLo : Statement (.rdEncBitsLo) := fun _ => rfl

theorem rdEncBitsHi : Statement (.rdEncBitsHi) := fun _ => rfl

theorem rdAcc : Statement (.rdAcc) := fun _ => rfl

theorem wrPad (d : Word) : Statement (.wrPad d) := fun _ => rfl

theorem rdPad : Statement (.rdPad) := fun _ => rfl

theorem wrDecLenLo (d : Word) : Statement (.wrDecLenLo d) := fun _ => rfl

theorem wrDecLenHi (d : Word) : Statement (.wrDecLenHi d) := fun _ => rfl

theorem rdDecLenLo : Statement (.rdDecLenLo) := fun _ => rfl

theorem rdDecLenHi : Statement (.rdDecLenHi) := fun _ => rfl

theorem wrDecData (d : Word) : Statement (.wrDecData d) := fun _ => rfl

theorem rdDecRemainLo : Statement (.rdDecRemainLo) := fun _ => rfl

theorem rdDecRemainHi : Statement (.rdDecRemainHi) := fun _ => rfl

theorem rdCur : Statement (.rdCur) := fun _ => rfl

theorem rdOutData : Statement (.rdOutData) := fun _ => rfl

theorem rdOutCount : Statement (.rdOutCount) := fun _ => rfl

theorem rdStatus : Statement (.rdStatus) := fun _ => rfl

theorem rdErrInfo : Statement (.rdErrInfo) := fun _ => rfl

theorem rdId : Statement (.rdId) := fun _ => rfl

end Sys2Proof.Laws.RoundTrip
end

