-- ==== Sys2Proof/Tests/Slice0.lean ====
section
/-! SUPPORT. The model's own tests: the checks of WellFormed, the decoding of words written out from the
spec's encodings, one-step tests from the spec's vectors (95_test_vectors.md), and for each statement that has
hypotheses a state that meets them. -/

namespace Sys2Proof.Tests

open Sys2Proof.Machine

set_option Elab.async false

/-! ### Helpers: small states -/

/-- The state after an operation that completes. -/
def after (i : Instr) (s : State) : State :=
  match exec i s with
  | .next t => t
  | .fault _ => s
  | .refused _ => s

/-- The word an operation returns. -/
def reads (i : Instr) (s : State) : Option Word := (after i s).reply

/-- The operation answers a next state. -/
def completes (i : Instr) (s : State) : Bool :=
  match exec i s with
  | .next _ => true
  | .fault _ => false
  | .refused _ => false

theorem exec_after {i : Instr} {s : State} (h : completes i s = true) : exec i s = .next (after i s) := by
  unfold completes at h
  unfold after
  split at h <;> simp_all

/-- The table of V-T2: 0x41 alone. -/
def oneS : State := loadFreq 0x41#8 1000#32 State.reset

/-- V-T2's tree, built. -/
def builtS : State := buildTree oneS

/-- The empty tree, built (V-T9). -/
def emptyS : State := buildTree State.reset

/-- The codes of V-T2's tree. -/
def codesC : CodeTable :=
  match deriveCodes builtS with
  | .ok c => c
  | .error _ => CodeTable.cleared

/-- A state with a code table stored in it. -/
def withCodes (s : State) (c : CodeTable) : State := { s with codeLen := c.len, codeWord := c.word, codesValid := true }

/-- A state with an encode stream opened in it. -/
def openEnc (s : State) : State :=
  { s with out := [], acc := 0#8, accN := 0#3, encBits := 0#64, done := false, mode := .enc }

/-- V-T2's tree with its codes. -/
def codedS : State := withCodes builtS codesC

/-- An encode stream opened on it. -/
def encS : State := openEnc codedS

/-- The empty tree with its empty code table (R154). -/
def emptyCodedS : State := withCodes emptyS CodeTable.cleared

/-- V-T2's tree with PAD = 7 and DEC_LEN = 1. -/
def paramS : State := { builtS with pad := 7#8, decLen := 1#64 }

/-- A decode stream opened on it, one payload byte to come. -/
def decS : State := { paramS with out := [], done := false, remain := 1#64, cur := paramS.root, mode := .dec }

/-- The same with two payload bytes to come. -/
def dec2S : State := { decS with decLen := 2#64, remain := 2#64 }

/-- An error recorded at reset. -/
def errS : State := errorEntry .padding 9#32 State.reset

/-- A table with two illegal frequencies (V-T8). -/
def badS : State := loadFreq 0x41#8 7#32 (loadFreq 0x05#8 0xFFFFFFFF#32 (loadFreq 0x10#8 0x80000000#32 State.reset))

/-- The ABRACADABRA table of 95_test_vectors.md. -/
def abraS : State :=
  loadFreq 0x52#8 2#32 (loadFreq 0x44#8 1#32 (loadFreq 0x43#8 1#32 (loadFreq 0x42#8 2#32
    (loadFreq 0x41#8 5#32 State.reset))))

/-! ### WellFormed: index 511 of a node window is reserved (R103) -/

theorem test_wf_nodeInfo : (Instr.rdNodeInfo 511#9).wellFormed = false ∧
    (Instr.rdNodeInfo 510#9).wellFormed = true := by decide

theorem test_wf_nodeWlo : (Instr.rdNodeWlo 511#9).wellFormed = false ∧
    (Instr.rdNodeWlo 510#9).wellFormed = true := by decide

theorem test_wf_nodeWhi : (Instr.rdNodeWhi 511#9).wellFormed = false ∧
    (Instr.rdNodeWhi 510#9).wellFormed = true := by decide

/-! ### Decoding: words written out from R102 and R103 -/

theorem test_decode_commands :
    decodeTableWord 32 0x00000000 = some .nop ∧ decodeTableWord 32 0x00000001 = some .clear ∧
    decodeTableWord 32 0x00000002 = some .buildTree ∧ decodeTableWord 32 0x00000003 = some .genCodes ∧
    decodeTableWord 32 0x00000004 = some .encStart ∧ decodeTableWord 32 0x00000005 = some .encFinish ∧
    decodeTableWord 32 0x00000006 = some .decStart ∧ decodeTableWord 32 0x00000007 = some .abort ∧
    decodeTableWord 32 0x00000008 = some .ackErr := by decide

theorem test_decode_illegal_commands :
    decodeTableWord 32 0x00000009 = none ∧ decodeTableWord 32 0x00000100 = none ∧
    decodeTableWord 32 0xFFFFFFFF = none := by decide

theorem test_decode_command_write :
    decodeTableWord 24 0x10004 = some (.wrCmd 0#32) ∧ decodeTableWord 24 0x0000000002010004 = some (.wrCmd 2#32) := by
  decide

theorem test_decode_table :
    decodeTableWord 24 0x10400 = some (.wrFreq 0#8 0#32) ∧
    decodeTableWord 24 0x10504 = some (.wrFreq 0x41#8 0#32) ∧
    decodeTableWord 24 0x107FC = some (.wrFreq 0xFF#8 0#32) ∧
    decodeTableWord 24 0x00504 = some (.rdFreq 0x41#8) ∧
    decodeTableWord 24 0x00060 = some (.rdPresent 0#3) ∧ decodeTableWord 24 0x0007C = some (.rdPresent 7#3) := by
  decide

theorem test_decode_tree :
    decodeTableWord 24 0x04020 = some (.rdNodeInfo 8#9) ∧ decodeTableWord 24 0x047F8 = some (.rdNodeInfo 510#9) ∧
    decodeTableWord 24 0x04804 = some (.rdNodeWlo 1#9) ∧ decodeTableWord 24 0x057F8 = some (.rdNodeWhi 510#9) ∧
    decodeTableWord 24 0x00014 = some .rdNleaf ∧ decodeTableWord 24 0x00018 = some .rdRoot ∧
    decodeTableWord 24 0x047FC = none ∧ decodeTableWord 24 0x04FFC = none ∧ decodeTableWord 24 0x057FC = none := by
  decide

theorem test_decode_codes :
    decodeTableWord 24 0x00904 = some (.rdCodeLen 0x41#8) ∧
    decodeTableWord 24 0x02860 = some (.rdCodeWord 0x43#8 0#3) ∧
    decodeTableWord 24 0x03FFC = some (.rdCodeWord 0xFF#8 7#3) := by decide

theorem test_decode_encoder :
    decodeTableWord 24 0x10040 = some (.wrEncData 0#32) ∧ decodeTableWord 24 0x00030 = some .rdEncBitsLo ∧
    decodeTableWord 24 0x00034 = some .rdEncBitsHi ∧ decodeTableWord 24 0x0003C = some .rdAcc := by decide

theorem test_decode_decoder :
    decodeTableWord 24 0x10010 = some (.wrPad 0#32) ∧ decodeTableWord 24 0x00010 = some .rdPad ∧
    decodeTableWord 24 0x10020 = some (.wrDecLenLo 0#32) ∧ decodeTableWord 24 0x10024 = some (.wrDecLenHi 0#32) ∧
    decodeTableWord 24 0x00020 = some .rdDecLenLo ∧ decodeTableWord 24 0x00024 = some .rdDecLenHi ∧
    decodeTableWord 24 0x10044 = some (.wrDecData 0#32) ∧ decodeTableWord 24 0x00028 = some .rdDecRemainLo ∧
    decodeTableWord 24 0x0002C = some .rdDecRemainHi ∧ decodeTableWord 24 0x0001C = some .rdCur := by decide

theorem test_decode_control :
    decodeTableWord 24 0x00048 = some .rdOutData ∧ decodeTableWord 24 0x00038 = some .rdOutCount ∧
    decodeTableWord 24 0x00008 = some .rdStatus ∧ decodeTableWord 24 0x0000C = some .rdErrInfo ∧
    decodeTableWord 24 0x00000 = some .rdId := by decide

/-- Reserved offsets, read-only and write-only registers match no row (R63, R103). -/
theorem test_decode_rejects :
    decodeTableWord 24 0x0004C = none ∧ decodeTableWord 24 0x00004 = none ∧ decodeTableWord 24 0x00040 = none ∧
    decodeTableWord 24 0x10000 = none ∧ decodeTableWord 24 0x10048 = none ∧ decodeTableWord 24 0x10800 = none ∧
    decodeTableWord 24 0x00C00 = none ∧ decodeTableWord 24 0x05800 = none ∧ decodeTableWord 24 0x20000 = none := by
  decide

/-! ### Frequency table -/

/-- V-F1. -/
theorem test_wrFreq : reads (.rdFreq 0x41#8) (after (.wrFreq 0x41#8 5#32) State.reset) = some 5#32 ∧
    reads (.rdPresent 2#3) (after (.wrFreq 0x41#8 5#32) State.reset) = some 0x00000002#32 := by decide +kernel

/-- V-F4: a write in an encode stream. -/
theorem test_wrFreq_in_stream : (after (.wrFreq 0x41#8 3#32) encS).errInfo = 0x00010504#32 ∧
    statusWord (after (.wrFreq 0x41#8 3#32) encS) = 0x0000020C#32 := by decide +kernel

/-- V-F2: the flags a write clears. -/
theorem test_wrFreq_flags : statusWord (after (.wrFreq 0x41#8 3#32) codedS) = 0#32 := by decide +kernel

/-- V-F1 of the ABRACADABRA table. -/
theorem test_rdPresent : reads (.rdPresent 2#3) abraS = some 0x0004001E#32 := by decide +kernel

/-! ### Tree builder -/

/-- V-T1: the shape of the nodes 5 to 8. -/
theorem test_buildTree : [5#9, 6#9, 7#9, 8#9].map (fun i => reads (.rdNodeInfo i) (after .buildTree abraS)) =
    [some 0x80080600#32, some 0x80040800#32, some 0x80140C00#32, some 0x80000E00#32] := by decide +kernel

/-- V-T8: the smallest bad symbol is reported. -/
theorem test_buildTree_bad : (after .buildTree badS).errInfo = 5#32 ∧
    statusWord (after .buildTree badS) = 0x00000400#32 := by decide +kernel

/-- V-T2: the filler. -/
theorem test_rdNodeInfo : reads (.rdNodeInfo 0#9) builtS = some 0xC0000000#32 ∧
    reads (.rdNodeInfo 1#9) builtS = some 0xC0000041#32 ∧
    reads (.rdNodeInfo 2#9) builtS = some 0x80000200#32 := by decide +kernel

/-- R133: the filler beside 0x00 is 0x01 (V-T3). -/
theorem test_filler : reads (.rdFreq 0x01#8) (after .buildTree (loadFreq 0x00#8 3#32 State.reset)) = some 1#32 := by
  decide +kernel

/-- V-T7: a weight above 32 bits. -/
theorem test_rdNodeW :
    let s := loadFreq 0x63#8 0x7FFFFFFF#32 (loadFreq 0x62#8 0x7FFFFFFF#32 (loadFreq 0x61#8 0x7FFFFFFF#32 State.reset))
    reads (.rdNodeWlo 4#9) (buildTree s) = some 0x7FFFFFFD#32 ∧
    reads (.rdNodeWhi 4#9) (buildTree s) = some 0x00000001#32 := by decide +kernel

/-- V-T1 and V-T9: NLEAF and ROOT. -/
theorem test_rdNleaf : reads .rdNleaf (buildTree abraS) = some 5#32 ∧ reads .rdNleaf emptyS = some 0#32 := by
  decide +kernel

theorem test_rdRoot : reads .rdRoot (buildTree abraS) = some 8#32 ∧ reads .rdRoot emptyS = some 0x1FF#32 := by
  decide +kernel

/-! ### Code generator -/

/-- V-C2: no tree. -/
theorem test_genCodes_no_tree : (after .genCodes State.reset).errInfo = 3#32 ∧
    (after .genCodes State.reset).err = .state := by decide +kernel

/-- V-C1: the codes of C and R. -/
theorem test_genCodes : let t := after .genCodes (buildTree abraS)
    reads (.rdCodeWord 0x43#8 0#3) t = some 0x80000000#32 ∧ reads (.rdCodeWord 0x52#8 0#3) t = some 0xE0000000#32 ∧
    reads (.rdCodeLen 0x41#8) t = some 1#32 ∧ reads (.rdCodeLen 0x43#8) t = some 3#32 := by decide +kernel

/-- V-E2: the codes of V-T2's tree are 0x00 = `0` and 0x41 = `1`. -/
theorem test_rdCode : reads (.rdCodeLen 0x00#8) codedS = some 1#32 ∧ reads (.rdCodeLen 0x41#8) codedS = some 1#32 ∧
    reads (.rdCodeWord 0x00#8 0#3) codedS = some 0#32 ∧
    reads (.rdCodeWord 0x41#8 0#3) codedS = some 0x80000000#32 := by decide +kernel

/-! ### Encoder -/

/-- R165's example, and no codes (V-E11). -/
theorem test_encStart : statusWord (after .encStart codedS) = 0x0000002D#32 ∧
    (after .encStart builtS).errInfo = 4#32 := by decide +kernel

/-- One bit of code 1 goes into ACC. -/
theorem test_wrEncData : reads .rdAcc (after (.wrEncData 0xABCDEF41#32) encS) = some 0x101#32 ∧
    reads .rdEncBitsLo (after (.wrEncData 0x41#32) encS) = some 1#32 := by decide +kernel

/-- The eighth bit pushes a byte (V-E2). -/
theorem test_wrEncData_push : (after (.wrEncData 0x41#32) { encS with acc := 0x7F#8, accN := 7#3 }).out = [0xFF#8] := by
  decide +kernel

/-- V-E3's last step: 111 becomes E0 with PAD 5. -/
theorem test_encFinish :
    let t := after .encFinish { encS with acc := 7#8, accN := 3#3, encBits := 3#64 }
    t.out = [0xE0#8] ∧ reads .rdPad t = some 5#32 ∧ statusWord t = 0x0000005C#32 := by decide +kernel

/-- V-E8. -/
theorem test_encFinish_idle : (after .encFinish codedS).errInfo = 5#32 := by decide +kernel

/-- The high half of ENC_BITS. -/
theorem test_rdEncBitsHi : reads .rdEncBitsHi { encS with encBits := 0x500000003#64 } = some 5#32 := by decide +kernel

/-! ### Decoder -/

/-- R185's example: bits [31:8] are discarded. -/
theorem test_wrPad : reads .rdPad (after (.wrPad 0x101#32) State.reset) = some 1#32 ∧
    (after (.wrPad 2#32) decS).errInfo = 0x00010010#32 := by decide +kernel

theorem test_wrDecLen : reads .rdDecLenHi (after (.wrDecLenHi 7#32) dec2S) = some 0#32 ∧
    (after (.wrDecLenHi 2#32) dec2S).errInfo = 0x00010024#32 ∧
    (after (.wrDecLenLo 9#32) { State.reset with decLen := 0x500000003#64 }).decLen = 0x500000009#64 ∧
    (after (.wrDecLenHi 9#32) { State.reset with decLen := 0x500000003#64 }).decLen = 0x900000003#64 := by
  decide +kernel

theorem test_rdDecLen : reads .rdDecLenLo { State.reset with decLen := 0x500000003#64 } = some 3#32 ∧
    reads .rdDecLenHi { State.reset with decLen := 0x500000003#64 } = some 5#32 := by decide +kernel

/-- V-D2 and V-D5b. -/
theorem test_decStart_padding : (after .decStart { builtS with pad := 8#8, decLen := 3#64 }).errInfo = 8#32 ∧
    (after .decStart { builtS with pad := 1#8 }).errInfo = 1#32 := by decide +kernel

/-- V-D5, V-D6 and V-D7. -/
theorem test_decStart : (after .decStart builtS).errInfo = 2#32 ∧
    statusWord (after .decStart { emptyS with decLen := 1#64 }) = 0x00000804#32 ∧
    statusWord (after .decStart emptyS) = 0x00000014#32 := by decide +kernel

/-- V-D13: with PAD 7 only bit 7 is walked. -/
theorem test_wrDecData : (after (.wrDecData 0x7F#32) decS).out = [0x00#8] ∧
    statusWord (after (.wrDecData 0x7F#32) decS) = 0x00000054#32 := by decide +kernel

/-- V-D4: the payload ends off the root. -/
theorem test_wrDecData_truncated :
    let s := { buildTree abraS with mode := .dec, remain := 1#64 }
    (after (.wrDecData 0xDD#32) s).errInfo = 7#32 ∧ (after (.wrDecData 0xDD#32) s).out = [0x42#8, 0x52#8, 0x41#8] ∧
    statusWord (after (.wrDecData 0xDD#32) s) = 0x00000744#32 ∧
    reads .rdCur (after (.wrDecData 0xDD#32) s) = some 8#32 := by decide +kernel

/-- V-D15: CUR inside a code. -/
theorem test_rdCur : reads .rdCur (after (.wrDecData 0x61#32) { buildTree abraS with mode := .dec, remain := 3#64 }) =
    some 7#32 := by decide +kernel

theorem test_rdDecRemain :
    reads .rdDecRemainLo (after (.wrDecData 0x6E#32) { buildTree abraS with mode := .dec, remain := 3#64 }) =
      some 2#32 ∧
    reads .rdDecRemainHi { State.reset with remain := 0x500000003#64 } = some 5#32 := by decide +kernel

/-! ### Control, output and status -/

theorem test_nop : exec .nop errS = .next errS := rfl

/-- V-K4. -/
theorem test_clear : statusWord (after .clear encS) = 0#32 ∧ reads .rdRoot (after .clear encS) = some 0x1FF#32 := by
  decide +kernel

/-- V-E10. -/
theorem test_abort : let s := { encS with acc := 1#8, accN := 1#3, encBits := 1#64 }
    statusWord (after .abort s) = 0x0000000C#32 ∧ reads .rdAcc (after .abort s) = some 0#32 ∧
    reads .rdEncBitsLo (after .abort s) = some 1#32 := by decide +kernel

theorem test_ackErr : statusWord errS = 0x00000600#32 ∧ statusWord (after .ackErr errS) = 0#32 ∧
    reads .rdErrInfo errS = some 9#32 ∧ reads .rdErrInfo (after .ackErr errS) = some 0#32 := by decide +kernel

/-- V-K2 and V-K3. -/
theorem test_wrCmd : statusWord (after (.wrCmd 9#32) State.reset) = 0x00000100#32 ∧
    (after (.wrCmd 0x100#32) State.reset).errInfo = 0x100#32 ∧
    statusWord (after (.wrCmd 2#32) (after (.wrCmd 9#32) State.reset)) = 0x00000100#32 := by decide +kernel

/-- V-K6. -/
theorem test_rdOutData : let s := { State.reset with out := [0x00#8, 0xFF#8] }
    reads .rdOutData s = some 0x00000100#32 ∧ reads .rdOutData (after .rdOutData s) = some 0x000001FF#32 ∧
    reads .rdOutData State.reset = some 0#32 := by decide +kernel

theorem test_rdOutCount : reads .rdOutCount { State.reset with out := [1#8, 2#8, 3#8] } = some 3#32 := by decide +kernel

/-- V-K1. -/
theorem test_rdId : reads .rdId State.reset = some 0x48554631#32 ∧ reads .rdStatus State.reset = some 0#32 := by
  decide +kernel

/-- V-E6 and V-D10: IN_READY at its bounds. -/
theorem test_rdStatus : statusWord { encS with out := List.replicate 32 0#8 } = 0x0000006D#32 ∧
    statusWord { encS with out := List.replicate 33 0#8 } = 0x0000004D#32 ∧
    statusWord { decS with out := List.replicate 56 0#8 } = 0x00000066#32 ∧
    statusWord { decS with out := List.replicate 64 0#8 } = 0x00000046#32 := by decide +kernel

/-! ### Steps -/

/-- The very next step performs the row's operation, as the first after reset. -/
theorem test_withFetchWord :
    step (State.reset.withFetchWord 24 0x10504) = exec (.wrFreq 0x41#8 0#32) State.reset ∧
    step (State.reset.withFetchWord 32 0x00000002) = exec .buildTree State.reset ∧
    step (State.reset.withFetchWord 24 0x00000) = exec .rdId State.reset := ⟨rfl, rfl, rfl⟩

/-- V-F6: the low address bits are ignored. -/
theorem test_low_bits : (performAccess (HostAccess.toAccess (n := 32) 0x40010000#32
    ⟨.write, 0x40010507#32, 0#4, 9#32⟩) State.reset) = exec (.wrFreq 0x41#8 9#32) State.reset := rfl

/-- An access outside the window does not reach HUFCORE (log 5). -/
theorem test_window : (issueHost (n := 32) 0x40010000#32 ⟨.read, 0x40020000#32, 0#4, 0#32⟩ State.reset).pending = [] ∧
    (issueHost (n := 32) 0x40010000#32 ⟨.read, 0x4001FFFF#32, 0#4, 0#32⟩ State.reset).pending =
      [.access (.read 0xFFFF#16)] := by decide

/-! ### States that meet the invariants -/

theorem derive_codes : deriveCodes builtS = .ok codesC := by
  obtain ⟨c, hc, -⟩ := deriveCodes_spec (buildTree_treeInv (s := oneS) rfl (by decide +kernel)) (by decide +kernel)
  unfold codesC
  rw [show buildTree oneS = builtS from rfl] at hc
  rw [hc]

theorem reset_inv : Inv State.reset := by
  refine ⟨fun x _ => by simp [State.reset], by constructor <;> decide +kernel, ?_,
    ⟨fun x i _ => by simpa [State.reset] using codeBit_zero i, fun h => absurd h (by decide)⟩⟩
  exact ⟨.inl rfl, rfl, reset_shape, fun h => absurd h (by decide), fun h => absurd h (by decide)⟩

theorem builtS_tree : TreeInv builtS := buildTree_treeInv rfl (by decide +kernel)

theorem builtS_inv : Inv builtS := by
  refine ⟨(reset_inv.table.load 0x41#8 1000#32).filler, by constructor <;> decide +kernel, builtS_tree,
    ⟨fun x i _ => ?_, fun h => absurd h (by decide +kernel)⟩⟩
  have : codeBit (atSym (addFiller oneS).codeWord x) i = false := by
    rw [addFiller_frame]
    simpa [oneS, State.reset] using codeBit_zero i
  exact this

theorem withCodes_codes {s : State} {c : CodeTable} (h : TreeInv s) (hc : deriveCodes s = .ok c) :
    CodeInv (withCodes s c) :=
  ⟨deriveCodes_beyond h hc, fun _ => (deriveCodes_congr rfl rfl rfl).trans hc⟩

theorem openEnc_codes {s : State} (h : CodeInv s) : CodeInv (openEnc s) :=
  ⟨h.beyond, fun hv => (deriveCodes_congr rfl rfl rfl).trans (h.current hv)⟩

theorem withCodes_tree {s : State} {c : CodeTable} (h : TreeInv s) : TreeInv (withCodes s c) :=
  h.congr ⟨rfl, rfl, rfl⟩ h.cur_internal fun hv => ⟨hv, rfl, rfl⟩

theorem openEnc_tree {s : State} (h : TreeInv s) : TreeInv (openEnc s) :=
  h.congr ⟨rfl, rfl, rfl⟩ (fun hm => absurd hm (by simp [openEnc])) fun hv => ⟨hv, rfl, rfl⟩

theorem codedS_inv : Inv codedS :=
  ⟨builtS_inv.table, by constructor <;> decide +kernel, withCodes_tree builtS_tree,
    withCodes_codes builtS_tree derive_codes⟩

theorem encS_inv : Inv encS :=
  ⟨builtS_inv.table, by constructor <;> decide +kernel, openEnc_tree codedS_inv.tree,
    openEnc_codes codedS_inv.codes⟩

theorem paramS_inv : Inv paramS :=
  ⟨builtS_inv.table, by constructor <;> decide +kernel,
    builtS_tree.congr ⟨rfl, rfl, rfl⟩ (fun h => absurd h (by decide +kernel)) fun h => ⟨h, rfl, rfl⟩,
    ⟨builtS_inv.codes.beyond, builtS_inv.codes.current⟩⟩

theorem decS_inv : Inv decS :=
  ⟨builtS_inv.table, by constructor <;> decide +kernel,
    builtS_tree.congr ⟨rfl, rfl, rfl⟩ (fun _ => by decide +kernel) fun h => ⟨h, rfl, rfl⟩,
    ⟨builtS_inv.codes.beyond, builtS_inv.codes.current⟩⟩

theorem emptyS_tree : TreeInv emptyS := buildTree_treeInv rfl (by decide +kernel)

theorem emptyS_inv : Inv emptyS := by
  refine ⟨reset_inv.table.filler, by constructor <;> decide +kernel, emptyS_tree,
    ⟨fun x i _ => ?_, fun h => absurd h (by decide +kernel)⟩⟩
  have : codeBit (atSym (addFiller State.reset).codeWord x) i = false := by
    rw [addFiller_frame]
    simpa [State.reset] using codeBit_zero i
  exact this

theorem emptyCodedS_inv : Inv emptyCodedS :=
  ⟨emptyS_inv.table, by constructor <;> decide +kernel, withCodes_tree emptyS_tree,
    withCodes_codes emptyS_tree (deriveCodes_empty (by decide +kernel))⟩

theorem dec2S_tree : TreeInv dec2S :=
  builtS_tree.congr ⟨rfl, rfl, rfl⟩ (fun _ => by decide +kernel) fun h => ⟨h, rfl, rfl⟩

/-- A legal table. -/
theorem oneS_legal : ∀ x, atSym oneS.present x = true → (atSym oneS.freq x).getLsbD 31 = false :=
  firstBadFreq_none.1 (by decide +kernel)

/-! ### For each statement with hypotheses, states and operands that meet them (every clause) -/

/-- The state of an operation that completes is its next state. -/
theorem after_next {i : Instr} {s t : State} (h : exec i s = .next t) : after i s = t := by simp [after, h]

theorem witness_Abort : errS.err ≠ .noError ∧ (State.reset.err = .noError ∧ State.reset.mode = .idle) ∧
    (encS.err = .noError ∧ encS.mode ≠ .idle) ∧ (decS.err = .noError ∧ decS.mode ≠ .idle) := by decide +kernel

/-- 8 is the last legal opcode, 9 the first illegal one, 0x100 has the lowest bit of RSV set. -/
theorem witness_IllegalCommandWords :
    let legal (w : Word) : Bool := decide (w.extractLsb' 8 24 = 0#24 ∧ (w.extractLsb' 0 8).toNat ≤ 8)
    legal 8#32 = true ∧ legal 9#32 = false ∧ legal 0x100#32 = false ∧ State.reset.err = .noError ∧
    errS.err ≠ .noError := by decide

theorem witness_StepRunsTheDecodedOperation :
    ({ State.reset with pending := [.access (.read 0x57F8#16)] } : State).pending = .access (.read 0x57F8#16) :: [] ∧
    decodeBus (.read 0x57F8#16) = .ok (.rdNodeWhi 510#9) ∧
    ({ State.reset with pending := [.access (.write 0x0004#16 8#32)] } : State).pending =
      .access (.write 0x0004#16 8#32) :: [] ∧ decodeCmd 8#32 = .ok .ackErr := ⟨rfl, rfl, rfl, rfl⟩

theorem witness_ReservedAccesses :
    decodeBus (.read 0x47FC#16) = .error (.reservedOffset 0x47FC#16) ∧
    decodeBus (.read 0x0004#16) = .error (.readOfWriteOnly 0x0004#16) ∧
    decodeBus (.write 0x0000#16 0x1234#32) = .error (.writeOfReadOnly 0x0000#16) ∧
    decodeBus (.write 0x5800#16 1#32) = .error (.reservedOffset 0x5800#16) := ⟨rfl, rfl, rfl, rfl⟩

theorem witness_DecodeInvertsEncode : (Instr.rdNodeInfo 0#9).wellFormed = true ∧
    (Instr.rdNodeInfo 510#9).wellFormed = true := by decide

theorem witness_EncodeInvertsDecode : decodeBus (.read 0x47FB#16) = .ok (.rdNodeInfo 510#9) ∧
    decodeBus (.write 0x07FF#16 3#32) = .ok (.wrFreq 0xFF#8 3#32) := ⟨rfl, rfl⟩

theorem witness_LowAddressBits : (16 ≤ 32 ∧ (0x40010000#32).toNat % 0x10000 = 0) ∧
    (0x40010504#32).toNat / 4 = (0x40010507#32).toNat / 4 := by decide

theorem witness_StepTakesTheOldestEvent :
    step { State.reset with pending := [.access (.read 0x0000#16), .reset] } =
      .next { State.reset with pending := [.reset], reply := some 0x48554631#32 } ∧
    ({ encS with pending := [.reset] } : State).pending = .reset :: [] ∧ State.reset.pending = [] :=
  ⟨rfl, rfl, rfl⟩

/-- An error with no other effect, and the truncation at the end of a payload (V-D4). -/
theorem witness_ErrorsArePrecise :
    (State.reset.err = .noError ∧ exec .decStart State.reset = .next (errorEntry .state 6#32 State.reset) ∧
      (errorEntry .state 6#32 State.reset).err ≠ .noError) ∧
    (let s := { buildTree abraS with mode := .dec, remain := 1#64 }
     s.err = .noError ∧ (after (.wrDecData 0xDD#32) s).err = .truncated) := by
  refine ⟨⟨rfl, rfl, by decide⟩, by decide +kernel⟩

theorem witness_Gating : errS.err ≠ .noError ∧ isRead .rdOutData = true ∧ isRead .rdStatus = true ∧
    (7#32 ≠ 0x00000000#32 ∧ 7#32 ≠ 0x00000001#32 ∧ 7#32 ≠ 0x00000008#32) := by decide

theorem witness_WrFreq : errS.err ≠ .noError ∧ (encS.err = .noError ∧ encS.mode ≠ .idle) ∧
    (State.reset.err = .noError ∧ State.reset.mode = .idle) := by decide +kernel

theorem witness_FreqAndPresentReads : (TableInv codedS ∧ atSym codedS.present 0x42#8 = false) ∧
    (0 < 32 ∧ 31 < 32) := ⟨⟨codedS_inv.table, by decide +kernel⟩, by decide⟩

theorem witness_CodeReads : CodeInv codedS ∧ (atSym codedS.codeLen 0x41#8).toNat ≤ 32 * (0#3).toNat + 1 ∧
    ¬ (atSym codedS.codeLen 0x41#8).toNat ≤ 32 * (0#3).toNat + 0 ∧ 0 < 32 ∧ 31 < 32 :=
  ⟨codedS_inv.codes, by decide +kernel⟩

theorem witness_FreqWriteOrder : State.reset.err = .noError ∧ State.reset.mode = .idle ∧ 0x00#8 ≠ 0xFF#8 := by decide

theorem witness_BuildTreeChecks : errS.err ≠ .noError ∧ (encS.err = .noError ∧ encS.mode ≠ .idle) ∧
    (badS.err = .noError ∧ badS.mode = .idle ∧ atSym badS.present 5#8 = true ∧
      (atSym badS.freq 5#8).getLsbD 31 = true ∧
      ∀ y : Byte, y.toNat < (5#8).toNat → atSym badS.present y = true → (atSym badS.freq y).getLsbD 31 = false) := by
  refine ⟨by decide, by decide +kernel, rfl, rfl, by decide +kernel, by decide +kernel, fun y hy hp => ?_⟩
  have hb : firstBadFreq badS = some 5#8 := by decide +kernel
  simpa using not_and.1 ((firstBadFreq_some.1 hb).2.2 y hy) hp

theorem witness_BuildTreeOfAnEmptyTable : State.reset.err = .noError ∧ State.reset.mode = .idle ∧
    ∀ x, atSym State.reset.present x = false := ⟨rfl, rfl, fun x => by simp [State.reset]⟩

/-- Both fillers: beside 0x41 and beside 0x00. -/
theorem witness_BuildTreeAddsTheFiller :
    (oneS.err = .noError ∧ oneS.mode = .idle ∧ (∀ x, atSym oneS.present x = true ↔ x = 0x41#8) ∧
      (atSym oneS.freq 0x41#8).getLsbD 31 = false) ∧
    (let s := loadFreq 0x00#8 3#32 State.reset
     s.err = .noError ∧ s.mode = .idle ∧ (∀ x, atSym s.present x = true ↔ x = 0x00#8) ∧
      (atSym s.freq 0x00#8).getLsbD 31 = false) := by
  refine ⟨⟨rfl, rfl, fun x => ?_, by decide +kernel⟩, rfl, rfl, fun x => ?_, by decide +kernel⟩
  · simp [oneS, atSym_putSym, State.reset]
  · simp [atSym_putSym, State.reset]

/-- For the statements on BUILD_TREE of a legal table: one symbol, and none. -/
theorem witness_BuildTree : (oneS.err = .noError ∧ oneS.mode = .idle ∧
      (∀ x, atSym oneS.present x = true → (atSym oneS.freq x).getLsbD 31 = false) ∧
      ∃ x, atSym oneS.present x = true) ∧
    (State.reset.err = .noError ∧ State.reset.mode = .idle ∧
      ∀ x, atSym State.reset.present x = true → (atSym State.reset.freq x).getLsbD 31 = false) :=
  ⟨⟨rfl, rfl, oneS_legal, 0x41#8, by decide +kernel⟩, rfl, rfl, firstBadFreq_none.1 (by decide +kernel)⟩

/-- The table's two premises of BuildTreeSeedsTheLeavesInSymbolOrder: two present symbols, none, and one. -/
theorem witness_BuildTree_table :
    (builtS.err = .noError ∧ builtS.mode = .idle ∧
      (∀ x, atSym builtS.present x = true → (atSym builtS.freq x).getLsbD 31 = false) ∧
      ¬ ∃ r, ∀ x, atSym builtS.present x = true ↔ x = r) ∧
    (¬ ∃ r, ∀ x, atSym State.reset.present x = true ↔ x = r) ∧
    ∀ x, atSym oneS.present x = true ↔ x = 0x41#8 := by
  refine ⟨⟨by decide +kernel, by decide +kernel, firstBadFreq_none.1 (by decide +kernel), ?_⟩, ?_,
    witness_BuildTreeAddsTheFiller.1.2.2.1⟩
  · rintro ⟨r, hr⟩
    have h0 := (hr 0x00#8).1 (by decide +kernel)
    have h1 := (hr 0x41#8).1 (by decide +kernel)
    exact absurd (h0.trans h1.symm) (by decide)
  · rintro ⟨r, hr⟩
    have := (hr r).2 rfl
    simp [State.reset] at this

/-- V-T1's tree of five leaves: node 6 joins 1 and 4 while the nodes 0 and 5 are queued too, and 2 is not. -/
theorem witness_BuildTreeMerges : let a := (buildTree abraS).nodes
    (buildTree abraS).nleaf.toNat = 5 ∧ a[6]? = some ⟨true, false, 0#8, 1#9, 4#9, 4#40⟩ ∧
    QueuedAt a 5 6 0 ∧ QueuedAt a 5 6 5 ∧ ¬ QueuedAt a 5 6 2 ∧ KeyBefore a 4 0 := by
  have h5 : (buildTree abraS).nodes[5]? = some ⟨true, false, 0#8, 2#9, 3#9, 2#40⟩ := by decide +kernel
  have hc : ∀ j, ChildBelow (buildTree abraS).nodes 5 6 j ↔ j = 2 ∨ j = 3 := by
    intro j
    constructor
    · rintro ⟨i, c, h1, h2, h3, h4⟩
      obtain rfl : i = 5 := by omega
      rw [h5] at h3; cases h3
      simp at h4; omega
    · rintro (rfl | rfl)
      · exact ⟨5, _, by omega, by omega, h5, .inl rfl⟩
      · exact ⟨5, _, by omega, by omega, h5, .inr rfl⟩
  refine ⟨by decide +kernel, by decide +kernel, ⟨by omega, by rw [hc]; omega⟩, ⟨by omega, by rw [hc]; omega⟩,
    fun h => h.2 ((hc 2).2 (.inl rfl)), ?_⟩
  exact ⟨leafNode 0x52#8 2#32, leafNode 0x41#8 5#32, by decide +kernel, by decide +kernel, .inl (by decide)⟩

/-- The inner hypotheses on a built tree: node 2 joins the leaves 0 and 1, and a path leads to a leaf. -/
theorem witness_BuildTree_nodes : (after .buildTree oneS).nleaf.toNat ≤ 2 ∧
    2 < 2 * (after .buildTree oneS).nleaf.toNat - 1 ∧ 1 < 2 * (after .buildTree oneS).nleaf.toNat - 2 ∧
    PathToLeaf builtS [true] 0x41#8 := by
  refine ⟨by decide +kernel, by decide +kernel, by decide +kernel, 1#9, leafNode 0x41#8 1000#32, ?_, ?_, rfl, rfl⟩
  · decide +kernel
  · decide +kernel

theorem witness_NodeReads : nodeAt builtS.nodes 1#9 = some (leafNode 0x41#8 1000#32) ∧ (510#9).toNat < 511 ∧
    0x1FF#9 = 0x1FF#9 := ⟨by decide +kernel, by decide, rfl⟩

theorem witness_GenCodesChecks : errS.err ≠ .noError ∧ (encS.err = .noError ∧ encS.mode ≠ .idle) ∧
    (State.reset.err = .noError ∧ State.reset.treeValid = false) := by decide +kernel

/-- For the statements on GEN_CODES of a valid tree: two leaves, and none. -/
theorem witness_GenCodes : (TreeInv builtS ∧ builtS.err = .noError ∧ builtS.mode = .idle ∧
      builtS.treeValid = true ∧ 2 ≤ builtS.nleaf.toNat) ∧
    (TreeInv emptyS ∧ emptyS.err = .noError ∧ emptyS.mode = .idle ∧ emptyS.treeValid = true ∧
      emptyS.nleaf = 0#9) :=
  ⟨⟨builtS_tree, by decide +kernel⟩, buildTree_treeInv rfl (by decide +kernel), by decide +kernel⟩

theorem witness_GenCodes_symbols : Coded codedS 0x00#8 ∧ Coded codedS 0x41#8 ∧ PathToLeaf builtS [true] 0x41#8 ∧
    ∀ p, ¬ PathToLeaf builtS p 0x42#8 := by
  refine ⟨by decide +kernel, by decide +kernel, witness_BuildTree_nodes.2.2.2, ?_⟩
  rintro p ⟨i, n, -, h, hl, hs⟩
  have hall : (builtS.nodes.toList.all fun n => !n.leaf || n.sym != 0x42#8) = true := by decide +kernel
  have := List.all_eq_true.1 hall n (Vector.mem_toList_iff.2 (Vector.mem_of_getElem? h))
  simp [hl, hs] at this

theorem witness_EncStart : errS.err ≠ .noError ∧ (encS.err = .noError ∧ encS.mode ≠ .idle) ∧
    (builtS.err = .noError ∧ builtS.codesValid = false) ∧
    (codedS.err = .noError ∧ codedS.mode = .idle ∧ codedS.codesValid = true) := by decide +kernel

/-- ENC_DATA at the bounds of its room: 33 bytes in OUT leave too little, 32 enough. -/
theorem witness_EncData : let full := { encS with out := List.replicate 33 0#8 }
    let room := { encS with out := List.replicate 32 0#8 }
    errS.err ≠ .noError ∧ (codedS.err = .noError ∧ codedS.mode ≠ .enc) ∧
    (full.err = .noError ∧ full.mode = .enc ∧ 64 < full.out.length + 32) ∧
    (room.err = .noError ∧ room.mode = .enc ∧ room.out.length + 32 ≤ 64 ∧
      atSym room.codeLen ((0x5A#32).extractLsb' 0 8) = 0#8 ∧
      atSym room.codeLen ((0x41#32).extractLsb' 0 8) ≠ 0#8) := by decide +kernel

/-- ENC_FINISH with and without a partial byte, at the bounds of its room. -/
theorem witness_EncFinish :
    let part := { encS with acc := 7#8, accN := 3#3, encBits := 3#64, out := List.replicate 63 0#8 }
    let none := { encS with out := List.replicate 64 0#8 }
    let full := { part with out := List.replicate 64 0#8 }
    errS.err ≠ .noError ∧ (codedS.err = .noError ∧ codedS.mode ≠ .enc) ∧
    (part.err = .noError ∧ part.mode = .enc ∧ part.accN.toNat = part.encBits.toNat % 8 ∧
      (0 < part.accN.toNat → part.out.length < 64)) ∧
    (none.err = .noError ∧ none.mode = .enc ∧ none.accN.toNat = none.encBits.toNat % 8 ∧
      (0 < none.accN.toNat → none.out.length < 64)) ∧
    (full.err = .noError ∧ full.mode = .enc ∧ 0 < full.accN.toNat ∧ 64 ≤ full.out.length) := by decide +kernel

theorem witness_StreamParameterWrites : errS.err ≠ .noError ∧ (decS.err = .noError ∧ decS.mode ≠ .idle) ∧
    (State.reset.err = .noError ∧ State.reset.mode = .idle) := by decide +kernel

/-- The seven clauses on DEC_START, PAD at 7 and 8. -/
theorem witness_DecStart : let ready (s : State) : Prop := s.err = .noError ∧ s.mode = .idle ∧ s.treeValid = true
    errS.err ≠ .noError ∧ (State.reset.err = .noError ∧ State.reset.treeValid = false) ∧
    (ready { builtS with pad := 8#8, decLen := 1#64 } ∧ 7 < (8#8).toNat) ∧
    (ready { builtS with pad := 1#8 } ∧ ({ builtS with pad := 1#8 } : State).decLen = 0#64 ∧ 1#8 ≠ 0#8) ∧
    (ready { emptyS with pad := 7#8, decLen := 1#64 } ∧ (7#8).toNat ≤ 7 ∧ emptyS.nleaf = 0#9 ∧ 1#64 ≠ 0#64) ∧
    (ready builtS ∧ builtS.pad = 0#8 ∧ builtS.nleaf ≠ 0#9 ∧ builtS.decLen = 0#64) ∧
    (ready emptyS ∧ emptyS.pad = 0#8 ∧ emptyS.nleaf = 0#9 ∧ emptyS.decLen = 0#64) ∧
    (ready paramS ∧ paramS.pad.toNat ≤ 7 ∧ paramS.nleaf ≠ 0#9 ∧ paramS.decLen ≠ 0#64) := by decide +kernel

/-- DEC_DATA at the bounds of its room, with the last byte and with one before it. -/
theorem witness_DecData : errS.err ≠ .noError ∧ (builtS.err = .noError ∧ builtS.mode ≠ .dec) ∧
    (({ decS with out := List.replicate 57 0#8 } : State).err = .noError ∧
      64 < ({ decS with out := List.replicate 57 0#8 } : State).out.length + 8) ∧
    (decS.err = .noError ∧ decS.mode = .dec ∧ decS.remain.toNat = 1 ∧ decS.pad.toNat ≤ 7 ∧
      decS.out.length + 8 ≤ 64) ∧
    (dec2S.err = .noError ∧ dec2S.mode = .dec ∧ 1 < dec2S.remain.toNat ∧ dec2S.out.length + 8 ≤ 64) ∧
    ({ decS with out := List.replicate 56 0#8 } : State).out.length + 8 ≤ 64 := by decide +kernel

theorem witness_DecDataWalksTheByte : (TreeInv decS ∧ 1 ≤ decS.remain.toNat) ∧
    (TreeInv dec2S ∧ 1 < dec2S.remain.toNat) := ⟨⟨decS_inv.tree, by decide +kernel⟩, dec2S_tree, by decide +kernel⟩

theorem witness_WalkBit : TreeInv decS ∧ decS.mode = .dec := ⟨decS_inv.tree, rfl⟩

/-- Two bytes that differ in the padding alone (V-D8). -/
theorem witness_PaddingBits : decS.remain.toNat = 1 ∧ decS.pad.toNat ≤ 7 ∧
    ∀ j, decS.pad.toNat ≤ j → j < 8 → (0x7F#32).getLsbD j = (0x00#32).getLsbD j := by
  refine ⟨by decide +kernel, by decide +kernel, fun j h1 h2 => ?_⟩
  have hp : decS.pad.toNat = 7 := by decide +kernel
  have : j = 7 := by omega
  subst this
  decide

theorem witness_WalkingCodes : (∀ x ∈ [0x41#8, 0x00#8], Coded codedS x) ∧
    (decS.nodes = codedS.nodes ∧ decS.root = codedS.root ∧ decS.cur = codedS.root) :=
  ⟨by decide +kernel, rfl, rfl, rfl⟩

/-- ENC_START past its checks opens the stream (R165). -/
theorem encStart_opens {s : State} (h1 : s.err = .noError) (h2 : s.mode = .idle) (h3 : s.codesValid = true) :
    exec .encStart s = .next (openEnc s) := by
  simp only [exec, execEncStart, gated_clear h1]
  rw [requireMode_met h2, if_neg (by simp [h3])]
  rfl

theorem encS_opened : exec .encStart codedS = .next encS :=
  encStart_opens (by decide +kernel) (by decide +kernel) (by decide +kernel)

theorem encS_run : EncodeRun encS [0x41#8] [] (after (.wrEncData 0x41#32) encS) :=
  .write (xs := []) 0x41#32 .opened (by decide +kernel) (by decide +kernel) (exec_after (by decide +kernel))

theorem witness_EncodeStreams : codedS.err = .noError ∧ codedS.mode = .idle ∧ codedS.codesValid = true ∧
    exec .encStart codedS = .next encS ∧
    ∃ t, EncodeRun encS [0x41#8] [] t ∧ t.out.length < 64 :=
  ⟨by decide +kernel, by decide +kernel, by decide +kernel, encS_opened, _, encS_run, by decide +kernel⟩

/-- A poll of STATUS, and a pop of the empty FIFO, leave the streams open. -/
theorem witness_Runs_read : EncodeRun encS [] [] (after .rdOutData (after .rdStatus encS)) ∧
    DecodeRun decS [] [] (after .rdOutData (after .rdStatus decS)) :=
  ⟨.read .rdOutData (.read .rdStatus .opened rfl nofun rfl) rfl (fun _ => rfl) rfl,
    .read .rdOutData (.read .rdStatus .opened rfl nofun rfl) rfl (fun _ => rfl) rfl⟩

/-- The one-symbol stream on V-T2's table: the payload is the byte 0x80 with PAD = 7, and it is a decode run. -/
theorem witness_Payloads : let v := after .encFinish (after (.wrEncData 0x41#32) encS)
    (Inv codedS ∧ EncodeRun encS [0x41#8] [] (after (.wrEncData 0x41#32) encS) ∧
      exec .encFinish (after (.wrEncData 0x41#32) encS) = .next v ∧ v.err = .noError ∧ v.out = [0x80#8]) ∧
    (Inv paramS ∧ paramS.err = .noError ∧ paramS.mode = .idle ∧ paramS.treeValid = true ∧
      paramS.freq = codedS.freq ∧ paramS.present = codedS.present ∧ paramS.pad = v.pad ∧
      paramS.decLen.toNat = ([] ++ v.out).length) ∧
    ∃ b, DecodeRun decS [0x80#8] [] b := by
  refine ⟨⟨codedS_inv, encS_run, exec_after (by decide +kernel), by decide +kernel, by decide +kernel⟩,
    ⟨paramS_inv, by decide +kernel, by decide +kernel, by decide +kernel, rfl, rfl, by decide +kernel,
      by decide +kernel⟩, after (.wrDecData 0x80#32) decS, ?_⟩
  exact .write (bs := []) 0x80#32 .opened (by decide +kernel) (exec_after (by decide +kernel))

/-- The stream of no symbols on the empty table: no payload, PAD = 0 (R154, R188). -/
theorem witness_Payloads_empty :
    let u := openEnc emptyCodedS
    let v := after .encFinish u
    (Inv emptyCodedS ∧ emptyCodedS.err = .noError ∧ emptyCodedS.mode = .idle ∧ emptyCodedS.codesValid = true ∧
      exec .encStart emptyCodedS = .next u ∧ EncodeRun u [] [] u ∧ exec .encFinish u = .next v ∧
      v.err = .noError ∧ emptyCodedS.nleaf = 0#9) ∧
    (Inv emptyS ∧ emptyS.err = .noError ∧ emptyS.mode = .idle ∧ emptyS.treeValid = true ∧
      emptyS.freq = emptyCodedS.freq ∧ emptyS.present = emptyCodedS.present ∧ emptyS.pad = v.pad ∧
      emptyS.decLen.toNat = ([] ++ v.out).length) :=
  ⟨⟨emptyCodedS_inv, by decide +kernel, by decide +kernel, by decide +kernel,
    encStart_opens (by decide +kernel) (by decide +kernel) (by decide +kernel), .opened,
    exec_after (by decide +kernel), by decide +kernel, by decide +kernel⟩, emptyS_inv, by decide +kernel,
    by decide +kernel, by decide +kernel, rfl, rfl, by decide +kernel, by decide +kernel⟩

theorem witness_InReady : inReady { encS with out := List.replicate 32 0#8 } = true ∧
    inReady { decS with out := List.replicate 56 0#8 } = true ∧ encS.mode = .enc ∧ decS.mode = .dec := by
  decide +kernel

theorem witness_OutData : ({ State.reset with out := [7#8] } : State).out = 7#8 :: [] ∧ State.reset.out = [] ∧
    State.reset.out.length ≤ 64 := by decide

theorem witness_Reads : isRead .rdStatus = true ∧ Instr.rdStatus ≠ .rdOutData := by decide

theorem witness_TableWriters : isCmd (.wrCmd 8#32) .clear = false ∧ isCmd (.wrCmd 1#32) .clear = true ∧
    isCmd (.wrCmd 8#32) .buildTree = false ∧ exec (.wrCmd 8#32) errS = .next { errS with err := .noError, errInfo := 0#32 } :=
  ⟨rfl, rfl, rfl, rfl⟩

/-- The invariants hold in states of every mode, and a step is taken from one of them. -/
theorem witness_Invariants : Inv State.reset ∧ Inv codedS ∧ Inv encS ∧ Inv decS ∧
    step State.reset = .next State.reset := ⟨reset_inv, codedS_inv, encS_inv, decS_inv, rfl⟩

end Sys2Proof.Tests
end

section
/-! PROOFS of the scope statements (00_scope.md): what one step does with the host's queue, and that no
operation touches the events still waiting. -/

namespace Sys2Proof.Machine

/-! ### The step, by the oldest pending event -/

theorem step_of_nothing_pending {s : State} (h : s.pending = []) : step s = .next s := by
  simp [step, h]

theorem step_of_reset {s : State} {rest : List HostEvent} (h : s.pending = .reset :: rest) :
    step s = .next (platformReset (dequeue rest s)) := by
  simp [step, h]

theorem step_of_access {s : State} {a : Access} {rest : List HostEvent} (h : s.pending = .access a :: rest) :
    step s = performAccess a (dequeue rest s) := by
  simp [step, h]

theorem performAccess_of_ok {a : Access} {i : Instr} (h : decodeBus a = .ok i) (s : State) :
    performAccess a s = exec i s := by
  simp [performAccess, h]

theorem performAccess_of_error {a : Access} {r : Reject} (h : decodeBus a = .error r) (s : State) :
    performAccess a s = .next (reservedAccess a s) := by
  simp [performAccess, h]

/-! ### The two decoding stages of a write to CMD (30_encoding.md R100) -/

theorem decodeBus_write_cmd (w : Word) : decodeBus (.write 0x0004#16 w) = .ok (.wrCmd w) := rfl

theorem exec_wrCmd_of_ok {w : Word} {c : Cmd} (h : decodeCmd w = .ok c) (s : State) :
    exec (.wrCmd w) s = exec c.toInstr s := by
  obtain ⟨c', hc', he⟩ | ⟨hnone, -⟩ := execWrCmd_cases w s
  · cases h.symm.trans hc'
    exact he
  · exact absurd h (hnone c)

/-! ### No operation touches the queue -/

theorem TurnedAway.pending_eq {s t : State} (h : TurnedAway s t) : t.pending = s.pending :=
  h.keeps State.pending fun _ _ => rfl

@[simp] theorem platformReset_pending (s : State) : (platformReset s).pending = s.pending := rfl

@[simp] theorem reservedAccess_pending (a : Access) (s : State) : (reservedAccess a s).pending = s.pending := by
  cases a <;> rfl

@[simp] theorem packBits_pending (s : State) (l : List Bool) : (packBits s l).pending = s.pending := by
  rw [packBits_frame]

theorem walkBits_pending {s t : State} {l : List Bool} (h : walkBits s l = .ok t) : t.pending = s.pending := by
  rw [walkBits_frame h]

@[simp] theorem countByte_pending (s : State) : (countByte s).pending = s.pending := by
  obtain ⟨-, e⟩ | ⟨-, -, e⟩ | ⟨-, -, e⟩ := countByte_cases s <;> simp [e]

@[simp] theorem buildTree_pending (s : State) : (buildTree s).pending = s.pending := by
  change (addFiller s).pending = s.pending
  rw [addFiller_frame]

theorem command_pending {c : Cmd} {s t : State} (h : exec c.toInstr s = .next t) : t.pending = s.pending := by
  cases c with
  | nop => cases h; rfl
  | clear => cases h; rfl
  | buildTree =>
    obtain h | ⟨-, -, -, rfl⟩ := execBuildTree_next h
    · exact h.pending_eq
    · exact buildTree_pending s
  | genCodes =>
    obtain h | ⟨-, -, -, _, -, rfl⟩ := execGenCodes_next h
    · exact h.pending_eq
    · rfl
  | encStart =>
    obtain h | ⟨-, -, -, rfl⟩ := execEncStart_next h
    · exact h.pending_eq
    · rfl
  | encFinish =>
    obtain h | ⟨-, -, -, rfl⟩ := execEncFinish_next h
    · exact h.pending_eq
    · split <;> rfl
  | decStart =>
    obtain h | ⟨-, -, -, -, ⟨-, -, rfl⟩ | ⟨-, -, rfl⟩⟩ := execDecStart_next h
    · exact h.pending_eq
    · rfl
    · rfl
  | abort =>
    obtain rfl | ⟨-, -, rfl⟩ := execAbort_next h
    · rfl
    · rfl
  | ackErr => cases h; rfl

theorem read_pending {i : Instr} {s t : State} (hr : isRead i = true) (h : exec i s = .next t) :
    t.pending = s.pending := by
  by_cases hi : i = .rdOutData
  · subst hi
    change execRdOutData s = .next t at h
    obtain ⟨-, e⟩ | ⟨_, _, -, e⟩ := execRdOutData_eq s <;> cases e.symm.trans h <;> rfl
  · obtain ⟨_, e⟩ := read_next hr hi s
    cases e.symm.trans h
    rfl

theorem exec_pending {i : Instr} {s t : State} (h : exec i s = .next t) : t.pending = s.pending := by
  cases i with
  | nop => exact command_pending (c := .nop) h
  | clear => exact command_pending (c := .clear) h
  | buildTree => exact command_pending (c := .buildTree) h
  | genCodes => exact command_pending (c := .genCodes) h
  | encStart => exact command_pending (c := .encStart) h
  | encFinish => exact command_pending (c := .encFinish) h
  | decStart => exact command_pending (c := .decStart) h
  | abort => exact command_pending (c := .abort) h
  | ackErr => exact command_pending (c := .ackErr) h
  | wrCmd w =>
    obtain h | ⟨_, -, h⟩ := execWrCmd_next h
    · exact h.pending_eq
    · exact command_pending h
  | wrFreq x d =>
    obtain h | ⟨-, -, rfl⟩ := execWrFreq_next h
    · exact h.pending_eq
    · rfl
  | wrEncData d =>
    obtain h | ⟨-, -, -, -, rfl⟩ := execWrEncData_next h
    · exact h.pending_eq
    · exact packBits_pending s _
  | wrPad d =>
    obtain h | ⟨-, -, rfl⟩ := execWrPad_next h
    · exact h.pending_eq
    · rfl
  | wrDecLenLo d =>
    obtain h | ⟨-, -, rfl⟩ := execWrDecLenLo_next h
    · exact h.pending_eq
    · rfl
  | wrDecLenHi d =>
    obtain h | ⟨-, -, rfl⟩ := execWrDecLenHi_next h
    · exact h.pending_eq
    · rfl
  | wrDecData d =>
    obtain h | ⟨-, -, -, u, hu, rfl⟩ := execWrDecData_next h
    · exact h.pending_eq
    · exact (countByte_pending u).trans (walkBits_pending hu)
  | _ => exact read_pending rfl h

/-- An access leaves the queue alone whether or not it matches a row of the table. -/
theorem performAccess_pending {a : Access} {s t : State} (h : performAccess a s = .next t) :
    t.pending = s.pending := by
  cases hd : decodeBus a with
  | ok i => exact exec_pending ((performAccess_of_ok hd s).symm.trans h)
  | error r =>
    cases (performAccess_of_error hd s).symm.trans h
    exact reservedAccess_pending a s

theorem step_pending {s t : State} {e : HostEvent} {rest : List HostEvent} (h : step s = .next t)
    (hp : s.pending = e :: rest) : t.pending = rest := by
  cases e with
  | reset =>
    cases (step_of_reset hp).symm.trans h
    rfl
  | access a =>
    have hperf : performAccess a (dequeue rest s) = .next t := (step_of_access hp).symm.trans h
    exact performAccess_pending hperf

/-! ### The statements -/

/-- Settles O14: the event is taken off before it is performed, and no event's performance touches the queue. -/
theorem stepTakesTheOldestEvent : Obligations.StepTakesTheOldestEvent := by
  intro s
  refine ⟨fun t e rest => step_pending, fun rest hp => ?_, step_of_nothing_pending⟩
  exact step_of_reset hp

/-- Settles O7: the first clause is decoding by key, the second adds the command stage behind WR_CMD. -/
theorem stepRunsTheDecodedOperation : Obligations.StepRunsTheDecodedOperation := by
  intro s a rest hp
  have hrun : ∀ i, decodeBus a = .ok i → step s = exec i (dequeue rest s) := fun i hi =>
    (step_of_access hp).trans (performAccess_of_ok hi _)
  refine ⟨hrun, ?_⟩
  rintro w c rfl hc
  calc step s = exec (.wrCmd w) (dequeue rest s) := hrun _ (decodeBus_write_cmd w)
    _ = exec c.toInstr (dequeue rest s) := exec_wrCmd_of_ok hc _

end Sys2Proof.Machine
end

section
/-! PROOFS of the state statements (10_state.md): every change an operation can make, said once, and from it who
writes which table and what every step keeps. -/

namespace Sys2Proof.Machine

/-! ### Every change an operation can make -/

/-- All operation `i` can do to the state `s` when it answers a next state, with the conditions it does it
under. A command has its effect both as a command word and as the data word of a write to CMD. -/
inductive Effect (i : Instr) (s : State) : State → Prop where
  | unchanged : Effect i s s
  | replied (w : Word) : Effect i s { s with reply := some w }
  | popped (b : Byte) (rest : List Byte) (w : Word) (head : s.out = b :: rest) :
      Effect i s { s with out := rest, reply := some w }
  | raised (e : ErrCode) (info : Word) (he : e ≠ .noError) : Effect i s (errorEntry e info s)
  | acknowledged : Effect i s (leaveError s)
  | cleared (hi : isCmd i .clear = true) : Effect i s (clearAll s)
  | aborted (herr : s.err = .noError) :
      Effect i s { s with mode := .idle, acc := 0#8, accN := 0#3, remain := 0#64, cur := s.root }
  | loaded (x : Byte) (v : Word) (hi : i = .wrFreq x v) (herr : s.err = .noError) (hmode : s.mode = .idle) :
      Effect i s { loadFreq x v s with treeValid := false, codesValid := false }
  | built (hi : isCmd i .buildTree = true) (herr : s.err = .noError) (hmode : s.mode = .idle)
      (legal : firstBadFreq s = none) : Effect i s (buildTree s)
  | coded (c : CodeTable) (hi : isCmd i .genCodes = true) (hmode : s.mode = .idle)
      (valid : s.treeValid = true) (derived : deriveCodes s = .ok c) :
      Effect i s { s with codeLen := c.len, codeWord := c.word, codesValid := true }
  | encodeOpened (herr : s.err = .noError) (hmode : s.mode = .idle) (valid : s.codesValid = true) :
      Effect i s { s with out := [], acc := 0#8, accN := 0#3, encBits := 0#64, done := false, mode := .enc }
  | encoded (x : Byte) (hmode : s.mode = .enc) (room : Config.encRoom ≤ freeRoom s) :
      Effect i s { packBits s (codeBits s x) with encBits := s.encBits + (atSym s.codeLen x).setWidth 64 }
  | encodeFinished (herr : s.err = .noError) (hmode : s.mode = .enc)
      (room : ¬ (0 < s.accN.toNat ∧ freeRoom s = 0)) :
      Effect i s { (if 0 < s.accN.toNat then pushOut (finalByte s) s else s) with
        pad := paddingOf s.encBits, acc := 0#8, accN := 0#3, mode := .idle, done := true }
  | padWritten (p : Byte) (hmode : s.mode = .idle) : Effect i s { s with pad := p }
  | decLenWritten (c : Count) (hi : (∃ v, i = .wrDecLenLo v) ∨ ∃ v, i = .wrDecLenHi v) :
      Effect i s { s with decLen := c }
  | nothingToDecode (herr : s.err = .noError) (hmode : s.mode = .idle) :
      Effect i s { s with out := [], done := true }
  | decodeOpened (herr : s.err = .noError) (hmode : s.mode = .idle) (valid : s.treeValid = true)
      (hpad : s.pad.toNat ≤ 7) (hlen : s.decLen ≠ 0#64) (hleaf : s.nleaf ≠ 0#9) :
      Effect i s { s with out := [], done := false, remain := s.decLen, cur := s.root, mode := .dec }
  | decoded (b : Byte) (u : State) (herr : s.err = .noError) (hmode : s.mode = .dec)
      (room : Config.decRoom ≤ freeRoom s) (walked : walkBits s (payloadBits s b) = .ok u) :
      Effect i s (countByte u)

theorem TurnedAway.effect {i : Instr} {s t : State} (h : TurnedAway s t) : Effect i s t := by
  cases h with
  | ignored => exact .unchanged
  | raised _ e info he => exact .raised e info he

theorem command_effect {i : Instr} {c : Cmd} {s t : State} (hi : isCmd i c = true)
    (h : exec c.toInstr s = .next t) : Effect i s t := by
  cases c with
  | nop => cases h; exact .unchanged
  | clear => cases h; exact .cleared hi
  | buildTree =>
    obtain h | ⟨he, hm, hb, rfl⟩ := execBuildTree_next h
    · exact h.effect
    · exact .built hi he hm hb
  | genCodes =>
    obtain h | ⟨-, hm, hv, c, hc, rfl⟩ := execGenCodes_next h
    · exact h.effect
    · exact .coded c hi hm hv hc
  | encStart =>
    obtain h | ⟨he, hm, hv, rfl⟩ := execEncStart_next h
    · exact h.effect
    · exact .encodeOpened he hm hv
  | encFinish =>
    obtain h | ⟨he, hm, hr, rfl⟩ := execEncFinish_next h
    · exact h.effect
    · exact .encodeFinished he hm hr
  | decStart =>
    obtain h | ⟨he, hm, hv, hp, ⟨-, -, rfl⟩ | ⟨hl, hn, rfl⟩⟩ := execDecStart_next h
    · exact h.effect
    · exact .nothingToDecode he hm
    · exact .decodeOpened he hm hv hp hl hn
  | abort =>
    obtain rfl | ⟨he, -, rfl⟩ := execAbort_next h
    · exact .unchanged
    · exact .aborted he
  | ackErr => cases h; exact .acknowledged

theorem read_effect {i : Instr} {s t : State} (hr : isRead i = true) (h : exec i s = .next t) :
    Effect i s t := by
  by_cases hi : i = .rdOutData
  · subst hi
    change execRdOutData s = .next t at h
    obtain ⟨-, e⟩ | ⟨b, rest, ho, e⟩ := execRdOutData_eq s <;> cases e.symm.trans h
    · exact .replied _
    · exact .popped b rest _ ho
  · obtain ⟨w, e⟩ := read_next hr hi s
    cases e.symm.trans h
    exact .replied w

/-- Every operation that answers a next state makes one of the changes of `Effect`. -/
theorem exec_effect {i : Instr} {s t : State} (h : exec i s = .next t) : Effect i s t := by
  cases i with
  | nop => exact command_effect (c := .nop) rfl h
  | clear => exact command_effect (c := .clear) rfl h
  | buildTree => exact command_effect (c := .buildTree) rfl h
  | genCodes => exact command_effect (c := .genCodes) rfl h
  | encStart => exact command_effect (c := .encStart) rfl h
  | encFinish => exact command_effect (c := .encFinish) rfl h
  | decStart => exact command_effect (c := .decStart) rfl h
  | abort => exact command_effect (c := .abort) rfl h
  | ackErr => exact command_effect (c := .ackErr) rfl h
  | wrCmd w =>
    obtain h | ⟨c, hc, h⟩ := execWrCmd_next h
    · exact h.effect
    · exact command_effect (decide_eq_true hc) h
  | wrFreq x v =>
    obtain h | ⟨he, hm, rfl⟩ := execWrFreq_next h
    · exact h.effect
    · exact .loaded x v rfl he hm
  | wrEncData d =>
    obtain h | ⟨-, hm, hr, -, rfl⟩ := execWrEncData_next h
    · exact h.effect
    · exact .encoded (dataByte d) hm hr
  | wrPad d =>
    obtain h | ⟨-, hm, rfl⟩ := execWrPad_next h
    · exact h.effect
    · exact .padWritten _ hm
  | wrDecLenLo d =>
    obtain h | ⟨-, -, rfl⟩ := execWrDecLenLo_next h
    · exact h.effect
    · exact .decLenWritten _ (.inl ⟨d, rfl⟩)
  | wrDecLenHi d =>
    obtain h | ⟨-, -, rfl⟩ := execWrDecLenHi_next h
    · exact h.effect
    · exact .decLenWritten _ (.inr ⟨d, rfl⟩)
  | wrDecData d =>
    obtain h | ⟨he, hm, hr, u, hu, rfl⟩ := execWrDecData_next h
    · exact h.effect
    · exact .decoded (dataByte d) u he hm hr hu
  | _ => exact read_effect rfl h

/-- What survives the taking of an event and every effect survives every step: a reset has CLEAR's effect,
an access that matches no row has a read's or none (R64, R65, R260). -/
theorem step_keeps {P : State → Prop} (hdequeue : ∀ s rest, P s → P (dequeue rest s))
    (heffect : ∀ i s t, P s → Effect i s t → P t) (s t : State) (hs : P s) (h : step s = .next t) : P t := by
  cases hp : s.pending with
  | nil => cases (step_of_nothing_pending hp).symm.trans h; exact hs
  | cons e rest =>
    have hd := hdequeue s rest hs
    cases e with
    | reset => cases (step_of_reset hp).symm.trans h; exact heffect .clear _ _ hd (.cleared rfl)
    | access a =>
      have h := (step_of_access hp).symm.trans h
      cases hk : decodeBus a with
      | ok i => exact heffect i _ _ hd (exec_effect ((performAccess_of_ok hk _).symm.trans h))
      | error r =>
        cases (performAccess_of_error hk _).symm.trans h
        cases a with
        | read off => exact heffect .nop _ _ hd (.replied 0#32)
        | write off d => exact hd

/-! ### Who writes the tables -/

/-- The frequency table, the tree, the code table and their valid flags are the same in both states. -/
structure SameTables (s t : State) : Prop where
  treeValid : t.treeValid = s.treeValid
  codesValid : t.codesValid = s.codesValid
  freq : t.freq = s.freq
  present : t.present = s.present
  nodes : t.nodes = s.nodes
  nleaf : t.nleaf = s.nleaf
  root : t.root = s.root
  codeLen : t.codeLen = s.codeLen
  codeWord : t.codeWord = s.codeWord

theorem countByte_sameTables (u : State) : SameTables u (countByte u) := by
  obtain ⟨-, e⟩ | ⟨-, -, e⟩ | ⟨-, -, e⟩ := countByte_cases u <;> rw [e] <;> constructor <;> rfl

theorem packBits_sameTables (s : State) (l : List Bool) : SameTables s (packBits s l) := by
  rw [packBits_frame]; constructor <;> rfl

theorem walkBits_countByte_sameTables {s u : State} {l : List Bool} (h : walkBits s l = .ok u) :
    SameTables s (countByte u) := by
  rw [walkBits_frame h]
  exact { countByte_sameTables { s with out := u.out, cur := u.cur } with }

/-- Only CLEAR, WR_FREQ, BUILD_TREE and GEN_CODES write the tables or their valid flags. -/
theorem Effect.tables {i : Instr} {s t : State} (h : Effect i s t) :
    SameTables s t ∨
    (isCmd i .clear = true ∧ t = clearAll s) ∨
    (∃ x v, i = .wrFreq x v ∧ t = { loadFreq x v s with treeValid := false, codesValid := false }) ∨
    (isCmd i .buildTree = true ∧ s.mode = .idle ∧ firstBadFreq s = none ∧ t = buildTree s) ∨
    (isCmd i .genCodes = true ∧ ∃ c, deriveCodes s = .ok c ∧
      t = { s with codeLen := c.len, codeWord := c.word, codesValid := true }) := by
  cases h with
  | cleared hi => exact .inr (.inl ⟨hi, rfl⟩)
  | loaded x v hi => exact .inr (.inr (.inl ⟨x, v, hi, rfl⟩))
  | built hi _ hm hb => exact .inr (.inr (.inr (.inl ⟨hi, hm, hb, rfl⟩)))
  | coded c hi _ _ hc => exact .inr (.inr (.inr (.inr ⟨hi, c, hc, rfl⟩)))
  | encoded x => exact .inl { packBits_sameTables s (codeBits s x) with }
  | decoded b u _ _ _ hu => exact .inl (walkBits_countByte_sameTables hu)
  | encodeFinished => left; split <;> constructor <;> rfl
  | _ => left; constructor <;> rfl

/-- Only CLEAR and the two writes of DEC_LEN write DEC_LEN (R40). -/
theorem Effect.decLen {i : Instr} {s t : State} (h : Effect i s t) (hc : isCmd i .clear = false)
    (hl : ∀ v, i ≠ .wrDecLenLo v) (hh : ∀ v, i ≠ .wrDecLenHi v) : t.decLen = s.decLen := by
  cases h with
  | cleared hi => rw [hc] at hi; cases hi
  | decLenWritten c hi =>
    obtain ⟨v, rfl⟩ | ⟨v, rfl⟩ := hi
    · exact absurd rfl (hl v)
    · exact absurd rfl (hh v)
  | built => change (addFiller s).decLen = _; rw [addFiller_frame]
  | encoded x => change (packBits s (codeBits s x)).decLen = _; rw [packBits_frame]
  | decoded b u _ _ _ hu =>
    have hd : u.decLen = s.decLen := by rw [walkBits_frame hu]
    obtain ⟨-, e⟩ | ⟨-, -, e⟩ | ⟨-, -, e⟩ := countByte_cases u <;> rw [e] <;> exact hd
  | encodeFinished => split <;> rfl
  | _ => rfl

theorem loadFreq_present_mono {s : State} {x y : Byte} {v : Word} (h : atSym s.present y = true) :
    atSym (loadFreq x v s).present y = true := by
  rw [loadFreq_present, atSym_putSym]
  split
  · rfl
  · exact h

theorem addFiller_present_mono {s : State} {y : Byte} (h : atSym s.present y = true) :
    atSym (addFiller s).present y = true := by
  unfold addFiller
  split
  · exact loadFreq_present_mono h
  · exact h

theorem buildTree_codeTable (s : State) :
    (buildTree s).codeLen = s.codeLen ∧ (buildTree s).codeWord = s.codeWord := by
  change (addFiller s).codeLen = _ ∧ (addFiller s).codeWord = _
  rw [addFiller_frame]
  exact ⟨rfl, rfl⟩

/-- Settles O54, by the five ways an operation can treat the tables. -/
theorem onlyTheNamedOperationsWriteTheTables : Obligations.OnlyTheNamedOperationsWriteTheTables := by
  intro i s t h hc
  have he := exec_effect h
  have hdec := he.decLen hc
  obtain hk | ⟨hi, -⟩ | ⟨x, v, rfl, rfl⟩ | ⟨hi, -, -, rfl⟩ | ⟨hi, c, -, rfl⟩ := he.tables
  · exact ⟨fun x hx => by rw [hk.present]; exact hx, fun _ _ => ⟨hk.freq, hk.present⟩,
      fun _ => ⟨hk.nodes, hk.nleaf, hk.root⟩, fun _ => ⟨hk.codeLen, hk.codeWord⟩, hdec⟩
  · simp [hc] at hi
  · exact ⟨fun y => loadFreq_present_mono (v := v), fun hw => absurd rfl (hw x v), fun _ => ⟨rfl, rfl, rfl⟩,
      fun _ => ⟨rfl, rfl⟩, hdec⟩
  · exact ⟨fun y => addFiller_present_mono, fun _ hb => by simp [hb] at hi, fun hb => by simp [hb] at hi,
      fun _ => buildTree_codeTable s, hdec⟩
  · exact ⟨fun _ => id, fun _ _ => ⟨rfl, rfl⟩, fun _ => ⟨rfl, rfl, rfl⟩, fun hg => by simp [hg] at hi, hdec⟩

/-! ### The control invariants (R47) -/

/-- In IDLE the control invariants ask only this. -/
theorem controlInv_of_idle {t : State} (hm : t.mode = .idle) (hcur : t.cur = t.root) (hacc : t.acc = 0#8)
    (haccN : t.accN = 0#3) (hremain : t.remain = 0#64) (hdone : t.err ≠ .noError → t.done = false)
    (hinfo : t.err = .noError → t.errInfo = 0#32) (hcodes : t.codesValid = true → t.treeValid = true)
    (hleaf : t.nleaf ≠ 1#9) (hout : t.out.length ≤ Config.outDepth) : ControlInv t where
  enc_valid h := by rw [hm] at h; cases h
  dec_valid h := by rw [hm] at h; cases h
  dec_pad h := by rw [hm] at h; cases h
  cur_root _ := hcur
  acc_zero _ := ⟨hacc, haccN⟩
  err_idle _ := hm
  remain_zero _ := hremain
  done_clear h := hdone (h.resolve_left (absurd hm))
  info_clear := hinfo
  codes_tree := hcodes
  leaf_count := hleaf
  out_bound := hout
  acc_fits := by rw [hacc, haccN]; decide
  enc_count h := by rw [hm] at h; cases h

theorem clearAll_controlInv (s : State) : ControlInv (clearAll s) :=
  controlInv_of_idle rfl rfl rfl rfl rfl (fun _ => rfl) (fun _ => rfl) nofun (by simp) (by simp)

theorem errorEntry_controlInv {s : State} (h : ControlInv s) {e : ErrCode} (he : e ≠ .noError) (info : Word) :
    ControlInv (errorEntry e info s) :=
  controlInv_of_idle rfl rfl rfl rfl rfl (fun _ => rfl) (absurd · he) h.codes_tree h.leaf_count h.out_bound

/-- NLEAF of a built tree is never 1: the filler makes two leaves of one (R133, R155). -/
theorem buildTree_nleaf_ne_one (s : State) : (buildTree s).nleaf ≠ 1#9 := by
  have hle := presentSymbols_length_le (addFiller s)
  have hne := addFiller_count s
  change BitVec.ofNat 9 (presentSymbols (addFiller s)).length ≠ 1#9
  bv_omega

theorem buildTree_controlInv {s : State} (h : ControlInv s) (herr : s.err = .noError) (hm : s.mode = .idle) :
    ControlInv (buildTree s) := by
  have hd : s.mode ≠ .dec := by simp [hm]
  have he : s.mode ≠ .enc := by simp [hm]
  have hleaf := buildTree_nleaf_ne_one s
  unfold buildTree at hleaf ⊢
  rw [addFiller_frame] at hleaf ⊢
  exact controlInv_of_idle hm rfl (h.acc_zero he).1 (h.acc_zero he).2 (h.remain_zero hd) (absurd herr)
    h.info_clear nofun hleaf h.out_bound

theorem encodeOpened_controlInv {s : State} (h : ControlInv s) (herr : s.err = .noError) (hm : s.mode = .idle)
    (hv : s.codesValid = true) :
    ControlInv { s with out := [], acc := 0#8, accN := 0#3, encBits := 0#64, done := false, mode := .enc } := by
  have hd : s.mode ≠ .dec := by simp [hm]
  exact { h with
    enc_valid := fun _ => ⟨hv, h.codes_tree hv⟩
    dec_valid := nofun
    dec_pad := nofun
    cur_root := fun _ => h.cur_root hd
    acc_zero := fun he => absurd rfl he
    err_idle := absurd herr
    remain_zero := fun _ => h.remain_zero hd
    done_clear := fun _ => rfl
    out_bound := by simp
    acc_fits := by simp
    enc_count := fun _ => rfl }

/-- The room ENC_DATA asks for holds the bytes of any code and of the partial byte before it (R166, R167). -/
theorem packBits_room {s : State} {l : List Bool} (hroom : Config.encRoom ≤ freeRoom s) (hl : l.length < 256) :
    (packBits s l).out.length ≤ Config.outDepth := by
  have hcount := packBits_counts s l
  have hn : s.accN.toNat < 8 := s.accN.isLt
  simp only [freeRoom, Config.outDepth, Config.encRoom] at hroom ⊢
  omega

/-- ACC_N follows ENC_BITS modulo 8 (R167, R169). -/
theorem packBits_accN_mod {s : State} {l : List Bool} (hcount : s.accN.toNat = s.encBits.toNat % 8) :
    (packBits s l).accN.toNat = (s.encBits.toNat + l.length) % 8 := by
  have := packBits_counts s l
  have hn : (packBits s l).accN.toNat < 8 := (packBits s l).accN.isLt
  omega

theorem encoded_controlInv {s : State} (h : ControlInv s) (x : Byte) (hm : s.mode = .enc)
    (hroom : Config.encRoom ≤ freeRoom s) :
    ControlInv { packBits s (codeBits s x) with
      encBits := s.encBits + (atSym s.codeLen x).setWidth 64 } := by
  have hlen := codeBits_length s x
  have hlt : (atSym s.codeLen x).toNat < 256 := (atSym s.codeLen x).isLt
  have hout := packBits_room hroom (hlen ▸ hlt)
  have hfits := packBits_fits s (codeBits s x) h.acc_fits
  have hmod := packBits_accN_mod (l := codeBits s x) (h.enc_count hm)
  rw [packBits_frame]
  refine { h with acc_zero := absurd hm, out_bound := hout, acc_fits := hfits, enc_count := fun _ => ?_ }
  rw [hmod, hlen]
  simp only [BitVec.toNat_add, BitVec.toNat_setWidth]
  omega

theorem encodeFinished_controlInv {s : State} (h : ControlInv s) (herr : s.err = .noError) (hm : s.mode = .enc)
    (hroom : ¬ (0 < s.accN.toNat ∧ freeRoom s = 0)) :
    ControlInv { (if 0 < s.accN.toNat then pushOut (finalByte s) s else s) with
      pad := paddingOf s.encBits, acc := 0#8, accN := 0#3, mode := .idle, done := true } := by
  have hd : s.mode ≠ .dec := by simp [hm]
  have hout := h.out_bound
  split
  · refine controlInv_of_idle rfl (h.cur_root hd) rfl rfl (h.remain_zero hd) (absurd herr) h.info_clear
      h.codes_tree h.leaf_count ?_
    simp only [freeRoom, Config.outDepth] at hroom hout
    simp only [pushOut_out, List.length_append, List.length_singleton, Config.outDepth]
    omega
  · exact controlInv_of_idle rfl (h.cur_root hd) rfl rfl (h.remain_zero hd) (absurd herr) h.info_clear
      h.codes_tree h.leaf_count hout

theorem decodeOpened_controlInv {s : State} (h : ControlInv s) (herr : s.err = .noError) (hm : s.mode = .idle)
    (hv : s.treeValid = true) (hpad : s.pad.toNat ≤ 7) (hlen : s.decLen ≠ 0#64) (hleaf : s.nleaf ≠ 0#9) :
    ControlInv { s with out := [], done := false, remain := s.decLen, cur := s.root, mode := .dec } := by
  have hone := h.leaf_count
  have htwo : 2 ≤ s.nleaf.toNat := by bv_omega
  have hpos : 1 ≤ s.decLen.toNat := by bv_omega
  exact { h with
    enc_valid := nofun
    dec_valid := fun _ => ⟨hv, htwo, hpos⟩
    dec_pad := fun _ => hpad
    cur_root := fun hd => absurd rfl hd
    acc_zero := fun _ => h.acc_zero (by simp [hm])
    err_idle := absurd herr
    remain_zero := fun hd => absurd rfl hd
    done_clear := fun _ => rfl
    out_bound := by simp
    enc_count := nofun }

/-- The room DEC_DATA asks for holds a symbol for each bit of the byte (R189, R190). -/
theorem walkBits_room {s u : State} {b : Byte} (hroom : Config.decRoom ≤ freeRoom s)
    (hu : walkBits s (payloadBits s b) = .ok u) : u.out.length ≤ Config.outDepth := by
  obtain ⟨syms, hout, hsyms⟩ := walkBits_emits hu
  have hbits := payloadBits_length s b
  simp only [freeRoom, Config.outDepth, Config.decRoom] at hroom
  simp only [hout, List.length_append, Config.outDepth]
  omega

theorem countByte_controlInv {u : State} (h : ControlInv u) (herr : u.err = .noError) (hm : u.mode = .dec) :
    ControlInv (countByte u) := by
  have he : u.mode ≠ .enc := by simp [hm]
  obtain ⟨hne, e⟩ | ⟨-, hroot, e⟩ | ⟨-, -, e⟩ := countByte_cases u
  · obtain ⟨hv, hleaf, hpos⟩ := h.dec_valid hm
    rw [e]
    exact { h with dec_valid := fun _ => ⟨hv, hleaf, by bv_omega⟩, remain_zero := absurd hm }
  · rw [e]
    exact controlInv_of_idle rfl hroot (h.acc_zero he).1 (h.acc_zero he).2 rfl (absurd herr) h.info_clear
      h.codes_tree h.leaf_count h.out_bound
  · rw [e]
    exact errorEntry_controlInv h (by decide) _

theorem decoded_controlInv {s u : State} {b : Byte} (h : ControlInv s) (herr : s.err = .noError)
    (hm : s.mode = .dec) (hroom : Config.decRoom ≤ freeRoom s)
    (hu : walkBits s (payloadBits s b) = .ok u) : ControlInv (countByte u) := by
  have hout := walkBits_room hroom hu
  rw [walkBits_frame hu]
  exact countByte_controlInv { h with cur_root := absurd hm, out_bound := hout } herr hm

theorem Effect.controlInv {i : Instr} {s t : State} (h : ControlInv s) (he : Effect i s t) : ControlInv t := by
  cases he with
  | unchanged => exact h
  | replied w => exact { h with }
  | popped b rest w head =>
    have hout := h.out_bound
    rw [head, List.length_cons] at hout
    exact { h with out_bound := Nat.le_of_succ_le hout }
  | raised e info he => exact errorEntry_controlInv h he info
  | acknowledged =>
    exact { h with
      err_idle := absurd rfl
      done_clear := fun hor => h.done_clear (.inl (hor.resolve_right (absurd rfl)))
      info_clear := fun _ => rfl }
  | cleared => exact clearAll_controlInv s
  | aborted herr =>
    exact controlInv_of_idle rfl rfl rfl rfl rfl (absurd herr) h.info_clear h.codes_tree h.leaf_count h.out_bound
  | loaded x v _ herr hm =>
    exact { h with
      enc_valid := fun he => nomatch hm.symm.trans he
      dec_valid := fun hd => nomatch hm.symm.trans hd
      codes_tree := nofun }
  | built _ herr hm => exact buildTree_controlInv h herr hm
  | coded c _ hm hv =>
    exact { h with enc_valid := fun he => (nomatch hm.symm.trans he), codes_tree := fun _ => hv }
  | encodeOpened herr hm hv => exact encodeOpened_controlInv h herr hm hv
  | encoded x hm hroom => exact encoded_controlInv h x hm hroom
  | encodeFinished herr hm hroom => exact encodeFinished_controlInv h herr hm hroom
  | padWritten p hm => exact { h with dec_pad := fun hd => nomatch hm.symm.trans hd }
  | decLenWritten => exact { h with }
  | nothingToDecode herr hm =>
    exact { h with
      done_clear := fun hor => hor.elim (absurd hm) (absurd herr)
      out_bound := by simp }
  | decodeOpened herr hm hv hp hl hn => exact decodeOpened_controlInv h herr hm hv hp hl hn
  | decoded b u herr hm hroom hu => exact decoded_controlInv h herr hm hroom hu

theorem dequeue_controlInv (s : State) (rest : List HostEvent) (h : ControlInv s) : ControlInv (dequeue rest s) :=
  { h with }

/-- Settles O56, by the effects of one operation. -/
theorem stepKeepsTheControlInvariants : Obligations.StepKeepsTheControlInvariants :=
  step_keeps dequeue_controlInv fun _ _ _ => Effect.controlInv

/-! ### The tree invariants -/

theorem clearAll_treeInv (s : State) : TreeInv (clearAll s) where
  count := .inl rfl
  root_eq := rfl
  shape := reset_shape
  cur_internal := nofun
  current := nofun

/-- ROOT of a tree with leaves is an internal node (R34). -/
theorem TreeInv.root_internal {s : State} (h : TreeInv s) (hleaf : s.nleaf ≠ 0#9) :
    s.nleaf.toNat ≤ s.root.toNat ∧ s.root.toNat < 2 * s.nleaf.toNat - 1 := by
  obtain ⟨htwo, -⟩ := h.count.resolve_left hleaf
  have hroot := h.root_toNat htwo
  omega

/-- The walk of a payload byte ends on an internal node (R190). -/
theorem TreeInv.walk_internal {s u : State} {l : List Bool} (h : TreeInv s) (hm : s.mode = .dec)
    (hu : walkBits s l = .ok u) : s.nleaf.toNat ≤ u.cur.toNat ∧ u.cur.toNat < 2 * s.nleaf.toNat - 1 := by
  have htwo := h.two_leaves hm
  obtain ⟨hlo, hhi⟩ := h.cur_internal hm
  obtain ⟨u', hu', hcur⟩ := walkBits_ok h.shape (h.root_toNat htwo) htwo hlo hhi l
  cases hu.symm.trans hu'
  exact hcur

/-- CUR is an internal node of the tree in every decode stream an operation opens or leaves open. -/
theorem Effect.cur_internal {i : Instr} {s t : State} (h : TreeInv s) (he : Effect i s t)
    (hd : t.mode = .dec) : s.nleaf.toNat ≤ t.cur.toNat ∧ t.cur.toNat < 2 * s.nleaf.toNat - 1 := by
  cases he with
  | built _ _ hm =>
    change (addFiller s).mode = _ at hd
    rw [addFiller_frame] at hd
    cases hm.symm.trans hd
  | encoded x hm =>
    change (packBits s (codeBits s x)).mode = _ at hd
    rw [packBits_frame] at hd
    cases hm.symm.trans hd
  | decodeOpened _ _ _ _ _ hleaf => exact h.root_internal hleaf
  | decoded b u _ hm _ hu =>
    have hw := h.walk_internal hm hu
    obtain ⟨-, e⟩ | ⟨-, -, e⟩ | ⟨-, -, e⟩ := countByte_cases u <;> rw [e] at hd ⊢
    · exact hw
    · cases hd
    · cases hd
  | raised | cleared | aborted | encodeOpened | encodeFinished => cases hd
  | _ => exact h.cur_internal hd

theorem Effect.treeInv {i : Instr} {s t : State} (h : TreeInv s) (he : Effect i s t) : TreeInv t := by
  have hcur := he.cur_internal h
  obtain hk | ⟨-, rfl⟩ | ⟨x, v, -, rfl⟩ | ⟨-, hm, hb, rfl⟩ | ⟨-, c, -, rfl⟩ := he.tables
  · exact h.congr ⟨hk.nleaf, hk.root, hk.nodes⟩ hcur fun hv => ⟨hk.treeValid ▸ hv, hk.freq, hk.present⟩
  · exact clearAll_treeInv s
  · exact h.congr ⟨rfl, rfl, rfl⟩ hcur nofun
  · exact buildTree_treeInv hm hb
  · exact h.congr ⟨rfl, rfl, rfl⟩ hcur fun hv => ⟨hv, rfl, rfl⟩

theorem dequeue_treeInv (s : State) (rest : List HostEvent) (h : TreeInv s) : TreeInv (dequeue rest s) :=
  { h with }

/-- Settles O57, by the ways an operation can treat the tables and CUR. -/
theorem stepKeepsTheTreeInvariants : Obligations.StepKeepsTheTreeInvariants :=
  step_keeps dequeue_treeInv fun _ _ _ => Effect.treeInv

/-! ### All the invariants -/

theorem clearAll_tableInv (s : State) : TableInv (clearAll s) := fun x _ => by
  rw [clearAll_freq]
  exact atSym_replicate 0#32 x

theorem clearAll_codeInv (s : State) : CodeInv (clearAll s) where
  beyond x i _ := by
    rw [clearAll_codeWord]
    exact (congrArg (codeBit · i) (atSym_replicate _ x)).trans (codeBit_zero i)
  current := nofun

theorem clearAll_inv (s : State) : Inv (clearAll s) :=
  ⟨clearAll_tableInv s, clearAll_controlInv s, clearAll_treeInv s, clearAll_codeInv s⟩

theorem Effect.tableInv {i : Instr} {s t : State} (h : TableInv s) (he : Effect i s t) : TableInv t := by
  obtain hk | ⟨-, rfl⟩ | ⟨x, v, -, rfl⟩ | ⟨-, -, -, rfl⟩ | ⟨-, c, -, rfl⟩ := he.tables
  · intro x
    rw [hk.present, hk.freq]
    exact h x
  · exact clearAll_tableInv s
  · exact h.load x v
  · exact h.filler
  · exact h

/-- A code table with its bits past CODE_LEN 0 stays one while it is the same, and current while the tree is
the same too, or while it is not marked valid. -/
theorem CodeInv.congr {s t : State} (h : CodeInv s) (hl : t.codeLen = s.codeLen) (hw : t.codeWord = s.codeWord)
    (hv : t.codesValid = true →
      s.codesValid = true ∧ t.nleaf = s.nleaf ∧ t.root = s.root ∧ t.nodes = s.nodes) : CodeInv t where
  beyond := by rw [hl, hw]; exact h.beyond
  current hc := by
    obtain ⟨hs, hn, hr, ha⟩ := hv hc
    rw [deriveCodes_congr hn hr ha, hl, hw]
    exact h.current hs

/-- GEN_CODES needs the tree invariants: a code longer than its path would leave bits past CODE_LEN. -/
theorem Effect.codeInv {i : Instr} {s t : State} (h : CodeInv s) (ht : TreeInv s) (he : Effect i s t) :
    CodeInv t := by
  obtain hk | ⟨-, rfl⟩ | ⟨x, v, -, rfl⟩ | ⟨-, -, -, rfl⟩ | ⟨-, c, hc, rfl⟩ := he.tables
  · exact h.congr hk.codeLen hk.codeWord fun hv => ⟨hk.codesValid ▸ hv, hk.nleaf, hk.root, hk.nodes⟩
  · exact clearAll_codeInv s
  · exact h.congr rfl rfl nofun
  · obtain ⟨hl, hw⟩ := buildTree_codeTable s
    exact h.congr hl hw nofun
  · exact ⟨deriveCodes_beyond ht hc, fun _ => (deriveCodes_congr rfl rfl rfl).trans hc⟩

theorem Effect.inv {i : Instr} {s t : State} (h : Inv s) (he : Effect i s t) : Inv t :=
  ⟨he.tableInv h.table, he.controlInv h.control, he.treeInv h.tree, he.codeInv h.codes h.tree⟩

theorem dequeue_inv (s : State) (rest : List HostEvent) (h : Inv s) : Inv (dequeue rest s) :=
  ⟨h.table, dequeue_controlInv s rest h.control, dequeue_treeInv s rest h.tree, { h.codes with }⟩

/-- Settles O58, by the effects of one operation on each group of invariants. -/
theorem stepKeepsTheInvariants : Obligations.StepKeepsTheInvariants :=
  step_keeps dequeue_inv fun _ _ _ => Effect.inv

/-- Settles O55: the reset state is the reset state cleared. -/
theorem invariantsHoldAtReset : Obligations.InvariantsHoldAtReset :=
  clearAll_inv State.reset

/-! ### IN_READY (R45) -/

theorem inReady_noError {s : State} (h : inReady s = true) : s.err = .noError := by
  simp only [inReady, Bool.and_eq_true, decide_eq_true_eq] at h
  exact h.1

theorem inReady_encRoom {s : State} (h : inReady s = true) (hm : s.mode = .enc) :
    Config.encRoom ≤ freeRoom s := by
  simpa [inReady, hm, inReady_noError h] using h

theorem inReady_decRoom {s : State} (h : inReady s = true) (hm : s.mode = .dec) :
    Config.decRoom ≤ freeRoom s := by
  simpa [inReady, hm, inReady_noError h] using h

/-- With room a write to ENC_DATA raises E_NOSYM or nothing (R166). -/
theorem execWrEncData_err {d : Word} {s t : State} (herr : s.err = .noError) (hm : s.mode = .enc)
    (hroom : Config.encRoom ≤ freeRoom s) (h : execWrEncData d s = .next t) :
    t.err = .noSym ∨ t.err = .noError := by
  rw [execWrEncData, gated_clear herr, requireMode_met hm, if_neg (Nat.not_lt.2 hroom)] at h
  split at h <;> cases h
  · exact .inl rfl
  · right
    change (packBits s _).err = _
    rw [packBits_frame]
    exact herr

/-- With room a write to DEC_DATA raises E_TRUNCATED or nothing (R189, R191). -/
theorem execWrDecData_err {d : Word} {s t : State} (herr : s.err = .noError) (hm : s.mode = .dec)
    (hroom : Config.decRoom ≤ freeRoom s) (h : execWrDecData d s = .next t) :
    t.err = .truncated ∨ t.err = .noError := by
  rw [execWrDecData, gated_clear herr, requireMode_met hm, if_neg (Nat.not_lt.2 hroom)] at h
  split at h <;> cases h
  next u hu =>
    have hu : u.err = .noError := by rw [walkBits_frame hu]; exact herr
    obtain ⟨-, e⟩ | ⟨-, -, e⟩ | ⟨-, -, e⟩ := countByte_cases u <;> rw [e]
    · exact .inr hu
    · exact .inr hu
    · exact .inl rfl

/-- Settles O50: IN_READY promises the room each data register checks for. -/
theorem inReadyMeansRoom : Obligations.InReadyMeansRoom := by
  intro s t d h
  refine ⟨fun hm hx => ?_, fun hm hx => ?_⟩
  · obtain e | e := execWrEncData_err (inReady_noError h) hm (inReady_encRoom h hm) hx <;> simp [e]
  · obtain e | e := execWrDecData_err (inReady_noError h) hm (inReady_decRoom h hm) hx <;> simp [e]

end Sys2Proof.Machine
end

section
/-! PROOFS of the memory statements (20_memory.md): which part of an access counts, that an access of no row is
harmless, that a read changes nothing but the reply, and that every access completes. -/

namespace Sys2Proof.Machine

/-! ### Low address bits and byte enables (R61, R62) -/

/-- What an access does depends on the operation the decoder finds, not on its reason to refuse (R64, R65). -/
theorem performAccess_eq (a : Access) (s : State) :
    performAccess a s = (found (decodeBus a)).elim (.next (reservedAccess a s)) fun i => exec i s := by
  cases h : decodeBus a with
  | ok i => exact performAccess_of_ok h s
  | error r => exact performAccess_of_error h s

theorem performAccess_read_congr {off off' : Offset} (h : wordOffset off = wordOffset off') (s : State) :
    performAccess (.read off) s = performAccess (.read off') s := by
  have hfound : found (decodeBus (.read off)) = found (decodeBus (.read off')) := decodeRead_congr h
  rw [performAccess_eq, performAccess_eq, hfound]
  rfl

theorem performAccess_write_congr {off off' : Offset} (h : wordOffset off = wordOffset off') (d : Word)
    (s : State) : performAccess (.write off d) s = performAccess (.write off' d) s := by
  have hfound : found (decodeBus (.write off d)) = found (decodeBus (.write off' d)) := decodeWrite_congr d h
  rw [performAccess_eq, performAccess_eq, hfound]
  rfl

theorem offsetOf_eq_setWidth {n : Nat} {base : BitVec n} (hn : 16 ≤ n) (hb : base.toNat % 0x10000 = 0)
    (addr : BitVec n) : offsetOf base addr = addr.setWidth 16 := by
  apply BitVec.eq_of_toNat_eq
  rw [offsetOf_toNat base addr hn hb, BitVec.toNat_setWidth]

/-- Addresses in one word of the platform's memory have offsets in one word of the window. -/
theorem wordOffset_offsetOf_congr {n : Nat} {base addr addr' : BitVec n} (hn : 16 ≤ n)
    (hb : base.toNat % 0x10000 = 0) (h : addr.toNat / 4 = addr'.toNat / 4) :
    wordOffset (offsetOf base addr) = wordOffset (offsetOf base addr') := by
  simp only [wordOffset, offsetOf_toNat base _ hn hb]
  omega

/-- Settles O13, by the direction of the access: the decoder sees the word of the offset alone. -/
theorem lowAddressBitsAndByteEnablesAreIgnored : Obligations.LowAddressBitsAndByteEnablesAreIgnored := by
  intro n base hn hb
  refine ⟨offsetOf_eq_setWidth hn hb, ?_⟩
  rintro ⟨dir, addr, _, data⟩ ⟨_, addr', _, _⟩ s rfl rfl haddr
  have hword : wordOffset (offsetOf base addr) = wordOffset (offsetOf base addr') :=
    wordOffset_offsetOf_congr hn hb haddr
  cases dir with
  | read => exact performAccess_read_congr hword s
  | write => exact performAccess_write_congr hword data s

/-! ### Accesses that match no row (R64, R65) -/

theorem step_of_rejected {s : State} {a : Access} {rest : List HostEvent} {r : Reject}
    (hp : s.pending = .access a :: rest) (hr : decodeBus a = .error r) :
    step s = .next (reservedAccess a (dequeue rest s)) :=
  (step_of_access hp).trans (performAccess_of_error hr _)

/-- Settles O8: the step performs a rejected access as a reserved one. -/
theorem reservedAccessesReadZeroAndDoNothing : Obligations.ReservedAccessesReadZeroAndDoNothing :=
  fun _ _ _ _ _ => ⟨step_of_rejected, step_of_rejected⟩

/-! ### Reads (R66) -/

/-- What a read does, the pop of RD_OUT_DATA included, does not depend on the word read before it. -/
theorem exec_read_ignores_reply {i : Instr} (hr : isRead i = true) (s : State) (r : Option Word) :
    exec i { s with reply := r } = exec i s := by
  cases i with
  | nop | clear | buildTree | genCodes | encStart | encFinish | decStart | abort | ackErr | wrCmd _
  | wrFreq _ _ | wrEncData _ | wrPad _ | wrDecLenLo _ | wrDecLenHi _ | wrDecData _ => cases hr
  | rdOutData =>
    change execRdOutData { s with reply := r } = execRdOutData s
    cases ho : s.out <;> simp [execRdOutData, popOut, ho]
  | _ => rfl

/-- Settles O53: the second read answers what the first did, since a read does not look at the reply. -/
theorem onlyOutDataReadsHaveASideEffect : Obligations.OnlyOutDataReadsHaveASideEffect := by
  intro i s hr hi
  obtain ⟨w, hw⟩ := read_next hr hi s
  exact ⟨w, hw, (exec_read_ignores_reply hr s (some w)).trans hw⟩

/-! ### Every access completes (R68) -/

/-- An operation answers a next state: no fault and no refusal. -/
def Completes (r : Result) : Prop := ∃ t, r = .next t

theorem completes_next (t : State) : Completes (.next t) := ⟨t, rfl⟩

theorem completes_ite {p : Prop} [Decidable p] {a b : Result} (ha : p → Completes a) (hb : ¬ p → Completes b) :
    Completes (if p then a else b) := by
  split
  · exact ha ‹_›
  · exact hb ‹_›

theorem completes_raiseError (e : ErrCode) (info : Word) (s : State) : Completes (raiseError e info s) :=
  completes_next _

theorem completes_gated {s : State} {b : Result} (h : s.err = .noError → Completes b) : Completes (gated s b) :=
  completes_ite h fun _ => completes_next s

/-- A gated operation with a mode check completes if its body does in that mode. -/
theorem completes_gated_mode {m : Mode} {info : Word} {s : State} {b : Result}
    (h : s.mode = m → Completes b) : Completes (gated s <| requireMode m info s b) :=
  completes_gated fun _ => completes_ite h fun _ => completes_raiseError _ _ s

/-- The code walk reaches every leaf, so it stops nowhere (R138, R151). -/
theorem TreeInv.deriveCodes_ok {s : State} (h : TreeInv s) : ∃ c, deriveCodes s = .ok c := by
  obtain hempty | ⟨htwo, -⟩ := h.count
  · exact ⟨_, deriveCodes_empty hempty⟩
  · obtain ⟨c, hc, -⟩ := deriveCodes_spec h htwo
    exact ⟨c, hc⟩

/-- In a decode stream CUR is an internal node, so every walk goes on (R190). -/
theorem TreeInv.walk_ok {s : State} (h : TreeInv s) (hm : s.mode = .dec) (l : List Bool) :
    ∃ u, walkBits s l = .ok u := by
  have htwo := h.two_leaves hm
  obtain ⟨hlo, hhi⟩ := h.cur_internal hm
  obtain ⟨u, hu, -⟩ := walkBits_ok h.shape (h.root_toNat htwo) htwo hlo hhi l
  exact ⟨u, hu⟩

theorem execBuildTree_completes (s : State) : Completes (execBuildTree s) :=
  completes_gated_mode fun _ => by
    split
    · exact completes_raiseError _ _ s
    · exact completes_next _

theorem execGenCodes_completes {s : State} (h : TreeInv s) : Completes (execGenCodes s) := by
  obtain ⟨c, hc⟩ := h.deriveCodes_ok
  refine completes_gated_mode fun _ => completes_ite (fun _ => completes_raiseError _ _ s) fun _ => ?_
  rw [hc]
  exact completes_next _

theorem execDecStart_completes (s : State) : Completes (execDecStart s) :=
  completes_gated_mode fun _ =>
    completes_ite (fun _ => completes_raiseError _ _ s) fun _ =>
    completes_ite (fun _ => completes_raiseError _ _ s) fun _ =>
    completes_ite (fun _ => completes_raiseError _ _ s) fun _ =>
    completes_ite (fun _ => completes_raiseError _ _ s) fun _ =>
    completes_ite (fun _ => completes_raiseError _ _ s) fun _ =>
    completes_ite (fun _ => completes_next _) fun _ => completes_next _

theorem execWrEncData_completes (d : Word) (s : State) : Completes (execWrEncData d s) :=
  completes_gated_mode fun _ =>
    completes_ite (fun _ => completes_raiseError _ _ s) fun _ =>
    completes_ite (fun _ => completes_raiseError _ _ s) fun _ => completes_next _

theorem execWrDecData_completes {s : State} (h : TreeInv s) (d : Word) : Completes (execWrDecData d s) := by
  refine completes_gated_mode fun hm => completes_ite (fun _ => completes_raiseError _ _ s) fun _ => ?_
  obtain ⟨u, hu⟩ := h.walk_ok hm (payloadBits s (dataByte d))
  rw [hu]
  exact completes_next _

theorem command_completes {s : State} (h : TreeInv s) (c : Cmd) : Completes (exec c.toInstr s) := by
  cases c with
  | nop => exact completes_next s
  | clear => exact completes_next _
  | buildTree => exact execBuildTree_completes s
  | genCodes => exact execGenCodes_completes h
  | encStart =>
    exact completes_gated_mode fun _ => completes_ite (fun _ => completes_raiseError _ _ s) fun _ => completes_next _
  | encFinish =>
    exact completes_gated_mode fun _ => completes_ite (fun _ => completes_raiseError _ _ s) fun _ => completes_next _
  | decStart => exact execDecStart_completes s
  | abort => exact completes_gated fun _ => completes_ite (fun _ => completes_next s) fun _ => completes_next _
  | ackErr => exact completes_next _

theorem read_completes {i : Instr} (hr : isRead i = true) (s : State) : Completes (exec i s) := by
  by_cases hi : i = .rdOutData
  · subst hi
    obtain ⟨-, h⟩ | ⟨_, _, -, h⟩ := execRdOutData_eq s
    · exact ⟨_, h⟩
    · exact ⟨_, h⟩
  · obtain ⟨_, h⟩ := read_next hr hi s
    exact ⟨_, h⟩

/-- Only the two walks can stop, and the tree invariants keep both on the tree. -/
theorem exec_completes {s : State} (h : TreeInv s) (i : Instr) : Completes (exec i s) := by
  cases i with
  | nop => exact command_completes h .nop
  | clear => exact command_completes h .clear
  | buildTree => exact command_completes h .buildTree
  | genCodes => exact command_completes h .genCodes
  | encStart => exact command_completes h .encStart
  | encFinish => exact command_completes h .encFinish
  | decStart => exact command_completes h .decStart
  | abort => exact command_completes h .abort
  | ackErr => exact command_completes h .ackErr
  | wrCmd w =>
    obtain ⟨c, -, he⟩ | ⟨-, t, ht, -⟩ := execWrCmd_cases w s
    · rw [he]
      exact command_completes h c
    · exact ⟨t, ht⟩
  | wrFreq x d => exact completes_gated_mode fun _ => completes_next _
  | wrEncData d => exact execWrEncData_completes d s
  | wrPad d => exact completes_gated_mode fun _ => completes_next _
  | wrDecLenLo d => exact completes_gated_mode fun _ => completes_next _
  | wrDecLenHi d => exact completes_gated_mode fun _ => completes_next _
  | wrDecData d => exact execWrDecData_completes h d
  | _ => exact read_completes rfl s

theorem step_completes {s : State} (h : TreeInv s) : Completes (step s) := by
  cases hp : s.pending with
  | nil => exact ⟨s, step_of_nothing_pending hp⟩
  | cons e rest =>
    cases e with
    | reset => exact ⟨_, step_of_reset hp⟩
    | access a =>
      cases hd : decodeBus a with
      | ok i =>
        rw [step_of_access hp, performAccess_of_ok hd]
        exact exec_completes (dequeue_treeInv s rest h) i
      | error r => exact ⟨_, step_of_rejected hp hd⟩

/-- Settles O59: of the invariants those of the tree are enough. -/
theorem everyAccessCompletes : Obligations.EveryAccessCompletes :=
  fun _ h => ⟨exec_completes h.tree, step_completes h.tree⟩

end Sys2Proof.Machine
end

section
/-! PROOFS of the encoding statements (30_encoding.md): decoder and encoder are inverse on the operations, an access
is rejected by its key alone, and which command words are legal. -/

namespace Sys2Proof.Machine

/-! ### Decoding an encoding (R100 to R105) -/

/-- Settles O10: the operations with an operand in their offset have their window's round trip; the others have one
fixed word or offset. -/
theorem decodeInvertsEncode : Obligations.DecodeInvertsEncode := by
  intro i h
  cases i with
  | wrFreq x d => exact Laws.RoundTrip.wrFreq x d h
  | rdFreq x => exact Laws.RoundTrip.rdFreq x h
  | rdPresent k => exact Laws.RoundTrip.rdPresent k h
  | rdNodeInfo n => exact Laws.RoundTrip.rdNodeInfo n h
  | rdNodeWlo n => exact Laws.RoundTrip.rdNodeWlo n h
  | rdNodeWhi n => exact Laws.RoundTrip.rdNodeWhi n h
  | rdCodeLen x => exact Laws.RoundTrip.rdCodeLen x h
  | rdCodeWord x k => exact Laws.RoundTrip.rdCodeWord x k h
  | _ => rfl

/-! ### The access key (R100, R103) -/

theorem key_read_congr {off off' : Offset} (h : wordOffset off = wordOffset off') :
    (Access.read off).key = (Access.read off').key := by
  apply BitVec.eq_of_toNat_eq
  rw [key_read, key_read, h]

theorem key_write_congr {off off' : Offset} (h : wordOffset off = wordOffset off') (d : Word) :
    (Access.write off d).key = (Access.write off' d).key := by
  apply BitVec.eq_of_toNat_eq
  rw [key_write, key_write, h]

/-- Whether an access matches a row depends on its key alone, not on the data word of a write. -/
theorem decodeBus_isSome_of_key {a b : Access} (h : b.key = a.key) :
    (found (decodeBus b)).isSome = (found (decodeBus a)).isSome := by
  obtain ⟨o, o', rfl, rfl, ho⟩ | ⟨o, o', d, d', rfl, rfl, ho⟩ := key_eq_cases h
  · exact congrArg Option.isSome (decodeRead_congr ho)
  · calc (found (decodeWrite o' d')).isSome
        = (found (decodeWrite o d')).isSome := congrArg Option.isSome (decodeWrite_congr d' ho)
      _ = (found (decodeWrite o d)).isSome := decodeWrite_isSome o d' d

theorem decodeBus_rejects_iff (a : Access) :
    (∃ r, decodeBus a = .error r) ↔ (found (decodeBus a)).isSome = false := by
  cases decodeBus a <;> simp

/-- Settles O11, by the direction of the access. -/
theorem encodeInvertsDecode : Obligations.EncodeInvertsDecode := by
  intro a i h
  cases a with
  | read off =>
    obtain ⟨hwf, off', henc, hoff⟩ := encode_decodeRead h
    refine ⟨hwf, _, henc, key_read_congr hoff, ?_⟩
    rintro _ _ ⟨⟩
  | write off d =>
    obtain ⟨hwf, off', henc, hoff⟩ := encode_decodeWrite h
    refine ⟨hwf, _, henc, key_write_congr hoff d, ?_⟩
    rintro _ _ ⟨⟩
    exact ⟨off', rfl⟩

/-- Settles O9: an access with the key of an operation's encoding matches a row as that encoding does, and an access
that matches a row has the key of what it decodes to, encoded again. -/
theorem rejectedAccessesMatchNoRow : Obligations.RejectedAccessesMatchNoRow := by
  intro a
  rw [decodeBus_rejects_iff]
  constructor
  · intro hrej i a' hwf henc hkey
    have hdec : decodeBus a' = .ok i := by
      have hround := decodeInvertsEncode i hwf
      rwa [henc] at hround
    have hmatch := decodeBus_isSome_of_key hkey
    rw [hdec, hrej] at hmatch
    cases hmatch
  · intro hkeys
    cases hdec : decodeBus a with
    | error r => rfl
    | ok i =>
      obtain ⟨hwf, a', henc, hkey, -⟩ := encodeInvertsDecode a i hdec
      exact absurd hkey (hkeys i a' hwf henc)

/-! ### Command words (R101, R102, R104) -/

theorem cmdOfOpcode_eq_none_iff (op : Byte) : cmdOfOpcode op = none ↔ 8 < op.toNat := by
  unfold cmdOfOpcode
  iterate 9
    split
    · subst op; decide
  exact iff_of_true rfl (by bv_omega)

theorem decodeCmd_ok_iff (w : Word) :
    (∃ c, decodeCmd w = .ok c) ↔ cmdReserved w = 0#24 ∧ (cmdOpcode w).toNat ≤ 8 := by
  rw [← not_lt, ← cmdOfOpcode_eq_none_iff]
  unfold decodeCmd
  by_cases hr : cmdReserved w = 0#24
  · cases hc : cmdOfOpcode (cmdOpcode w) <;> simp [hr]
  · simp [hr]

/-- What a write of a word that is no command does, with its gating (R104, 60_exceptions.md R235). -/
theorem exec_wrCmd_of_illegal {w : Word} (h : ¬ ∃ c, decodeCmd w = .ok c) (s : State) :
    exec (.wrCmd w) s = gated s (raiseError .illegal w s) := by
  obtain ⟨c, hc, -⟩ | ⟨-, _, -, -, he⟩ := execWrCmd_cases w s
  · exact absurd ⟨c, hc⟩ h
  · exact he

/-- Settles O5, by the legality of the word and by what a write of an illegal one does. -/
theorem illegalCommandWordsRaiseIllegal : Obligations.IllegalCommandWordsRaiseIllegal := by
  intro w
  refine ⟨decodeCmd_ok_iff w, fun s hill => ?_⟩
  have hexec := exec_wrCmd_of_illegal (mt (decodeCmd_ok_iff w).mp hill) s
  exact ⟨fun herr => hexec.trans (gated_clear herr _), fun herr => hexec.trans (gated_error herr _)⟩

/-- Settles O6: each of the nine words decodes to its command, which then runs. -/
theorem commandWordsRunTheirCommands : Obligations.CommandWordsRunTheirCommands := fun s =>
  ⟨exec_wrCmd_of_ok (c := .nop) rfl s, exec_wrCmd_of_ok (c := .clear) rfl s,
    exec_wrCmd_of_ok (c := .buildTree) rfl s, exec_wrCmd_of_ok (c := .genCodes) rfl s,
    exec_wrCmd_of_ok (c := .encStart) rfl s, exec_wrCmd_of_ok (c := .encFinish) rfl s,
    exec_wrCmd_of_ok (c := .decStart) rfl s, exec_wrCmd_of_ok (c := .abort) rfl s,
    exec_wrCmd_of_ok (c := .ackErr) rfl s⟩

/-- Settles O12: two command words and one key by the table's numbering, then six accesses at their offsets. -/
theorem specWordsDecode : Obligations.SpecWordsDecode :=
  ⟨rfl, rfl, rfl, rfl, rfl, rfl, rfl, rfl, rfl⟩

end Sys2Proof.Machine
end

section
/-! PROOFS of the frequency table statements (40_freq_table.md): a load of one symbol's frequency, and what the reads
of the table return. -/

namespace Sys2Proof.Machine

/-! ### Loading a frequency (R120) -/

theorem exec_wrFreq_eq_gated (x : Byte) (v : Word) (s : State) :
    exec (.wrFreq x v) s = gated s (requireMode .idle (regWriteInfo (freqOffset x)) s
      (.next { loadFreq x v s with treeValid := false, codesValid := false })) := rfl

/-- The FREQ window lies inside the 16 bits of an offset, so the reported offset is exact (R63, R232). -/
theorem regWriteInfo_freqOffset (x : Byte) :
    regWriteInfo (freqOffset x) = 0x00010000#32 ||| BitVec.ofNat 32 (0x400 + 4 * x.toNat) := by
  have hoff : (freqOffset x).setWidth 32 = BitVec.ofNat 32 (0x400 + 4 * x.toNat) :=
    BitVec.setWidth_ofNat_of_le_of_lt (by decide) (by have := x.isLt; omega)
  rw [regWriteInfo, hoff]

theorem exec_wrFreq_in_stream {s : State} (herr : s.err = .noError) (hm : s.mode ≠ .idle) (x : Byte) (v : Word) :
    exec (.wrFreq x v) s =
      .next (errorEntry .state (0x00010000#32 ||| BitVec.ofNat 32 (0x400 + 4 * x.toNat)) s) := by
  rw [exec_wrFreq_eq_gated, gated_clear herr, requireMode_unmet hm, regWriteInfo_freqOffset]

theorem exec_wrFreq_idle {s : State} (herr : s.err = .noError) (hm : s.mode = .idle) (x : Byte) (v : Word) :
    exec (.wrFreq x v) s = .next { loadFreq x v s with treeValid := false, codesValid := false } := by
  rw [exec_wrFreq_eq_gated, gated_clear herr, requireMode_met hm]

/-- Settles O18, by the gate, the mode check and the load behind them. -/
theorem wrFreqLoadsOneSymbol : Obligations.WrFreqLoadsOneSymbol := by
  intro x v s
  refine ⟨fun herr => ?_, fun herr hm => exec_wrFreq_in_stream herr hm x v, fun herr hm => ?_⟩
  · rw [exec_wrFreq_eq_gated, gated_error herr]
  · exact ⟨_, exec_wrFreq_idle herr hm x v, fun y => atSym_putSym s.freq x y v,
      fun y => atSym_putSym s.present x y true, rfl⟩

/-! ### Reading the table (R121, R122) -/

theorem exec_rdFreq (x : Byte) (s : State) :
    exec (.rdFreq x) s = .next { s with reply := some (atSym s.freq x) } := rfl

theorem exec_rdPresent (k : BitVec 3) (s : State) :
    exec (.rdPresent k) s = .next { s with reply := some (presentWord s.present k) } := rfl

/-- The eight words of 32 bits cover the 256 symbols, so 32k + j is the symbol of bit j without wrapping. -/
theorem presentWord_getLsbD (v : SymFile Bool) (k : BitVec 3) {j : Nat} (hj : j < 32) :
    (presentWord v k).getLsbD j = atSym v (BitVec.ofNat 8 (32 * k.toNat + j)) := by
  have hsym : (BitVec.ofNat 8 (32 * k.toNat + j)).toNat = 32 * k.toNat + j :=
    Nat.mod_eq_of_lt (by have := k.isLt; omega)
  simp only [presentWord, BitVec.getLsbD_ofFnLE, dif_pos hj, atSym, hsym]

/-- Settles O19: the absent symbol by the table invariant, the presence word bit by bit. -/
theorem freqAndPresentReads : Obligations.FreqAndPresentReads := by
  intro s
  refine ⟨fun x => exec_rdFreq x s, fun x hinv habs => ?_, fun k => ?_⟩
  · rw [exec_rdFreq, hinv x habs]
  · exact ⟨_, exec_rdPresent k s, fun j hj => presentWord_getLsbD s.present k hj⟩

end Sys2Proof.Machine
end

section
/-! PROOFS of the tree builder's statements (41_tree_builder.md): the order of two FREQ writes, BUILD_TREE's checks and
outcomes, the built tree by its invariant, and the reads of the node records. -/

namespace Sys2Proof.Machine

/-! ### The order of two frequency loads (R134) -/

theorem putSym_comm {α : Type} (v : SymFile α) {x y : Byte} (hxy : x ≠ y) (a b : α) :
    putSym (putSym v x a) y b = putSym (putSym v y b) x a :=
  Vector.set_comm a b (mt BitVec.eq_of_toNat_eq hxy)

theorem loadFreq_comm {x y : Byte} (hxy : x ≠ y) (v w : Word) (s : State) :
    loadFreq y w (loadFreq x v s) = loadFreq x v (loadFreq y w s) := by
  simp only [loadFreq, putSym_comm _ hxy]

theorem exec_wrFreq_after_wrFreq {s : State} (herr : s.err = .noError) (hm : s.mode = .idle) (x y : Byte) (v w : Word) :
    exec (.wrFreq y w) { loadFreq x v s with treeValid := false, codesValid := false } =
      .next { loadFreq y w (loadFreq x v s) with treeValid := false, codesValid := false } :=
  exec_wrFreq_idle (s := { loadFreq x v s with treeValid := false, codesValid := false }) herr hm y w

/-- Settles O20: two writes load both symbols, and loads of different symbols commute. -/
theorem freqWriteOrderDoesNotMatter : Obligations.FreqWriteOrderDoesNotMatter := by
  intro s x y v w herr hm hxy
  refine ⟨_, _, _, exec_wrFreq_idle herr hm x v, exec_wrFreq_after_wrFreq herr hm x y v w,
    exec_wrFreq_idle herr hm y w, ?_⟩
  rw [loadFreq_comm hxy]
  exact exec_wrFreq_after_wrFreq herr hm y x w v

/-! ### BUILD_TREE's checks (R131) -/

theorem exec_buildTree_of_error {s : State} (herr : s.err ≠ .noError) : exec .buildTree s = .next s :=
  gated_error herr _

theorem exec_buildTree_in_stream {s : State} (herr : s.err = .noError) (hm : s.mode ≠ .idle) :
    exec .buildTree s = .next (errorEntry .state 0x00000002#32 s) :=
  (gated_clear herr _).trans (requireMode_unmet hm _ _)

theorem exec_buildTree_of_bad {s : State} {x : Byte} (herr : s.err = .noError) (hm : s.mode = .idle)
    (hbad : firstBadFreq s = some x) :
    exec .buildTree s = .next (errorEntry .badFreq (x.setWidth 32) s) := by
  change execBuildTree s = _
  rw [execBuildTree, gated_clear herr, requireMode_met hm, hbad]
  rfl

theorem exec_buildTree_of_legal {s : State} (herr : s.err = .noError) (hm : s.mode = .idle)
    (hlegal : firstBadFreq s = none) : exec .buildTree s = .next (buildTree s) := by
  change execBuildTree s = _
  rw [execBuildTree, gated_clear herr, requireMode_met hm, hlegal]

/-- Settles O21: the gate, the mode check, and the smallest bad symbol is the one check_frequencies reports. -/
theorem buildTreeChecks : Obligations.BuildTreeChecks := by
  intro s
  refine ⟨exec_buildTree_of_error, exec_buildTree_in_stream, fun x herr hm hpres hbad hmin => ?_⟩
  refine exec_buildTree_of_bad herr hm (firstBadFreq_some.2 ⟨hpres, hbad, fun y hlt hy => ?_⟩)
  have hgood := hmin y hlt hy.1
  exact absurd (hgood.symm.trans hy.2) (by decide)

/-! ### The fields of a built state (R130, R137) -/

theorem buildTree_frame (s : State) :
    buildTree s = { s with freq := (buildTree s).freq, present := (buildTree s).present,
                           nodes := (buildTree s).nodes, nleaf := (buildTree s).nleaf,
                           root := (buildTree s).root, cur := (buildTree s).root,
                           treeValid := true, codesValid := false } := by
  have hfiller := addFiller_frame s
  unfold buildTree
  generalize addFiller s = t at hfiller ⊢
  rw [hfiller]

theorem buildTree_freq (s : State) : (buildTree s).freq = (addFiller s).freq := rfl

theorem buildTree_present (s : State) : (buildTree s).present = (addFiller s).present := rfl

theorem presentSymbols_buildTree (s : State) : presentSymbols (buildTree s) = presentSymbols (addFiller s) :=
  presentSymbols_congr rfl

theorem buildTree_symbolCount_ne_one (s : State) : (presentSymbols (buildTree s)).length ≠ 1 := by
  rw [presentSymbols_buildTree]
  exact addFiller_count s

theorem buildTree_nleaf (s : State) : (buildTree s).nleaf = BitVec.ofNat 9 (presentSymbols (buildTree s)).length := rfl

theorem buildTree_nleaf_toNat (s : State) : (buildTree s).nleaf.toNat = (presentSymbols (buildTree s)).length := by
  have hle := presentSymbols_length_le (buildTree s)
  rw [buildTree_nleaf, BitVec.toNat_ofNat]
  omega

theorem buildTree_root (s : State) : (buildTree s).root = rootIndex (presentSymbols (buildTree s)).length := rfl

theorem rootIndex_zero : rootIndex 0 = 0x1FF#9 := rfl

theorem buildTree_two_leaves {s : State} (hsome : ∃ x, atSym s.present x = true) :
    2 ≤ (buildTree s).nleaf.toNat := by
  obtain ⟨x, hx⟩ := hsome
  have hmem : x ∈ presentSymbols (buildTree s) := mem_presentSymbols.2 (addFiller_present_mono hx)
  have hpos := List.length_pos_of_mem hmem
  have hne := buildTree_symbolCount_ne_one s
  rw [buildTree_nleaf_toNat]
  omega

/-! ### The filler (R133) -/

theorem buildTree_freq_of_single {s : State} {r : Byte} (h : presentSymbols s = [r]) (x : Byte) :
    atSym (buildTree s).freq x = if x = fillerFor r then 1#32 else atSym s.freq x := by
  rw [buildTree_freq, addFiller_single h, loadFreq_freq, atSym_putSym]

theorem buildTree_present_of_single {s : State} {r : Byte} (h : presentSymbols s = [r]) (x : Byte) :
    atSym (buildTree s).present x = if x = fillerFor r then true else atSym s.present x := by
  rw [buildTree_present, addFiller_single h, loadFreq_present, atSym_putSym]

theorem buildTree_present_iff_of_single {s : State} {r : Byte} (h : presentSymbols s = [r]) (x : Byte) :
    atSym (buildTree s).present x = true ↔ x = r ∨ x = fillerFor r := by
  have hreal := presentSymbols_eq_singleton.1 h x
  rw [buildTree_present_of_single h]
  split
  · next hfiller => simp [hfiller]
  · next hother => simp [hother, hreal]

theorem buildTree_symbolCount_of_single {s : State} {r : Byte} (h : presentSymbols s = [r]) :
    (presentSymbols (buildTree s)).length = 2 := by
  have hpair : [r, fillerFor r].Nodup := by simp [(fillerFor_ne r).symm]
  have hperm : (presentSymbols (buildTree s)).Perm [r, fillerFor r] :=
    (List.perm_ext_iff_of_nodup (presentSymbols_nodup _) hpair).2 fun x => by
      simp [mem_presentSymbols, buildTree_present_iff_of_single h]
  exact hperm.length_eq

/-- Settles O23: the table of one symbol gains the filler, so the tree has two leaves under node 2. -/
theorem buildTreeAddsTheFiller : Obligations.BuildTreeAddsTheFiller := by
  intro s r herr hm hr hlegal
  have hsingle := presentSymbols_eq_singleton.2 hr
  have hcount := buildTree_symbolCount_of_single hsingle
  have hgood : firstBadFreq s = none := firstBadFreq_none.2 fun x hx => by rw [(hr x).1 hx, hlegal]
  refine ⟨_, exec_buildTree_of_legal herr hm hgood, ?_, ?_, buildTree_present_iff_of_single hsingle,
    buildTree_freq_of_single hsingle⟩
  · rw [buildTree_nleaf, hcount]
  · rw [buildTree_root, hcount]; rfl

/-! ### The empty table (R132) -/

theorem presentSymbols_eq_nil {s : State} (h : ∀ x, atSym s.present x = false) : presentSymbols s = [] :=
  List.eq_nil_iff_forall_not_mem.2 fun x hx => by simp [mem_presentSymbols, h] at hx

theorem buildTree_of_empty {s : State} (h : presentSymbols s = []) :
    buildTree s = { s with nodes := State.reset.nodes, nleaf := 0#9, root := 0x1FF#9, cur := 0x1FF#9,
                           treeValid := true, codesValid := false } := by
  have hsame : addFiller s = s := addFiller_other (by simp [h])
  rw [buildTree, hsame, h, treeArena_nil]
  rfl

/-- Settles O22: no filler is added, and the arena of no symbols is the cleared one. -/
theorem buildTreeOfAnEmptyTable : Obligations.BuildTreeOfAnEmptyTable := by
  intro s herr hm habs
  have hgood : firstBadFreq s = none := firstBadFreq_none.2 fun x hx => by simp [habs] at hx
  have hbuilt := buildTree_of_empty (presentSymbols_eq_nil habs)
  refine ⟨_, exec_buildTree_of_legal herr hm hgood, ?_, ?_⟩
  · rw [hbuilt]; exact reset_nodes
  · rw [hbuilt]

/-! ### The tree of the current table -/

/-- A valid tree that is not empty: its leaves are the table's, every other record joins the two smallest queued
nodes, and the root weighs the sum of the frequencies (R134, R136, R138). -/
theorem TreeInv.current_spec {s : State} (h : TreeInv s) (hv : s.treeValid = true) (hpos : 0 < s.nleaf.toNat) :
    (∀ k (hk : k < (presentSymbols s).length),
      s.nodes[k]? = some (leafNode (presentSymbols s)[k] (atSym s.freq (presentSymbols s)[k]))) ∧
    (∀ i < 2 * s.nleaf.toNat - 1, s.nleaf.toNat ≤ i → JoinOk s.nodes s.nleaf.toNat i) ∧
    ∃ c, s.nodes[2 * s.nleaf.toNat - 2]? = some c ∧ c.weight.toNat = freqSum s.freq (presentSymbols s) := by
  obtain ⟨hlegal, hlen, hnodes⟩ := h.current hv
  have hsome : presentSymbols s ≠ [] := List.ne_nil_of_length_pos (hlen ▸ hpos)
  obtain ⟨hleaves, hjoins, -, -, hroot⟩ := treeArena_spec hsome (presentSymbols_length_le s)
    fun x hx => firstBadFreq_none.1 hlegal x (mem_presentSymbols.1 hx)
  rw [hlen, hnodes]
  exact ⟨hleaves, hjoins, hroot⟩

/-- Frequencies are below 2^31 and there are at most 256 of them, so no weight overflows (R138). -/
theorem freqSum_presentSymbols_lt {s : State} (hlegal : firstBadFreq s = none) :
    freqSum s.freq (presentSymbols s) < 2 ^ 39 := by
  have hsum := freqSum_lt fun x hx => firstBadFreq_none.1 hlegal x (mem_presentSymbols.1 hx)
  have hle := presentSymbols_length_le s
  omega

/-- Settles O24: the table by the filler, the leaves by the tree of the current table, the zero records by the
tree's shape, and the frame. -/
theorem buildTreeSeedsTheLeavesInSymbolOrder : Obligations.BuildTreeSeedsTheLeavesInSymbolOrder := by
  intro s herr hm hlegal
  have hgood := firstBadFreq_none.2 hlegal
  have hinv := buildTree_treeInv hm hgood
  have hn := buildTree_nleaf_toNat s
  have hrest := hinv.shape.rest
  rw [hn] at hrest
  refine ⟨_, _, exec_buildTree_of_legal herr hm hgood, rfl, buildTree_symbolCount_ne_one s,
    presentSymbols_length_le _, fun hmany => ?_, fun r hr x => ?_, fun x => mem_presentSymbols,
    presentSymbols_ascending _, hn, fun htwo => ?_, fun hzero => ?_, fun k hk => ?_, hrest, buildTree_frame s⟩
  · rw [buildTree_freq, buildTree_present, addFiller_unchanged hmany]
    exact ⟨rfl, rfl⟩
  · have hsingle := presentSymbols_eq_singleton.2 hr
    exact ⟨buildTree_freq_of_single hsingle x, buildTree_present_of_single hsingle x⟩
  · rw [hinv.root_toNat (hn ▸ htwo), hn]
  · rw [buildTree_root, hzero, rootIndex_zero]
  · exact (hinv.current_spec rfl (by omega)).1 k hk

/-- Settles O25: each internal node of the tree of the current table joins the two smallest queued nodes. -/
theorem buildTreeMergesTheTwoSmallest : Obligations.BuildTreeMergesTheTwoSmallest := by
  intro s herr hm hlegal
  have hgood := firstBadFreq_none.2 hlegal
  refine ⟨_, exec_buildTree_of_legal herr hm hgood, fun i hlo hhi => ?_⟩
  obtain ⟨-, hjoins, -⟩ := (buildTree_treeInv hm hgood).current_spec rfl (by omega)
  obtain ⟨l, r, c, d, w, hnode, -, -, hmade⟩ := hjoins i hhi hlo
  exact ⟨l, r, c, d, w, hnode, hmade⟩

/-! ### Parents and paths (R138) -/

theorem TreeShape.no_common_child {a : Arena} {n i k j : Nat} (h : TreeShape a n) (hi : i < 2 * n - 1)
    (hni : n ≤ i) (hki : k < i) (hnk : n ≤ k) {c d : Node} (hc : a[i]? = some c) (hd : a[k]? = some d)
    (hcj : c.left.toNat = j ∨ c.right.toNat = j) : ¬ (d.left.toNat = j ∨ d.right.toNat = j) := by
  obtain ⟨hll, hlr, hrl, hrr⟩ := h.one_parent i hi hni k hki hnk c d hc hd
  rintro (hdj | hdj) <;> obtain hcj | hcj := hcj
  · exact hll (BitVec.eq_of_toNat_eq (hcj.trans hdj.symm))
  · exact hrl (BitVec.eq_of_toNat_eq (hcj.trans hdj.symm))
  · exact hlr (BitVec.eq_of_toNat_eq (hcj.trans hdj.symm))
  · exact hrr (BitVec.eq_of_toNat_eq (hcj.trans hdj.symm))

theorem TreeShape.existsUnique_parent {a : Arena} {n : Nat} (h : TreeShape a n) {j : Nat} (hj : j < 2 * n - 2) :
    ∃! i, n ≤ i ∧ i < 2 * n - 1 ∧ ∃ c, a[i]? = some c ∧ (c.left.toNat = j ∨ c.right.toNat = j) := by
  obtain ⟨i, c, hni, hi, hc, hcj⟩ := h.has_parent j hj
  refine ⟨i, ⟨hni, hi, c, hc, hcj⟩, ?_⟩
  rintro k ⟨hnk, hk, d, hd, hdj⟩
  obtain hlt | heq | hgt := Nat.lt_trichotomy k i
  · exact absurd hdj (h.no_common_child hi hni hlt hnk hc hd hcj)
  · exact heq
  · exact absurd hcj (h.no_common_child hk hnk hgt hni hd hc hdj)

theorem TreeInv.path_length {s : State} (h : TreeInv s) (htwo : 2 ≤ s.nleaf.toNat) {p : List Bool} {x : Byte}
    (hp : PathToLeaf s p x) : 1 ≤ p.length ∧ p.length ≤ s.nleaf.toNat - 1 := by
  obtain ⟨_, -, hcodes⟩ := deriveCodes_spec h htwo
  obtain ⟨hlo, hhi, -⟩ := (hcodes x).1 p hp
  exact ⟨hlo, hhi⟩

/-- Settles O26: the root's weight by the merges, the parents by the tree's shape, the depths by the code walk. -/
theorem builtTreesAreBinaryTrees : Obligations.BuiltTreesAreBinaryTrees := by
  intro s herr hm hlegal hsome
  have hgood := firstBadFreq_none.2 hlegal
  have hinv := buildTree_treeInv hm hgood
  have htwo := buildTree_two_leaves hsome
  obtain ⟨hbuilt, -⟩ := hinv.current rfl
  obtain ⟨-, -, c, hc, hw⟩ := hinv.current_spec rfl (by omega)
  refine ⟨_, exec_buildTree_of_legal herr hm hgood, htwo, ⟨c, ?_, ?_, hw⟩,
    fun j => hinv.shape.existsUnique_parent, fun p x => hinv.path_length htwo⟩
  · rw [nodeAt_eq, hinv.root_toNat htwo, hc]
  · rw [hw]; exact freqSum_presentSymbols_lt hbuilt

/-! ### BUILD_TREE repeated (R130, R133) -/

theorem buildTree_buildTree (s : State) : buildTree (buildTree s) = buildTree s := by
  have hsame : addFiller (buildTree s) = buildTree s := addFiller_other (buildTree_symbolCount_ne_one s)
  rw [buildTree, hsame]
  rfl

/-- Settles O27: the built table is legal and gains no second filler, so its tree is the one just built. -/
theorem buildTreeRepeatedChangesNothing : Obligations.BuildTreeRepeatedChangesNothing := by
  intro s herr hm hlegal
  have hgood := firstBadFreq_none.2 hlegal
  have hbuilt : firstBadFreq (buildTree s) = none := (buildTree_treeInv hm hgood).current rfl |>.1
  have hagain := exec_buildTree_of_legal (s := buildTree s) (by rw [buildTree_frame, herr])
    (by rw [buildTree_frame, hm]) hbuilt
  rw [buildTree_buildTree] at hagain
  exact ⟨_, exec_buildTree_of_legal herr hm hgood, hagain⟩

/-! ### Reading the node records (R139, R140) -/

theorem exec_rdNodeInfo (i : NodeIdx) (s : State) :
    exec (.rdNodeInfo i) s = .next { s with reply := some (nodeRegister s.nodes i nodeInfoWord) } := rfl

theorem exec_rdNodeWlo (i : NodeIdx) (s : State) :
    exec (.rdNodeWlo i) s = .next { s with reply := some (nodeRegister s.nodes i weightLow) } := rfl

theorem exec_rdNodeWhi (i : NodeIdx) (s : State) :
    exec (.rdNodeWhi i) s = .next { s with reply := some (nodeRegister s.nodes i weightHigh) } := rfl

theorem nodeRegister_of_some {a : Arena} {i : NodeIdx} {c : Node} (h : nodeAt a i = some c) (view : Node → Word) :
    nodeRegister a i view = view c := by
  rw [nodeRegister, h]

theorem nodeRegister_none (a : Arena) (view : Node → Word) : nodeRegister a 0x1FF#9 view = 0#32 := by
  have hnone : nodeAt a 0x1FF#9 = none := Vector.getElem?_eq_none (by decide)
  rw [nodeRegister, hnone]

theorem nodeInfoWord_bits (c : Node) : (nodeInfoWord c).getLsbD 31 = c.valid ∧
    (nodeInfoWord c).getLsbD 30 = c.leaf ∧ (nodeInfoWord c).getLsbD 8 = false := by
  simp only [nodeInfoWord, BitVec.getLsbD_append]
  simp

/-- Each window of NODE_INFO skips the fields to its right, then takes one field whole (R139). -/
theorem nodeInfoWord_windows (c : Node) : (nodeInfoWord c).extractLsb' 27 3 = 0#3 ∧
    (nodeInfoWord c).extractLsb' 18 9 = c.left ∧ (nodeInfoWord c).extractLsb' 9 9 = c.right ∧
    (nodeInfoWord c).extractLsb' 0 8 = c.sym := by
  unfold nodeInfoWord
  refine ⟨?_, ?_, ?_, BitVec.extractLsb'_append_eq_right⟩
  · iterate 4 rw [BitVec.extractLsb'_append_eq_of_le (by decide)]
    exact BitVec.extractLsb'_append_eq_right
  · iterate 3 rw [BitVec.extractLsb'_append_eq_of_le (by decide)]
    exact BitVec.extractLsb'_append_eq_right
  · iterate 2 rw [BitVec.extractLsb'_append_eq_of_le (by decide)]
    exact BitVec.extractLsb'_append_eq_right

theorem weight_toNat_eq (c : Node) :
    (weightHigh c).toNat < 256 ∧ c.weight.toNat = (weightLow c).toNat + 2 ^ 32 * (weightHigh c).toNat := by
  have hlt := c.weight.isLt
  simp only [weightLow, weightHigh, BitVec.toNat_setWidth, BitVec.extractLsb'_toNat, Nat.shiftRight_eq_div_pow]
  omega

/-- Settles O28: a record's word by its fields, its weight by the two halves, and 0 for the index of no record. -/
theorem nodeReads : Obligations.NodeReads := by
  intro s i
  refine ⟨fun c hc => ⟨⟨_, exec_rdNodeInfo i s, ?_⟩, _, _, exec_rdNodeWlo i s, exec_rdNodeWhi i s, ?_⟩,
    fun hi => ⟨_, nodeAt_of_lt s.nodes i hi⟩, ?_⟩
  · rw [nodeRegister_of_some hc]
    obtain ⟨hvalid, hleaf, hzero⟩ := nodeInfoWord_bits c
    obtain ⟨hzeros, hleft, hright, hsym⟩ := nodeInfoWord_windows c
    exact ⟨hvalid, hleaf, hzeros, hleft, hright, hzero, hsym⟩
  · rw [nodeRegister_of_some hc, nodeRegister_of_some hc]
    exact weight_toNat_eq c
  · rintro rfl
    rw [exec_rdNodeInfo, exec_rdNodeWlo, exec_rdNodeWhi, nodeRegister_none, nodeRegister_none, nodeRegister_none]
    exact ⟨rfl, rfl, rfl⟩

end Sys2Proof.Machine
end

section
/-! PROOF of the statement on the registers read in one word (R141, R171, R185, R193, R215, R217, R218). -/

namespace Sys2Proof.Machine

theorem accWord_toNat (n : BitVec 3) (a : Byte) : (accWord n a).toNat = 256 * n.toNat + a.toNat := by
  rw [accWord, BitVec.toNat_append, ← Nat.shiftLeft_add_eq_or_of_lt a.isLt, Nat.shiftLeft_eq, BitVec.toNat_append]
  simp [Nat.mul_comm]

/-- Settles O51: each read answers its register, widened to a word without loss. -/
theorem narrowRegisterReads : Obligations.NarrowRegisterReads := by
  intro s
  refine ⟨_, _, _, _, _, _, rfl, ?_, rfl, ?_, rfl, ?_, rfl, ?_, rfl, accWord_toNat s.accN s.acc, rfl, fun hout => ?_,
    rfl, rfl⟩
  · exact BitVec.toNat_setWidth_of_le (by decide)
  · exact BitVec.toNat_setWidth_of_le (by decide)
  · exact BitVec.toNat_setWidth_of_le (by decide)
  · exact BitVec.toNat_setWidth_of_le (by decide)
  · exact Nat.mod_eq_of_lt (by omega)

end Sys2Proof.Machine
end

section
/-! PROOFS of the code generator's statements (42_code_generator.md): the checks of GEN_CODES, the codes it stores and
what makes them a code, the walk over those codes, the empty table, and the reads of the code table. -/

namespace Sys2Proof.Machine

/-! ### GEN_CODES' checks and outcome (R150) -/

/-- The state in which GEN_CODES has stored the code table `c` (R150). -/
def storeCodes (c : CodeTable) (s : State) : State :=
  { s with codeLen := c.len, codeWord := c.word, codesValid := true }

theorem exec_genCodes_of_error {s : State} (herr : s.err ≠ .noError) : exec .genCodes s = .next s :=
  gated_error herr _

theorem exec_genCodes_in_stream {s : State} (herr : s.err = .noError) (hm : s.mode ≠ .idle) :
    exec .genCodes s = .next (errorEntry .state 0x00000003#32 s) :=
  (gated_clear herr _).trans (requireMode_unmet hm _ _)

theorem exec_genCodes_of_no_tree {s : State} (herr : s.err = .noError) (hm : s.mode = .idle)
    (hv : s.treeValid = false) : exec .genCodes s = .next (errorEntry .state 0x00000003#32 s) := by
  change execGenCodes s = _
  rw [execGenCodes, gated_clear herr, requireMode_met hm, if_pos hv, raiseError_eq]

theorem exec_genCodes_of_derived {s : State} {c : CodeTable} (herr : s.err = .noError) (hm : s.mode = .idle)
    (hv : s.treeValid = true) (hc : deriveCodes s = .ok c) : exec .genCodes s = .next (storeCodes c s) := by
  change execGenCodes s = _
  rw [execGenCodes, gated_clear herr, requireMode_met hm, if_neg (by simp [hv]), hc]
  rfl

/-- Settles O29: the gate, then the mode check, then the check of TREE_VALID, which report alike. -/
theorem genCodesChecks : Obligations.GenCodesChecks := by
  intro s
  refine ⟨exec_genCodes_of_error, fun herr hbad => ?_⟩
  by_cases hm : s.mode = .idle
  · exact exec_genCodes_of_no_tree herr hm (hbad.resolve_left (not_not_intro hm))
  · exact exec_genCodes_in_stream herr hm

/-! ### The stored codes are the paths of the tree (R151 to R153) -/

/-- ROOT of the empty tree names no node, so no path leads to a leaf (R34, R154). -/
theorem TreeInv.no_path_of_empty {s : State} (h : TreeInv s) (hempty : s.nleaf = 0#9) (p : List Bool) (x : Byte) :
    ¬ PathToLeaf s p x := by
  have hnone : nodeAt s.nodes s.root = none := by
    rw [h.root_eq, if_pos hempty]
    exact Vector.getElem?_eq_none (by decide)
  rintro ⟨i, n, hfollow, hnode, -⟩
  cases p with
  | nil => cases hfollow; cases hnone.symm.trans hnode
  | cons b p => simp [follow, hnone] at hfollow

/-- The derived table holds each leaf's path for its symbol, and no code for any other symbol, the empty tree
included. -/
theorem TreeInv.derived_codes {s : State} {c : CodeTable} (h : TreeInv s) (hc : deriveCodes s = .ok c) (x : Byte) :
    (∀ p, PathToLeaf s p x → (atSym c.len x).toNat = p.length ∧
      ∀ k, codeBit (atSym c.word x) k = p.getD k false) ∧
    ((∀ p, ¬ PathToLeaf s p x) → atSym c.len x = 0#8 ∧ ∀ k, codeBit (atSym c.word x) k = false) := by
  obtain hempty | ⟨htwo, -⟩ := h.count
  · refine ⟨fun p hp => absurd hp (h.no_path_of_empty hempty p x), fun _ => ?_⟩
    cases (deriveCodes_empty hempty).symm.trans hc
    simp only [CodeTable.cleared, State.reset, atSym_replicate, codeBit_zero, implies_true, and_self]
  · obtain ⟨c', hc', hcodes⟩ := deriveCodes_spec h htwo
    cases hc'.symm.trans hc
    refine ⟨fun p hp => ?_, (hcodes x).2⟩
    obtain ⟨-, -, hlen, hbits⟩ := (hcodes x).1 p hp
    exact ⟨hlen, hbits⟩

/-- Settles O30: GEN_CODES stores the table the walk derives, which holds the paths. -/
theorem genCodesStoresTheTreePaths : Obligations.GenCodesStoresTheTreePaths := by
  intro s h herr hm hv
  obtain ⟨c, hc⟩ := h.deriveCodes_ok
  exact ⟨_, exec_genCodes_of_derived herr hm hv hc, fun x => (h.derived_codes hc x).1,
    fun x => (h.derived_codes hc x).2, rfl⟩

theorem TreeInv.codeBits_of_path {s : State} {c : CodeTable} (h : TreeInv s) (hc : deriveCodes s = .ok c)
    {p : List Bool} {x : Byte} (hp : PathToLeaf s p x) : codeBits (storeCodes c s) x = p := by
  obtain ⟨hlen, hbits⟩ := (h.derived_codes hc x).1 p hp
  exact codeBits_eq hlen hbits

theorem coded_iff_codeBits_ne_nil (s : State) (x : Byte) : Coded s x ↔ codeBits s x ≠ [] := by
  rw [← List.length_pos_iff, codeBits_length, Nat.pos_iff_ne_zero]
  exact not_congr BitVec.toNat_inj.symm

/-- A path from ROOT to a leaf has a branch: ROOT is an internal node (R138). -/
theorem TreeInv.path_ne_nil {s : State} (h : TreeInv s) {p : List Bool} {x : Byte} (hp : PathToLeaf s p x) :
    p ≠ [] := by
  obtain hempty | ⟨htwo, -⟩ := h.count
  · exact absurd hp (h.no_path_of_empty hempty p x)
  · exact List.ne_nil_of_length_pos (h.path_length htwo hp).1

/-- A symbol has a code exactly when its code is the path to a leaf of that symbol. -/
theorem TreeInv.coded_iff {s : State} {c : CodeTable} (h : TreeInv s) (hc : deriveCodes s = .ok c) (x : Byte) :
    Coded (storeCodes c s) x ↔ PathToLeaf s (codeBits (storeCodes c s) x) x := by
  constructor
  · intro hx
    by_contra hno
    refine hx ((h.derived_codes hc x).2 fun p hp => hno ?_).1
    rwa [h.codeBits_of_path hc hp]
  · exact fun hp => (coded_iff_codeBits_ne_nil _ x).2 (h.path_ne_nil hp)

theorem TreeInv.coded_iff_exists_path {s : State} {c : CodeTable} (h : TreeInv s) (hc : deriveCodes s = .ok c)
    (x : Byte) : Coded (storeCodes c s) x ↔ ∃ p, PathToLeaf s p x := by
  rw [h.coded_iff hc]
  refine ⟨fun hp => ⟨_, hp⟩, fun ⟨p, hp⟩ => ?_⟩
  rwa [h.codeBits_of_path hc hp]

/-! ### Exactly the leaves, prefix-free, complete (R156) -/

theorem TreeInv.nleaf_le {s : State} (h : TreeInv s) : s.nleaf.toNat ≤ 256 := by
  obtain hempty | ⟨-, hle⟩ := h.count
  · simp [hempty]
  · exact hle

/-- Every leaf of the tree is reached from ROOT, and paths end at leaves only. -/
theorem TreeInv.exists_path_iff_leaf {s : State} (h : TreeInv s) (htwo : 2 ≤ s.nleaf.toNat) (x : Byte) :
    (∃ p, PathToLeaf s p x) ↔ ∃ i c, i < s.nleaf.toNat ∧ s.nodes[i]? = some c ∧ c.sym = x := by
  have hroot := h.root_toNat htwo
  have hle := h.nleaf_le
  constructor
  · rintro ⟨p, j, c, hfollow, hnode, hleaf, hsym⟩
    obtain ⟨hj, -⟩ := h.shape.follow_height p (by omega) hfollow
    obtain ⟨c', hnode', hleaf'⟩ := h.shape.node hj
    cases hnode.symm.trans hnode'
    exact ⟨j.toNat, c, of_decide_eq_true (hleaf'.symm.trans hleaf), hnode, hsym⟩
  · rintro ⟨i, c, hi, hnode, hsym⟩
    have hidx : (BitVec.ofNat 9 i).toNat = i := Nat.mod_eq_of_lt (by omega)
    obtain ⟨p, hp⟩ := h.shape.reached hle htwo s.root hroot (2 * s.nleaf.toNat - 2 - i) (BitVec.ofNat 9 i)
      (by omega)
    obtain ⟨y, w, hrec⟩ := h.shape.leaf i hi
    cases hnode.symm.trans hrec
    exact ⟨p, _, _, hp, by rw [nodeAt_eq, hidx, hnode], rfl, hsym⟩

/-- No path to a leaf goes on below that leaf. -/
theorem LeafAt.eq_of_prefix {a : Arena} {i : NodeIdx} {p q : List Bool} {x y : Byte} (hp : LeafAt a i p x)
    (hq : LeafAt a i q y) (hpq : p <+: q) : x = y := by
  obtain ⟨r, rfl⟩ := hpq
  obtain ⟨j, n, hfollow, hnode, hleaf, hsym⟩ := hp
  obtain ⟨k, m, hfollow', hnode', -, hsym'⟩ := hq
  rw [follow_append, hfollow] at hfollow'
  obtain ⟨-, rfl⟩ := follow_leaf hnode hleaf hfollow'
  cases hnode.symm.trans hnode'
  exact hsym.symm.trans hsym'

/-- The depth at which the code table of `s` places symbol `x` in the tree: its code length, if it has a code. -/
def codeDepth (s : State) (x : Byte) : Option Nat :=
  if atSym s.codeLen x = 0#8 then none else some (atSym s.codeLen x).toNat

theorem codeDepth_of_coded {s : State} {x : Byte} (hx : Coded s x) : codeDepth s x = some (codeBits s x).length := by
  rw [codeDepth, if_neg hx, codeBits_length]

theorem share_codeDepth (s : State) (m : Nat) (x : Byte) :
    share m (codeDepth s x) = if atSym s.codeLen x = 0#8 then 0 else 2 ^ (m - (atSym s.codeLen x).toNat) := by
  rw [codeDepth]
  split <;> rfl

/-- The Kraft equality of the stored codes, in units of 2^-255. -/
theorem TreeInv.codes_kraft {s : State} {c : CodeTable} (h : TreeInv s) (hc : deriveCodes s = .ok c)
    (htwo : 2 ≤ s.nleaf.toNat) :
    (allSymbols.map fun x => share 255 (codeDepth (storeCodes c s) x)).sum = 2 ^ 255 := by
  have hroot := h.root_toNat htwo
  have hle := h.nleaf_le
  refine h.shape.kraft 255 s.root _ (by omega) (by simp only [height]; omega) (fun x p hp => ?_) fun x hno => ?_
  · have hx := (h.coded_iff_exists_path hc x).2 ⟨p, hp⟩
    rw [codeDepth_of_coded hx, h.codeBits_of_path hc hp]
  · exact if_pos ((h.derived_codes hc x).2 hno).1

/-- Settles O32: the codes are the paths to the leaves of the tree, and the leaves fill the tree. -/
theorem codesArePrefixFreeAndComplete : Obligations.CodesArePrefixFreeAndComplete := by
  intro s h herr hm hv htwo
  obtain ⟨c, hc⟩ := h.deriveCodes_ok
  refine ⟨_, exec_genCodes_of_derived herr hm hv hc, fun x => ?_, fun x hx => ?_, fun x y hx hy hxy hpre => ?_, ?_⟩
  · rw [h.coded_iff_exists_path hc, h.exists_path_iff_leaf htwo]
  · exact h.path_length htwo ((h.coded_iff hc x).1 hx)
  · exact hxy (LeafAt.eq_of_prefix ((h.coded_iff hc x).1 hx) ((h.coded_iff hc y).1 hy) hpre)
  · simpa only [share_codeDepth] using h.codes_kraft hc htwo

/-! ### Walking the codes (R190, R194) -/

/-- If each symbol of `xs` has as its code a path from ROOT to a leaf of that symbol, the codes walked one after
the other emit `xs`, and each ends at ROOT, where the next begins. -/
theorem walkBits_flatMap_paths (code : Byte → List Bool) (xs : List Byte) (u : State) (hcur : u.cur = u.root)
    (hpath : ∀ x ∈ xs, code x ≠ [] ∧ LeafAt u.nodes u.root (code x) x) :
    walkBits u (xs.flatMap code) = .ok { u with out := u.out ++ xs, cur := u.root } := by
  induction xs generalizing u with
  | nil =>
    rw [List.flatMap_nil, walkBits, List.append_nil]
    exact congrArg (fun i => Except.ok { u with cur := i }) hcur
  | cons x xs ih =>
    obtain ⟨hne, hleaf⟩ := hpath x List.mem_cons_self
    have hfirst : walkBits u (code x) = .ok { u with out := u.out ++ [x], cur := u.root } :=
      walkBits_path (code x) hne (hcur ▸ hleaf)
    have hrest := ih { u with out := u.out ++ [x], cur := u.root } rfl fun y hy =>
      hpath y (List.mem_cons_of_mem x hy)
    rw [List.flatMap_cons, walkBits_append, hfirst]
    simpa using hrest

/-- Settles O45: each code is the path from ROOT to the leaf of its symbol. -/
theorem walkingCodesGivesTheSymbolsBack : Obligations.WalkingCodesGivesTheSymbolsBack := by
  intro s h herr hm hv
  obtain ⟨c, hc⟩ := h.deriveCodes_ok
  refine ⟨_, exec_genCodes_of_derived herr hm hv hc, fun xs u hcoded hnodes hroot hcur => ?_⟩
  refine walkBits_flatMap_paths _ xs u (hcur.trans hroot.symm) fun x hx => ?_
  rw [hnodes, hroot]
  exact ⟨(coded_iff_codeBits_ne_nil _ x).1 (hcoded x hx), (h.coded_iff hc x).1 (hcoded x hx)⟩

/-! ### The empty tree (R154) -/

/-- The encode stream ENC_START opens (R165). -/
def openEncode (s : State) : State :=
  { s with out := [], acc := 0#8, accN := 0#3, encBits := 0#64, done := false, mode := .enc }

theorem exec_encStart_of_codes {s : State} (herr : s.err = .noError) (hm : s.mode = .idle) (hv : s.codesValid = true) :
    exec .encStart s = .next (openEncode s) := by
  change execEncStart s = _
  rw [execEncStart, gated_clear herr, requireMode_met hm, if_neg (by simp [hv])]
  rfl

theorem openEncode_room (s : State) : Config.encRoom ≤ freeRoom (openEncode s) :=
  show 32 ≤ 64 by decide

theorem exec_wrEncData_of_no_code {s : State} {d : Word} (herr : s.err = .noError) (hm : s.mode = .enc)
    (hroom : Config.encRoom ≤ freeRoom s) (hno : atSym s.codeLen (dataByte d) = 0#8) :
    exec (.wrEncData d) s = .next (errorEntry .noSym ((dataByte d).setWidth 32) s) := by
  change execWrEncData d s = _
  rw [execWrEncData, gated_clear herr, requireMode_met hm, if_neg (Nat.not_lt.2 hroom), if_pos hno, raiseError_eq]

/-- With no partial byte ENC_FINISH pushes nothing (R168). -/
theorem exec_encFinish_of_no_partial {s : State} (herr : s.err = .noError) (hm : s.mode = .enc) (hacc : s.accN = 0#3) :
    exec .encFinish s = .next { s with pad := paddingOf s.encBits, acc := 0#8, accN := 0#3, mode := .idle,
                                       done := true } := by
  have hnone : ¬ 0 < s.accN.toNat := by simp [hacc]
  change execEncFinish s = _
  rw [execEncFinish, gated_clear herr, requireMode_met hm, if_neg fun hfull => hnone hfull.1, if_neg hnone]

/-- A stream to which no symbol was written ends with no payload and no padding (R154, R168). -/
theorem exec_encFinish_openEncode {s : State} (herr : s.err = .noError) :
    exec .encFinish (openEncode s) = .next { openEncode s with pad := 0#8, mode := .idle, done := true } := by
  have hpad : paddingOf (openEncode s).encBits = 0#8 := show paddingOf 0#64 = 0#8 by decide
  rw [exec_encFinish_of_no_partial (s := openEncode s) herr rfl rfl, hpad]
  rfl

/-- Settles O31: the cleared table has no code, so every symbol is turned away and the stream stays empty. -/
theorem emptyTreeGivesAnEmptyCodeTable : Obligations.EmptyTreeGivesAnEmptyCodeTable := by
  intro s herr hm hv hempty
  have hlen : ∀ x, atSym CodeTable.cleared.len x = 0#8 := atSym_replicate 0#8
  exact ⟨_, exec_genCodes_of_derived herr hm hv (deriveCodes_empty hempty), rfl, hlen, _,
    exec_encStart_of_codes herr hm rfl, rfl,
    fun d => exec_wrEncData_of_no_code herr rfl (openEncode_room _) (hlen (dataByte d)),
    exec_encFinish_openEncode herr⟩

/-! ### Reading the code table (R157, R158) -/

theorem exec_rdCodeLen (x : Byte) (s : State) :
    exec (.rdCodeLen x) s = .next { s with reply := some ((atSym s.codeLen x).setWidth 32) } := rfl

theorem exec_rdCodeWord (x : Byte) (k : BitVec 3) (s : State) :
    exec (.rdCodeWord x k) s = .next { s with reply := some (codeWordAt (atSym s.codeWord x) k) } := rfl

theorem codeWordAt_getLsbD (r : CodeRow) (k : BitVec 3) {j : Nat} (hj : j < 32) :
    (codeWordAt r k).getLsbD (31 - j) = codeBit r (32 * k.toNat + j) := by
  have hword : (32 * k.toNat + j) / 32 = k.toNat := by omega
  have hbit : (32 * k.toNat + j) % 32 = j := by omega
  have hrow : r[k.toNat]? = some (codeWordAt r k) := Vector.getElem?_eq_getElem k.isLt
  rw [codeBit, hword, hbit, hrow]

/-- Settles O33: the length without loss, the word bit by bit, and zeros past the length by the invariant. -/
theorem codeReads : Obligations.CodeReads := by
  intro s x
  refine ⟨⟨_, exec_rdCodeLen x s, BitVec.toNat_setWidth_of_le (by decide)⟩,
    fun k => ⟨_, exec_rdCodeWord x k s, fun j hj => ?_⟩⟩
  have hbit := codeWordAt_getLsbD (atSym s.codeWord x) k hj
  exact ⟨hbit, fun hinv hlen => hbit.trans (hinv.beyond x _ hlen)⟩

end Sys2Proof.Machine
end

section
/-! PROOFS of the encoder's statements (43_encoder_packer.md): the checks and effects of ENC_START, WR_ENC_DATA and
ENC_FINISH, what a whole encode stream carries, and the reads of the 64-bit counts. -/

namespace Sys2Proof.Machine

/-! ### Room in OUT (R45) -/

theorem encRoom_le_freeRoom_iff (s : State) : Config.encRoom ≤ freeRoom s ↔ s.out.length + 32 ≤ 64 := by
  simp only [freeRoom, Config.encRoom, Config.outDepth]
  omega

theorem freeRoom_eq_zero_iff (s : State) : freeRoom s = 0 ↔ 64 ≤ s.out.length :=
  Nat.sub_eq_zero_iff_le

/-! ### ENC_START (R165) -/

theorem exec_encStart_of_error {s : State} (herr : s.err ≠ .noError) : exec .encStart s = .next s :=
  gated_error herr _

theorem exec_encStart_in_stream {s : State} (herr : s.err = .noError) (hm : s.mode ≠ .idle) :
    exec .encStart s = .next (errorEntry .state 0x00000004#32 s) :=
  (gated_clear herr _).trans (requireMode_unmet hm _ _)

theorem exec_encStart_of_no_codes {s : State} (herr : s.err = .noError) (hm : s.mode = .idle)
    (hv : s.codesValid = false) : exec .encStart s = .next (errorEntry .state 0x00000004#32 s) := by
  change execEncStart s = _
  rw [execEncStart, gated_clear herr, requireMode_met hm, if_pos hv, raiseError_eq]

/-- Settles O34: the gate, the mode check and the check of CODES_VALID, which report alike, and the opened stream. -/
theorem encStartOpensAnEmptyStream : Obligations.EncStartOpensAnEmptyStream := by
  intro s
  refine ⟨exec_encStart_of_error, fun herr hbad => ?_, exec_encStart_of_codes⟩
  by_cases hm : s.mode = .idle
  · exact exec_encStart_of_no_codes herr hm (hbad.resolve_left (not_not_intro hm))
  · exact exec_encStart_in_stream herr hm

/-! ### WR_ENC_DATA (R166, R167) -/

/-- The state in which WR_ENC_DATA has packed the code of symbol `x` (R166). -/
def appendCode (x : Byte) (s : State) : State :=
  { s with
    out := (packBits s (codeBits s x)).out
    acc := (packBits s (codeBits s x)).acc
    accN := (packBits s (codeBits s x)).accN
    encBits := s.encBits + (atSym s.codeLen x).setWidth 64 }

theorem exec_wrEncData_of_error {s : State} (herr : s.err ≠ .noError) (d : Word) :
    exec (.wrEncData d) s = .next s :=
  gated_error herr _

theorem exec_wrEncData_outside_stream {s : State} (herr : s.err = .noError) (hm : s.mode ≠ .enc) (d : Word) :
    exec (.wrEncData d) s = .next (errorEntry .state 0x00010040#32 s) :=
  (gated_clear herr _).trans (requireMode_unmet hm _ _)

theorem exec_wrEncData_of_no_room {s : State} (herr : s.err = .noError) (hm : s.mode = .enc)
    (hroom : freeRoom s < Config.encRoom) (d : Word) :
    exec (.wrEncData d) s = .next (errorEntry .overrun 0x00010040#32 s) := by
  change execWrEncData d s = _
  rw [execWrEncData, gated_clear herr, requireMode_met hm, if_pos hroom]
  rfl

theorem exec_wrEncData_of_coded {s : State} {d : Word} (herr : s.err = .noError) (hm : s.mode = .enc)
    (hroom : Config.encRoom ≤ freeRoom s) (hcode : Coded s (dataByte d)) :
    exec (.wrEncData d) s = .next (appendCode (dataByte d) s) := by
  change execWrEncData d s = _
  rw [execWrEncData, gated_clear herr, requireMode_met hm, if_neg (Nat.not_lt.2 hroom), if_neg hcode, packBits_frame]
  rfl

/-- Settles O35: the gate, then the checks of MODE, of the room and of the code. -/
theorem encDataChecks : Obligations.EncDataChecks := by
  refine fun d s => ⟨fun herr => exec_wrEncData_of_error herr d,
    fun herr hm => exec_wrEncData_outside_stream herr hm d, fun herr hm hfull => ?_, fun herr hm hroom hno => ?_⟩
  · refine exec_wrEncData_of_no_room herr hm (Nat.not_le.1 fun hroom => ?_) d
    have := (encRoom_le_freeRoom_iff s).1 hroom
    omega
  · exact exec_wrEncData_of_no_code herr hm ((encRoom_le_freeRoom_iff s).2 hroom) hno

theorem streamBits_appendCode (x : Byte) (s : State) :
    streamBits (appendCode x s) = streamBits s ++ codeBits s x :=
  streamBits_packBits s (codeBits s x)

/-- The bytes a code completes are pushed behind those in OUT (R167). -/
theorem appendCode_pushes (x : Byte) (s : State) : ∃ bytes, (appendCode x s).out = s.out ++ bytes ∧
    bytes.length = (s.accN.toNat + (atSym s.codeLen x).toNat) / 8 := by
  obtain ⟨bytes, hout⟩ := packBits_prefixed s (codeBits s x)
  refine ⟨bytes, hout, ?_⟩
  have hcount := packBits_counts s (codeBits s x)
  have hlt : (packBits s (codeBits s x)).accN.toNat < 8 := (packBits s (codeBits s x)).accN.isLt
  rw [hout, List.length_append, codeBits_length] at hcount
  omega

/-- Settles O36: with room and a code the write packs the code's bits. -/
theorem encDataAppendsTheCode : Obligations.EncDataAppendsTheCode := by
  intro d s herr hm hroom hcode
  exact ⟨_, exec_wrEncData_of_coded herr hm ((encRoom_le_freeRoom_iff s).2 hroom) hcode,
    streamBits_appendCode (dataByte d) s, appendCode_pushes (dataByte d) s, rfl, rfl⟩

/-! ### ENC_FINISH (R168, R169) -/

/-- The state in which ENC_FINISH has closed the stream (R168). -/
def finishEncode (s : State) : State :=
  { s with
    out := if 0 < s.accN.toNat then s.out ++ [finalByte s] else s.out
    pad := paddingOf s.encBits
    acc := 0#8
    accN := 0#3
    mode := .idle
    done := true }

theorem exec_encFinish_of_error {s : State} (herr : s.err ≠ .noError) : exec .encFinish s = .next s :=
  gated_error herr _

theorem exec_encFinish_outside_stream {s : State} (herr : s.err = .noError) (hm : s.mode ≠ .enc) :
    exec .encFinish s = .next (errorEntry .state 0x00000005#32 s) :=
  (gated_clear herr _).trans (requireMode_unmet hm _ _)

theorem exec_encFinish_of_full {s : State} (herr : s.err = .noError) (hm : s.mode = .enc) (hpart : 0 < s.accN.toNat)
    (hfull : freeRoom s = 0) : exec .encFinish s = .next (errorEntry .overrun 0x00000005#32 s) := by
  change execEncFinish s = _
  rw [execEncFinish, gated_clear herr, requireMode_met hm, if_pos ⟨hpart, hfull⟩, raiseError_eq]

theorem exec_encFinish_of_room {s : State} (herr : s.err = .noError) (hm : s.mode = .enc)
    (hroom : 0 < s.accN.toNat → s.out.length < 64) : exec .encFinish s = .next (finishEncode s) := by
  change execEncFinish s = _
  have hfits : ¬ (0 < s.accN.toNat ∧ freeRoom s = 0) := fun ⟨hpart, hfull⟩ =>
    Nat.not_le.2 (hroom hpart) ((freeRoom_eq_zero_iff s).1 hfull)
  rw [execEncFinish, gated_clear herr, requireMode_met hm, if_neg hfits, finishEncode]
  split <;> rfl

/-- Settles O38: the gate, then the checks of MODE and of the room for a partial byte. -/
theorem encFinishChecks : Obligations.EncFinishChecks := fun s =>
  ⟨exec_encFinish_of_error, exec_encFinish_outside_stream, fun herr hm hpart hfull =>
    exec_encFinish_of_full herr hm hpart ((freeRoom_eq_zero_iff s).2 hfull)⟩

/-- With ACC_N = ENC_BITS mod 8 the final byte's padding is the PAD written, and without a partial byte PAD is 0
(R168, R169). -/
theorem finishEncode_bits {s : State} (hcount : s.accN.toNat = s.encBits.toNat % 8) :
    (finishEncode s).out.flatMap byteBits =
      streamBits s ++ List.replicate (finishEncode s).pad.toNat false := by
  have hpad : (finishEncode s).pad.toNat = (8 - s.accN.toNat) % 8 := by
    rw [hcount]
    exact paddingOf_toNat s.encBits
  have hlt : s.accN.toNat < 8 := s.accN.isLt
  rw [hpad, streamBits, List.append_assoc]
  by_cases hpart : 0 < s.accN.toNat
  · rw [Nat.mod_eq_of_lt (by omega), ← byteBits_finalByte s hpart]
    simp [finishEncode, hpart]
  · have hzero : s.accN.toNat = 0 := Nat.eq_zero_of_not_pos hpart
    simp [finishEncode, accBits, hzero]

theorem finishEncode_out_length (s : State) :
    (finishEncode s).out.length = s.out.length + if 0 < s.accN.toNat then 1 else 0 := by
  by_cases hpart : 0 < s.accN.toNat <;> simp [finishEncode, hpart]

/-- Settles O37: with room for the partial byte the stream is padded and closed. -/
theorem encFinishPadsTheStream : Obligations.EncFinishPadsTheStream := by
  intro s herr hm hcount hroom
  exact ⟨_, exec_encFinish_of_room herr hm hroom, finishEncode_bits hcount, finishEncode_out_length s,
    paddingOf_toNat s.encBits, rfl⟩

/-! ### A whole stream (R172) -/

theorem byteBits_length (b : Byte) : (byteBits b).length = 8 := by simp [byteBits]

theorem flatMap_byteBits_length (bytes : List Byte) : (bytes.flatMap byteBits).length = 8 * bytes.length := by
  simp [List.length_flatMap, byteBits_length, Nat.mul_comm]

/-- RD_OUT_DATA takes the head off OUT (R214). -/
theorem exec_rdOutData_of_cons {s : State} {b : Byte} {rest : List Byte} (head : s.out = b :: rest) :
    exec .rdOutData s = .next { s with out := rest, reply := some (0x00000100#32 ||| b.setWidth 32) } := by
  change execRdOutData s = _
  simp [execRdOutData, popOut, head]

/-- An open encode stream with the codes of `s`: the symbols `xs` have been written to it and the bytes `ys` popped
from it, so `ys` and what `t` still holds are the codes of `xs`, whose bits ENC_BITS counts modulo 2^64. -/
structure EncodeStream (s : State) (xs ys : List Byte) (t : State) : Prop where
  err : t.err = .noError
  mode : t.mode = .enc
  codeLen : t.codeLen = s.codeLen
  codeWord : t.codeWord = s.codeWord
  bits : ys.flatMap byteBits ++ streamBits t = xs.flatMap (codeBits s)
  count : t.encBits.toNat = (xs.flatMap (codeBits s)).length % 2 ^ 64

theorem EncodeStream.opened {s : State} (herr : s.err = .noError) : EncodeStream s [] [] (openEncode s) where
  err := herr
  mode := rfl
  codeLen := rfl
  codeWord := rfl
  bits := rfl
  count := rfl

theorem EncodeStream.codeBits_eq {s t : State} {xs ys : List Byte} (h : EncodeStream s xs ys t) (x : Byte) :
    codeBits t x = codeBits s x := by
  rw [codeBits, codeBits, h.codeLen, h.codeWord]

theorem EncodeStream.append {s t : State} {xs ys : List Byte} (h : EncodeStream s xs ys t) (x : Byte) :
    EncodeStream s (xs ++ [x]) ys (appendCode x t) where
  err := h.err
  mode := h.mode
  codeLen := h.codeLen
  codeWord := h.codeWord
  bits := by
    rw [streamBits_appendCode, ← List.append_assoc, h.bits, h.codeBits_eq, List.flatMap_append,
      List.flatMap_singleton]
  count := by
    have hlen : (codeBits s x).length = (atSym t.codeLen x).toNat := by rw [← h.codeBits_eq, codeBits_length]
    have hlt : (atSym t.codeLen x).toNat < 256 := (atSym t.codeLen x).isLt
    have hcount := h.count
    simp only [appendCode, BitVec.toNat_add, BitVec.toNat_setWidth, List.flatMap_append, List.flatMap_singleton,
      List.length_append, hlen]
    omega

theorem EncodeStream.pop {s t : State} {xs ys rest : List Byte} {b : Byte} (h : EncodeStream s xs ys t)
    (head : t.out = b :: rest) (w : Word) :
    EncodeStream s xs (ys ++ [b]) { t with out := rest, reply := some w } :=
  { h with
    bits := by
      rw [← h.bits]
      simp [streamBits, accBits, head] }

/-- A run from the stream ENC_START opened is such a stream, by what each of its accesses does. -/
theorem EncodeRun.encodeStream {s t : State} {xs ys : List Byte} (herr : s.err = .noError)
    (run : EncodeRun (openEncode s) xs ys t) : EncodeStream s xs ys t := by
  induction run with
  | opened => exact .opened herr
  | write d _ ready coded done ih =>
    cases (exec_wrEncData_of_coded ih.err ih.mode (inReady_encRoom ready ih.mode) coded).symm.trans done
    exact ih.append (dataByte d)
  | pop b rest _ head done ih =>
    cases (exec_rdOutData_of_cons head).symm.trans done
    exact ih.pop head _
  | read i _ look still done ih =>
    obtain ⟨w, rfl⟩ := still_read_next look still done
    exact { ih with }

/-- The partial byte holds the bits past the last whole byte (R169). -/
theorem EncodeStream.accN_eq {s t : State} {xs ys : List Byte} (h : EncodeStream s xs ys t) :
    t.accN.toNat = t.encBits.toNat % 8 := by
  have hlen := congrArg List.length h.bits
  have hlt : t.accN.toNat < 8 := t.accN.isLt
  have hcount := h.count
  simp only [streamBits, List.length_append, flatMap_byteBits_length, accBits_length] at hlen
  omega

/-- The payload of a finished stream: its codes and PAD zero bits (R172). -/
theorem EncodeStream.payload {s t : State} {xs ys : List Byte} (h : EncodeStream s xs ys t) :
    (ys ++ (finishEncode t).out).flatMap byteBits =
      xs.flatMap (codeBits s) ++ List.replicate (finishEncode t).pad.toNat false := by
  rw [List.flatMap_append, finishEncode_bits h.accN_eq, ← List.append_assoc, h.bits]

theorem EncodeStream.payload_length {s t : State} {xs ys : List Byte} (h : EncodeStream s xs ys t) :
    8 * (ys ++ (finishEncode t).out).length =
      (xs.flatMap (codeBits s)).length + (finishEncode t).pad.toNat := by
  rw [← flatMap_byteBits_length, h.payload, List.length_append, List.length_replicate]

theorem finishEncode_pad_le (s : State) : (finishEncode s).pad.toNat ≤ 7 := by
  have hpad : (finishEncode s).pad.toNat = _ := paddingOf_toNat s.encBits
  omega

/-- Settles O46: the run keeps its stream, which ENC_FINISH pads. -/
theorem encodeStreamsCarryTheCodes : Obligations.EncodeStreamsCarryTheCodes := by
  intro s u t xs ys herr hm hv hopen run
  cases (exec_encStart_of_codes herr hm hv).symm.trans hopen
  have h := run.encodeStream herr
  have hpad := finishEncode_pad_le t
  have hlen := h.payload_length
  have hcount : (finishEncode t).encBits.toNat = _ := h.count
  refine ⟨h.err, h.mode, fun hroom => ⟨_, exec_encFinish_of_room h.err h.mode fun _ => hroom, h.err, rfl,
    h.payload, hpad, hlen, hcount, fun hsmall => ?_⟩⟩
  rw [Nat.mod_eq_of_lt hsmall] at hcount
  omega

/-! ### Reading the counts (R170, R186, R192) -/

theorem count_toNat_eq_halves (c : Count) : c.toNat = (lowHalf c).toNat + 2 ^ 32 * (highHalf c).toNat := by
  have hlt := c.isLt
  simp only [lowHalf, highHalf, BitVec.extractLsb'_toNat, Nat.shiftRight_eq_div_pow]
  omega

/-- Settles O52: each pair of reads answers the two halves of its count. -/
theorem countReads : Obligations.CountReads := fun s =>
  ⟨_, _, _, _, _, _, rfl, rfl, count_toNat_eq_halves s.encBits, rfl, rfl, count_toNat_eq_halves s.decLen, rfl, rfl,
    count_toNat_eq_halves s.remain⟩

end Sys2Proof.Machine
end

section
/-! PROOFS of the decoder's statements (44_decoder_unpacker.md): the stream parameters, the checks of DEC_START and
WR_DEC_DATA, the walk of a payload byte, and that a payload decodes to the symbols it was encoded from. -/

namespace Sys2Proof.Machine

/-! ### Stream parameters (R185, R186) -/

theorem gated_requireMode_met {m : Mode} {s : State} (herr : s.err = .noError) (hm : s.mode = m) (info : Word)
    (body : Result) : gated s (requireMode m info s body) = body :=
  (gated_clear herr _).trans (requireMode_met hm info body)

theorem gated_requireMode_unmet {m : Mode} {s : State} (herr : s.err = .noError) (hm : s.mode ≠ m) (info : Word)
    (body : Result) : gated s (requireMode m info s body) = .next (errorEntry .state info s) :=
  (gated_clear herr _).trans (requireMode_unmet hm info body)

theorem dataByte_toNat (d : Word) : (dataByte d).toNat = d.toNat % 256 := by
  simp [dataByte, BitVec.extractLsb'_toNat]

/-- A count is its high half above its low half, so a write replaces one of the two (R186). -/
theorem setLow_toNat (c : Count) (d : Word) : (setLow c d).toNat = c.toNat / 2 ^ 32 * 2 ^ 32 + d.toNat := by
  have hlt := c.isLt
  have hhigh : (highHalf c).toNat = c.toNat / 2 ^ 32 := by
    simp only [highHalf, BitVec.extractLsb'_toNat, Nat.shiftRight_eq_div_pow]
    omega
  rw [setLow, BitVec.toNat_append, ← Nat.shiftLeft_add_eq_or_of_lt d.isLt, Nat.shiftLeft_eq, hhigh]

theorem setHigh_toNat (c : Count) (d : Word) : (setHigh c d).toNat = d.toNat * 2 ^ 32 + c.toNat % 2 ^ 32 := by
  have hlow : (lowHalf c).toNat = c.toNat % 2 ^ 32 := by simp [lowHalf, BitVec.extractLsb'_toNat]
  rw [setHigh, BitVec.toNat_append, ← Nat.shiftLeft_add_eq_or_of_lt (lowHalf c).isLt, Nat.shiftLeft_eq, hlow]

/-- Settles O39: the gate, the mode check with the offset of each register, and the values written. -/
theorem streamParameterWrites : Obligations.StreamParameterWrites := by
  intro d s
  refine ⟨fun herr => ⟨gated_error herr _, gated_error herr _, gated_error herr _⟩, fun herr hm => ?_,
    fun herr hm => ?_⟩
  · exact ⟨gated_requireMode_unmet herr hm _ _, gated_requireMode_unmet herr hm _ _,
      gated_requireMode_unmet herr hm _ _⟩
  · exact ⟨dataByte d, setLow s.decLen d, setHigh s.decLen d, gated_requireMode_met herr hm _ _,
      gated_requireMode_met herr hm _ _, gated_requireMode_met herr hm _ _, dataByte_toNat d,
      setLow_toNat s.decLen d, setHigh_toNat s.decLen d⟩

/-! ### DEC_START (R188) -/

/-- The decode stream DEC_START opens (R188). -/
def openDecode (s : State) : State :=
  { s with out := [], done := false, remain := s.decLen, cur := s.root, mode := .dec }

/-- What DEC_START leaves of an empty container (R188). -/
def emptyDecode (s : State) : State := { s with out := [], done := true }

/-- Past its gate and its mode check DEC_START is its checks of the tree and of the stream's parameters. -/
theorem exec_decStart_of_idle {s : State} (herr : s.err = .noError) (hm : s.mode = .idle) :
    exec .decStart s =
      if s.treeValid = false then .next (errorEntry .state 0x00000006#32 s)
      else if 7 < s.pad.toNat then .next (errorEntry .padding (s.pad.setWidth 32) s)
      else if s.decLen = 0#64 ∧ s.pad ≠ 0#8 then .next (errorEntry .padding (s.pad.setWidth 32) s)
      else if s.nleaf = 0#9 ∧ s.decLen ≠ 0#64 then .next (errorEntry .noTree 0#32 s)
      else if s.nleaf ≠ 0#9 ∧ s.decLen = 0#64 then .next (errorEntry .truncated (s.root.setWidth 32) s)
      else if s.decLen = 0#64 then .next (emptyDecode s)
      else .next (openDecode s) :=
  gated_requireMode_met herr hm _ _

theorem exec_decStart_of_error {s : State} (herr : s.err ≠ .noError) : exec .decStart s = .next s :=
  gated_error herr _

theorem exec_decStart_in_stream {s : State} (herr : s.err = .noError) (hm : s.mode ≠ .idle) :
    exec .decStart s = .next (errorEntry .state 0x00000006#32 s) :=
  gated_requireMode_unmet herr hm _ _

theorem exec_decStart_of_no_tree {s : State} (herr : s.err = .noError) (hm : s.mode = .idle)
    (hv : s.treeValid = false) : exec .decStart s = .next (errorEntry .state 0x00000006#32 s) := by
  rw [exec_decStart_of_idle herr hm, if_pos hv]

section
variable {s : State} (herr : s.err = .noError) (hm : s.mode = .idle) (hv : s.treeValid = true)
include herr hm hv

theorem exec_decStart_of_bad_padding (hbad : 7 < s.pad.toNat ∨ (s.decLen = 0#64 ∧ s.pad ≠ 0#8)) :
    exec .decStart s = .next (errorEntry .padding (s.pad.setWidth 32) s) := by
  rw [exec_decStart_of_idle herr hm, if_neg (by simp [hv])]
  by_cases hpad : 7 < s.pad.toNat
  · rw [if_pos hpad]
  · rw [if_neg hpad, if_pos (hbad.resolve_left hpad)]

theorem exec_decStart_of_empty_tree (hpad : s.pad.toNat ≤ 7) (hleaf : s.nleaf = 0#9) (hlen : s.decLen ≠ 0#64) :
    exec .decStart s = .next (errorEntry .noTree 0#32 s) := by
  rw [exec_decStart_of_idle herr hm, if_neg (by simp [hv]), if_neg (by omega), if_neg (by simp [hlen]),
    if_pos ⟨hleaf, hlen⟩]

theorem exec_decStart_of_empty_payload (hpad : s.pad = 0#8) (hleaf : s.nleaf ≠ 0#9) (hlen : s.decLen = 0#64) :
    exec .decStart s = .next (errorEntry .truncated (s.root.setWidth 32) s) := by
  rw [exec_decStart_of_idle herr hm, if_neg (by simp [hv]), if_neg (by simp [hpad]), if_neg (by simp [hpad]),
    if_neg (by simp [hleaf]), if_pos ⟨hleaf, hlen⟩]

theorem exec_decStart_of_empty_container (hpad : s.pad = 0#8) (hleaf : s.nleaf = 0#9) (hlen : s.decLen = 0#64) :
    exec .decStart s = .next (emptyDecode s) := by
  rw [exec_decStart_of_idle herr hm, if_neg (by simp [hv]), if_neg (by simp [hpad]), if_neg (by simp [hpad]),
    if_neg (by simp [hlen]), if_neg (by simp [hleaf]), if_pos hlen]

theorem exec_decStart_of_payload (hpad : s.pad.toNat ≤ 7) (hleaf : s.nleaf ≠ 0#9) (hlen : s.decLen ≠ 0#64) :
    exec .decStart s = .next (openDecode s) := by
  rw [exec_decStart_of_idle herr hm, if_neg (by simp [hv]), if_neg (by omega), if_neg (by simp [hlen]),
    if_neg (by simp [hleaf]), if_neg (by simp [hlen]), if_neg hlen]

end

/-- Settles O40: the gate, the checks in their order, the empty container and the opened stream. -/
theorem decStartChecksInOrder : Obligations.DecStartChecksInOrder := by
  intro s
  refine ⟨exec_decStart_of_error, fun herr hbad => ?_, exec_decStart_of_bad_padding, exec_decStart_of_empty_tree,
    exec_decStart_of_empty_payload, exec_decStart_of_empty_container, exec_decStart_of_payload⟩
  by_cases hm : s.mode = .idle
  · exact exec_decStart_of_no_tree herr hm (hbad.resolve_left (not_not_intro hm))
  · exact exec_decStart_in_stream herr hm

/-! ### WR_DEC_DATA's checks (R189) -/

theorem decRoom_le_freeRoom_iff (s : State) : Config.decRoom ≤ freeRoom s ↔ s.out.length + 8 ≤ 64 := by
  simp only [freeRoom, Config.decRoom, Config.outDepth]
  omega

theorem exec_wrDecData_of_error {s : State} (herr : s.err ≠ .noError) (d : Word) :
    exec (.wrDecData d) s = .next s :=
  gated_error herr _

theorem exec_wrDecData_outside_stream {s : State} (herr : s.err = .noError) (hm : s.mode ≠ .dec) (d : Word) :
    exec (.wrDecData d) s = .next (errorEntry .state 0x00010044#32 s) :=
  gated_requireMode_unmet herr hm _ _

theorem exec_wrDecData_of_no_room {s : State} (herr : s.err = .noError) (hm : s.mode = .dec)
    (hroom : freeRoom s < Config.decRoom) (d : Word) :
    exec (.wrDecData d) s = .next (errorEntry .overrun 0x00010044#32 s) :=
  (gated_requireMode_met herr hm _ _).trans (if_pos hroom)

/-- Settles O41: the gate, then the checks of MODE and of the room. -/
theorem decDataChecks : Obligations.DecDataChecks := by
  refine fun d s => ⟨fun herr => exec_wrDecData_of_error herr d,
    fun herr hm => exec_wrDecData_outside_stream herr hm d, fun herr hm hfull => ?_⟩
  refine exec_wrDecData_of_no_room herr hm (Nat.not_le.1 fun hroom => ?_) d
  have := (decRoom_le_freeRoom_iff s).1 hroom
  omega

/-! ### The bits of a payload byte (R187, R189) -/

theorem payloadBits_of_more {s : State} (h : 1 < s.remain.toNat) (b : Byte) : payloadBits s b = byteBits b := by
  rw [payloadBits, if_pos h, List.take_of_length_le (byteBits_length b).le]

theorem payloadBits_of_last {s : State} (h : s.remain.toNat = 1) (b : Byte) :
    payloadBits s b = (byteBits b).take (8 - s.pad.toNat) := by
  rw [payloadBits, if_neg (by omega)]

theorem dataByte_getLsbD (d : Word) {j : Nat} (hj : j < 8) : (dataByte d).getLsbD j = d.getLsbD j := by
  simp [dataByte, hj]

/-- On the last byte the bits walked are those from PAD up (R187). -/
theorem payloadBits_congr {s : State} {d e : Word} (hlast : s.remain.toNat = 1)
    (h : ∀ j, s.pad.toNat ≤ j → j < 8 → d.getLsbD j = e.getLsbD j) :
    payloadBits s (dataByte d) = payloadBits s (dataByte e) := by
  rw [payloadBits_of_last hlast, payloadBits_of_last hlast, byteBits, byteBits, ← List.map_take, ← List.map_take]
  refine List.map_congr_left fun i hi => ?_
  simp only [List.take_range, List.mem_range] at hi
  rw [dataByte_getLsbD d (by omega), dataByte_getLsbD e (by omega)]
  exact h (7 - i) (by omega) (by omega)

/-- WR_DEC_DATA sees its data word through the bits it walks alone. -/
theorem exec_wrDecData_congr {s : State} {d e : Word}
    (h : payloadBits s (dataByte d) = payloadBits s (dataByte e)) : exec (.wrDecData d) s = exec (.wrDecData e) s := by
  change execWrDecData d s = execWrDecData e s
  rw [execWrDecData, execWrDecData, h]

/-- Settles O44: the two words yield the same bits. -/
theorem paddingBitsAreNotExamined : Obligations.PaddingBitsAreNotExamined :=
  fun _ _ _ hlast _ h => exec_wrDecData_congr (payloadBits_congr hlast h)

/-! ### The walk (R190) -/

theorem walkBit_of_leaf {s : State} {b : Bool} {n m : Node} (hn : nodeAt s.nodes s.cur = some n)
    (hm : nodeAt s.nodes (if b then n.right else n.left) = some m) (hleaf : m.leaf = true) :
    walkBit s b = .ok { s with out := s.out ++ [m.sym], cur := s.root } := by
  simp only [walkBit, hn, hm, hleaf, if_true, pushOut]

theorem walkBit_of_join {s : State} {b : Bool} {n m : Node} (hn : nodeAt s.nodes s.cur = some n)
    (hm : nodeAt s.nodes (if b then n.right else n.left) = some m) (hleaf : m.leaf = false) :
    walkBit s b = .ok { s with cur := if b then n.right else n.left } := by
  simp only [walkBit, hn, hm, hleaf, Bool.false_eq_true, if_false]

/-- Settles O43: CUR names an internal node, whose children are nodes of the tree. -/
theorem walkBitFollowsTheTree : Obligations.WalkBitFollowsTheTree := by
  intro s b h hm
  obtain ⟨hlo, hhi⟩ := h.cur_internal hm
  obtain ⟨n, hn, hjoin, hbelow⟩ := h.shape.child hhi hlo
  obtain ⟨m, hchild, -⟩ := h.shape.node ((hbelow b).trans hhi)
  exact ⟨n, m, hn, hjoin, hchild, walkBit_of_leaf hn hchild, walkBit_of_join hn hchild⟩

/-! ### A payload byte walked (R189, R191) -/

/-- The state in which a walk from `s` has emitted `syms` and stands at node `cur` (R190). -/
def walkedTo (syms : List Byte) (cur : NodeIdx) (s : State) : State :=
  { s with out := s.out ++ syms, cur := cur }

theorem walkedTo_walkedTo (syms syms' : List Byte) (cur cur' : NodeIdx) (s : State) :
    walkedTo syms' cur' (walkedTo syms cur s) = walkedTo (syms ++ syms') cur' s := by
  simp [walkedTo]

/-- All a walk can do: emit symbols, at most one for each bit, and move CUR. -/
theorem walkBits_eq_walkedTo {s u : State} {l : List Bool} (h : walkBits s l = .ok u) :
    ∃ syms, u = walkedTo syms u.cur s ∧ syms.length ≤ l.length := by
  obtain ⟨syms, hout, hlen⟩ := walkBits_emits h
  exact ⟨syms, (walkBits_frame h).trans (by rw [hout]; rfl), hlen⟩

/-- The byte counted after its walk: the stream goes on, or the last byte ends it, at ROOT or truncated (R191). -/
theorem countByte_walkedTo_of_more {s : State} (h : 1 < s.remain.toNat) (syms : List Byte) (cur : NodeIdx) :
    countByte (walkedTo syms cur s) = { walkedTo syms cur s with remain := s.remain - 1#64 } := by
  have hmore : s.remain ≠ 1#64 := fun e => h.ne' (congrArg BitVec.toNat e)
  obtain ⟨-, e⟩ | ⟨hlast, -⟩ | ⟨hlast, -⟩ := countByte_cases (walkedTo syms cur s)
  · exact e
  · exact absurd hlast hmore
  · exact absurd hlast hmore

theorem countByte_walkedTo_of_done {s : State} {cur : NodeIdx} (h : s.remain.toNat = 1) (hroot : cur = s.root)
    (syms : List Byte) : countByte (walkedTo syms cur s) =
      { walkedTo syms cur s with remain := 0#64, mode := .idle, done := true } := by
  obtain ⟨hmore, -⟩ | ⟨-, -, e⟩ | ⟨-, hoff, -⟩ := countByte_cases (walkedTo syms cur s)
  · exact absurd (BitVec.eq_of_toNat_eq h) hmore
  · exact e
  · exact absurd hroot hoff

theorem countByte_walkedTo_of_truncated {s : State} {cur : NodeIdx} (h : s.remain.toNat = 1) (hoff : cur ≠ s.root)
    (syms : List Byte) : countByte (walkedTo syms cur s) =
      errorEntry .truncated (cur.setWidth 32) (walkedTo syms cur s) := by
  obtain ⟨hmore, -⟩ | ⟨-, hroot, -⟩ | ⟨-, -, e⟩ := countByte_cases (walkedTo syms cur s)
  · exact absurd (BitVec.eq_of_toNat_eq h) hmore
  · exact absurd hroot hoff
  · exact e

theorem exec_wrDecData_of_walk {s u : State} {d : Word} (herr : s.err = .noError) (hm : s.mode = .dec)
    (hroom : Config.decRoom ≤ freeRoom s) (hwalk : walkBits s (payloadBits s (dataByte d)) = .ok u) :
    exec (.wrDecData d) s = .next (countByte u) := by
  change execWrDecData d s = _
  rw [execWrDecData, gated_requireMode_met herr hm, if_neg (Nat.not_lt.2 hroom), hwalk]

/-- Settles O42: the walk stays on the tree, and then the byte is counted. -/
theorem decDataWalksTheByte : Obligations.DecDataWalksTheByte := by
  intro d s h herr hm hpos hroom
  obtain ⟨u, hu⟩ := h.walk_ok hm (payloadBits s (dataByte d))
  obtain ⟨syms, hwalked, hlen⟩ := walkBits_eq_walkedTo hu
  rw [hwalked] at hu
  refine ⟨_, syms, u.cur, hu, hlen.trans (payloadBits_length s _),
    exec_wrDecData_of_walk herr hm ((decRoom_le_freeRoom_iff s).2 hroom) hu,
    fun hmore => countByte_walkedTo_of_more hmore syms _, fun hlast hroot => ?_,
    fun hlast hoff => countByte_walkedTo_of_truncated hlast hoff syms⟩
  rw [countByte_walkedTo_of_done hlast hroot syms, hroot]
  rfl

/-! ### A payload byte in a stream -/

/-- A walk goes on from any state with the tree and the position it stopped at (R190). -/
theorem walkBits_resume {a b : State} {l r : List Bool} {syms syms' : List Byte} {cur : NodeIdx}
    (hl : walkBits a l = .ok (walkedTo syms b.cur a)) (hnodes : b.nodes = a.nodes) (hroot : b.root = a.root)
    (hr : walkBits b r = .ok (walkedTo syms' cur b)) : walkBits a (l ++ r) = .ok (walkedTo (syms ++ syms') cur a) := by
  obtain ⟨syms'', hout, htransfer⟩ :=
    walkBits_transfer (t := walkedTo syms b.cur a) hnodes hroot rfl r hr
  cases List.append_cancel_left hout
  rw [walkBits_append, hl, ← walkedTo_walkedTo]
  exact htransfer

/-- With room a write to DEC_DATA that completes has walked its byte (R189). -/
theorem exec_wrDecData_next {s t : State} {d : Word} (herr : s.err = .noError) (hm : s.mode = .dec)
    (hroom : Config.decRoom ≤ freeRoom s) (h : exec (.wrDecData d) s = .next t) :
    ∃ syms cur, walkBits s (payloadBits s (dataByte d)) = .ok (walkedTo syms cur s) ∧
      t = countByte (walkedTo syms cur s) := by
  change execWrDecData d s = _ at h
  rw [execWrDecData, gated_requireMode_met herr hm, if_neg (Nat.not_lt.2 hroom)] at h
  split at h
  · cases h
  · rename_i u hu
    cases h
    obtain ⟨syms, hwalked, -⟩ := walkBits_eq_walkedTo hu
    exact ⟨syms, u.cur, hwalked ▸ hu, congrArg countByte hwalked⟩

/-! ### A whole stream (R194) -/

/-- `payload` is `bits` and then PAD bits of padding, and the walk of `bits` from `a` emits `xs` and ends at ROOT. -/
structure PayloadOf (a : State) (bits : List Bool) (payload xs : List Byte) : Prop where
  pad_le : a.pad.toNat ≤ 7
  bits_eq : payload.flatMap byteBits = bits ++ List.replicate a.pad.toNat false
  walk : walkBits a bits = .ok (walkedTo xs a.root a)

/-- An open decode stream that began in `a`: of `payload` the bytes `bs` have been written to it, with at least one
to come, and the bytes `zs` popped from it, so `zs` and what `b` still holds are what the walk of `bs` emits. -/
structure DecodeStream (a : State) (payload bs zs : List Byte) (b : State) : Prop where
  err : b.err = .noError
  mode : b.mode = .dec
  pad : b.pad = a.pad
  nodes : b.nodes = a.nodes
  root : b.root = a.root
  left : bs.length + b.remain.toNat = payload.length
  more : 1 ≤ b.remain.toNat
  walked : walkBits a (bs.flatMap byteBits) = .ok (walkedTo (zs ++ b.out) b.cur a)

/-- A decode stream that is done: the bytes `zs` popped from it and what `b` still holds are `xs`. -/
structure Decoded (xs zs : List Byte) (b : State) : Prop where
  err : b.err = .noError
  mode : b.mode = .idle
  done : b.done = true
  out : zs ++ b.out = xs

/-- While bytes of the payload are to come the stream is open, and after the last it is done. -/
def Decoding (a : State) (payload xs bs zs : List Byte) (b : State) : Prop :=
  DecodeStream a payload bs zs b ∨ (bs = payload ∧ Decoded xs zs b)

theorem DecodeStream.pop {a b : State} {payload bs zs rest : List Byte} {c : Byte}
    (h : DecodeStream a payload bs zs b) (head : b.out = c :: rest) (r : Option Word) :
    DecodeStream a payload bs (zs ++ [c]) { b with out := rest, reply := r } :=
  { h with walked := by rw [h.walked, head, List.append_assoc]; rfl }

theorem Decoded.pop {b : State} {xs zs rest : List Byte} {c : Byte} (h : Decoded xs zs b) (head : b.out = c :: rest)
    (r : Option Word) : Decoded xs (zs ++ [c]) { b with out := rest, reply := r } :=
  { h with out := by rw [← h.out, head, List.append_assoc]; rfl }

/-- A byte before the last yields its eight bits, and the stream stays open (R189). -/
theorem DecodeStream.write_more {a b : State} {payload bs zs syms : List Byte} {x : Byte} {cur : NodeIdx}
    (h : DecodeStream a payload bs zs b) (hmore : 1 < b.remain.toNat)
    (hwalk : walkBits b (payloadBits b x) = .ok (walkedTo syms cur b)) :
    DecodeStream a payload (bs ++ [x]) zs (countByte (walkedTo syms cur b)) := by
  have hleft := h.left
  have hcount : (b.remain - 1#64).toNat = b.remain.toNat - 1 := by bv_omega
  rw [payloadBits_of_more hmore] at hwalk
  rw [countByte_walkedTo_of_more hmore]
  exact { h with
    left := by simp only [List.length_append, List.length_singleton, hcount]; omega
    more := by simp only [hcount]; omega
    walked := by
      rw [List.flatMap_append, List.flatMap_singleton, walkBits_resume h.walked h.nodes h.root hwalk,
        List.append_assoc]
      rfl }

/-- Without the padding of its last byte a payload is the bits of the bytes before it and the last byte's high
bits (R187). -/
theorem bits_eq_of_padded {bs : List Byte} {x : Byte} {bits : List Bool} {n : Nat}
    (h : (bs ++ [x]).flatMap byteBits = bits ++ List.replicate n false) (hn : n ≤ 7) :
    bits = bs.flatMap byteBits ++ (byteBits x).take (8 - n) := by
  have hlen := congrArg List.length h
  simp only [flatMap_byteBits_length, List.length_append, List.length_singleton, List.length_replicate] at hlen
  have htake : bits.length = (bs.flatMap byteBits).length + (8 - n) := by rw [flatMap_byteBits_length]; omega
  have hprefix := congrArg (List.take bits.length) h
  rw [List.take_left, List.flatMap_append, List.flatMap_singleton, htake, List.take_length_add_append] at hprefix
  exact hprefix.symm

/-- The last byte ends the walk of the payload's bits, at ROOT, so the stream is done (R191). -/
theorem DecodeStream.write_last {a b : State} {bits : List Bool} {xs bs zs syms : List Byte} {x : Byte}
    {cur : NodeIdx} (h : DecodeStream a (bs ++ [x]) bs zs b) (hp : PayloadOf a bits (bs ++ [x]) xs)
    (hlast : b.remain.toNat = 1) (hwalk : walkBits b (payloadBits b x) = .ok (walkedTo syms cur b)) :
    Decoded xs zs (countByte (walkedTo syms cur b)) := by
  rw [payloadBits_of_last hlast, h.pad] at hwalk
  have hall := walkBits_resume h.walked h.nodes h.root hwalk
  rw [← bits_eq_of_padded hp.bits_eq hp.pad_le, hp.walk] at hall
  have hend := Except.ok.inj hall
  have hcur : cur = b.root := ((congrArg State.cur hend).symm).trans h.root.symm
  have hout : xs = zs ++ b.out ++ syms := List.append_cancel_left (congrArg State.out hend)
  rw [countByte_walkedTo_of_done hlast hcur]
  exact ⟨h.err, rfl, rfl, by rw [hout, List.append_assoc]; rfl⟩

/-- A run over bytes of the payload keeps to the stream, by what each of its accesses does. -/
theorem DecodeRun.decoding {a b : State} {bits : List Bool} {payload xs bs zs : List Byte}
    (hp : PayloadOf a bits payload xs) (hstart : Decoding a payload xs [] [] a) (run : DecodeRun a bs zs b)
    (hpre : bs <+: payload) : Decoding a payload xs bs zs b := by
  induction run with
  | opened => exact hstart
  | @write bs zs b _ d _ ready done ih =>
    obtain h | ⟨rfl, -⟩ := ih ((List.prefix_append _ _).trans hpre)
    · obtain ⟨syms, cur, hwalk, rfl⟩ := exec_wrDecData_next h.err h.mode (inReady_decRoom ready h.mode) done
      by_cases hmore : 1 < b.remain.toNat
      · exact .inl (h.write_more hmore hwalk)
      · have hlast : b.remain.toNat = 1 := by have := h.more; omega
        have hall : bs ++ [dataByte d] = payload := hpre.eq_of_length (by simp [← h.left, hlast])
        subst hall
        exact .inr ⟨rfl, h.write_last hp hlast hwalk⟩
    · simpa using hpre.length_le
  | pop c rest _ head done ih =>
    cases (exec_rdOutData_of_cons head).symm.trans done
    exact (ih hpre).imp (·.pop head _) fun ⟨hall, h⟩ => ⟨hall, h.pop head _⟩
  | read i _ look still done ih =>
    obtain ⟨w, rfl⟩ := still_read_next look still done
    exact (ih hpre).imp (fun h => { h with }) fun ⟨hall, h⟩ => ⟨hall, { h with }⟩

/-! ### From the encoder to the decoder (R194) -/

/-- The symbols written to an encode stream have codes. -/
theorem EncodeRun.coded {s t : State} {xs ys : List Byte} (herr : s.err = .noError)
    (run : EncodeRun (openEncode s) xs ys t) : ∀ x ∈ xs, Coded s x := by
  induction run with
  | opened => exact List.forall_mem_nil _
  | write d run _ coded _ ih =>
    have hlast : Coded s (dataByte d) := by
      rw [Coded, ← (run.encodeStream herr).codeLen]
      exact coded
    exact List.forall_mem_append.2 ⟨ih, List.forall_mem_singleton.2 hlast⟩
  | pop _ _ _ _ _ ih => exact ih
  | read _ _ _ _ _ ih => exact ih

theorem EncodeStream.finish {s t v : State} {xs ys : List Byte} (h : EncodeStream s xs ys t)
    (hfin : exec .encFinish t = .next v) (hv : v.err = .noError) : v = finishEncode t := by
  by_cases hroom : 0 < t.accN.toNat → t.out.length < 64
  · cases (exec_encFinish_of_room h.err h.mode hroom).symm.trans hfin
    rfl
  · obtain ⟨hpart, hfull⟩ := Classical.not_imp.1 hroom
    have hnone := (freeRoom_eq_zero_iff t).2 (Nat.not_lt.1 hfull)
    cases (exec_encFinish_of_full h.err h.mode hpart hnone).symm.trans hfin
    cases hv

/-- `payload` holds the codes `s` has for `xs`, all of them symbols with a code, and `pad` bits of padding. -/
structure CodedPayload (s : State) (xs payload : List Byte) (pad : Byte) : Prop where
  coded : ∀ x ∈ xs, Coded s x
  bits_eq : payload.flatMap byteBits = xs.flatMap (codeBits s) ++ List.replicate pad.toNat false
  pad_le : pad.toNat ≤ 7

theorem EncodeRun.codedPayload {s t v : State} {xs ys : List Byte} (herr : s.err = .noError)
    (run : EncodeRun (openEncode s) xs ys t) (hfin : exec .encFinish t = .next v) (hv : v.err = .noError) :
    CodedPayload s xs (ys ++ v.out) v.pad := by
  have h := run.encodeStream herr
  cases h.finish hfin hv
  exact ⟨run.coded herr, h.payload, finishEncode_pad_le t⟩

theorem CodedPayload.length_eq {s : State} {xs payload : List Byte} {pad : Byte} (h : CodedPayload s xs payload pad) :
    8 * payload.length = (xs.flatMap (codeBits s)).length + pad.toNat := by
  rw [← flatMap_byteBits_length, h.bits_eq, List.length_append, List.length_replicate]

theorem CodedPayload.of_nil {s : State} {payload : List Byte} {pad : Byte} (h : CodedPayload s [] payload pad) :
    payload = [] ∧ pad = 0#8 := by
  have hlen : 8 * payload.length = 0 + pad.toNat := h.length_eq
  have hle := h.pad_le
  exact ⟨List.length_eq_zero_iff.1 (by omega), BitVec.eq_of_toNat_eq (show pad.toNat = 0 by omega)⟩

theorem CodedPayload.payload_pos {s : State} {xs payload : List Byte} {pad : Byte} (h : CodedPayload s xs payload pad)
    (hxs : xs ≠ []) : 0 < payload.length := by
  obtain ⟨x, hx⟩ := List.exists_mem_of_ne_nil xs hxs
  have hcode : codeBits s x ≠ [] := (coded_iff_codeBits_ne_nil s x).1 (h.coded x hx)
  have hpos : xs.flatMap (codeBits s) ≠ [] := fun hnil => hcode (List.flatMap_eq_nil_iff.1 hnil x hx)
  have hlen := h.length_eq
  have := List.length_pos_iff.2 hpos
  omega

/-- A valid code table holds the paths of the tree (R24, R153). -/
theorem Inv.path_of_coded {s : State} (h : Inv s) (hv : s.codesValid = true) {x : Byte} (hx : Coded s x) :
    PathToLeaf s (codeBits s x) x :=
  (h.tree.coded_iff (h.codes.current hv) x).1 hx

/-- The tree is a function of the frequency table (R23). -/
theorem TreeInv.tree_eq {s w : State} (hs : TreeInv s) (hw : TreeInv w) (hsv : s.treeValid = true)
    (hwv : w.treeValid = true) (hfreq : w.freq = s.freq) (hpresent : w.present = s.present) :
    w.nleaf = s.nleaf ∧ w.root = s.root ∧ w.nodes = s.nodes := by
  obtain ⟨-, hcount, hnodes⟩ := hs.current hsv
  obtain ⟨-, hcount', hnodes'⟩ := hw.current hwv
  rw [presentSymbols_congr hpresent] at hcount' hnodes'
  have hnleaf : w.nleaf = s.nleaf := BitVec.eq_of_toNat_eq (hcount'.trans hcount.symm)
  exact ⟨hnleaf, by rw [hw.root_eq, hs.root_eq, hnleaf], by rw [hnodes', hnodes, hfreq]⟩

/-- From ROOT of the tree the codes come from, the walk of the payload's codes emits its symbols. -/
theorem CodedPayload.payloadOf {s a : State} {xs payload : List Byte} (h : CodedPayload s xs payload a.pad)
    (hs : Inv s) (hv : s.codesValid = true) (hnodes : a.nodes = s.nodes) (hroot : a.root = s.root)
    (hcur : a.cur = a.root) : PayloadOf a (xs.flatMap (codeBits s)) payload xs where
  pad_le := h.pad_le
  bits_eq := h.bits_eq
  walk := walkBits_flatMap_paths (codeBits s) xs a hcur fun x hx => by
    rw [hnodes, hroot]
    exact ⟨(coded_iff_codeBits_ne_nil s x).1 (h.coded x hx), hs.path_of_coded hv (h.coded x hx)⟩

/-- DEC_START on the encoder's tree opens a stream for its payload, or is done at once with the empty one (R188). -/
theorem CodedPayload.decStart {s w : State} {xs payload : List Byte} (h : CodedPayload s xs payload w.pad)
    (hs : Inv s) (hv : s.codesValid = true) (hw : Inv w) (herr : w.err = .noError) (hm : w.mode = .idle)
    (hwv : w.treeValid = true) (hfreq : w.freq = s.freq) (hpresent : w.present = s.present)
    (hlen : w.decLen.toNat = payload.length) (hempty : xs = [] → s.nleaf = 0#9) :
    ∃ a, exec .decStart w = .next a ∧ PayloadOf a (xs.flatMap (codeBits s)) payload xs ∧
      Decoding a payload xs [] [] a := by
  obtain ⟨hnleaf, hroot, hnodes⟩ := hs.tree.tree_eq hw.tree (hs.control.codes_tree hv) hwv hfreq hpresent
  by_cases hxs : xs = []
  · subst hxs
    obtain ⟨rfl, hpad⟩ := h.of_nil
    have hcur : w.cur = w.root := hw.control.cur_root (by simp [hm])
    exact ⟨emptyDecode w, exec_decStart_of_empty_container herr hm hwv hpad (hnleaf.trans (hempty rfl))
      (BitVec.eq_of_toNat_eq hlen), CodedPayload.payloadOf (a := emptyDecode w) h hs hv hnodes hroot hcur,
      .inr ⟨rfl, herr, hm, rfl, rfl⟩⟩
  · obtain ⟨x, hx⟩ := List.exists_mem_of_ne_nil xs hxs
    have hleaf : w.nleaf ≠ 0#9 := fun hzero =>
      hs.tree.no_path_of_empty (hnleaf.symm.trans hzero) _ x (hs.path_of_coded hv (h.coded x hx))
    have hpos : 0 < w.decLen.toNat := hlen ▸ h.payload_pos hxs
    have hopen : DecodeStream (openDecode w) payload [] [] (openDecode w) :=
      ⟨herr, rfl, rfl, rfl, rfl, (Nat.zero_add _).trans hlen, hpos, rfl⟩
    exact ⟨openDecode w, exec_decStart_of_payload herr hm hwv h.pad_le hleaf fun hzero => by simp [hzero] at hpos,
      CodedPayload.payloadOf (a := openDecode w) h hs hv hnodes hroot rfl, .inl hopen⟩

/-- Settles O47: the payload holds the codes of `xs`, which the walk gives back, whatever the host reads between the
bytes. -/
theorem payloadsDecodeToTheirSymbols : Obligations.PayloadsDecodeToTheirSymbols := by
  intro s u t v w xs ys hs herr hm hv hopen run hfin hverr hw hwerr hwm hwv hfreq hpresent hpad hlen hempty
  cases (exec_encStart_of_codes herr hm hv).symm.trans hopen
  have hpayload := hpad ▸ run.codedPayload herr hfin hverr
  obtain ⟨a, hstart, hp, hbegun⟩ :=
    hpayload.decStart hs hv hw hwerr hwm hwv hfreq hpresent hlen hempty
  refine ⟨a, hstart, fun bs zs b drun hpre => ?_⟩
  obtain h | ⟨-, h⟩ := drun.decoding hp hbegun hpre
  · refine ⟨h.err, fun hall => ?_⟩
    have hleft := h.left
    have hmore := h.more
    rw [hall] at hleft
    omega
  · exact ⟨h.err, fun _ => ⟨h.out, h.mode, h.done⟩⟩

end Sys2Proof.Machine
end

section
/-! PROOFS of the statements on control, the output FIFO and STATUS (45_control_output.md): CLEAR, NOP, ACK_ERR and
ABORT, the pop of RD_OUT_DATA, and the fields of the word RD_STATUS returns. -/

namespace Sys2Proof.Machine

/-! ### Control commands (R210 to R213) -/

/-- Settles O2: CLEAR answers `clearAll`, which keeps `pending` and `reply` alone. -/
theorem clearGivesTheResetState : Obligations.ClearGivesTheResetState := fun _ => rfl

/-- Settles O3: neither command is gated, and ACK_ERR answers `leaveError`. -/
theorem nopAndAckErrAlwaysAct : Obligations.NopAndAckErrAlwaysAct := fun _ => ⟨rfl, rfl⟩

theorem exec_abort_of_error {s : State} (herr : s.err ≠ .noError) : exec .abort s = .next s :=
  gated_error herr _

theorem exec_abort_idle {s : State} (herr : s.err = .noError) (hm : s.mode = .idle) : exec .abort s = .next s :=
  (gated_clear herr _).trans (if_pos hm)

theorem exec_abort_in_stream {s : State} (herr : s.err = .noError) (hm : s.mode ≠ .idle) :
    exec .abort s = .next { s with mode := .idle, acc := 0#8, accN := 0#3, remain := 0#64, cur := s.root } :=
  (gated_clear herr _).trans (if_neg hm)

/-- Settles O4: the gate, then the case of no stream, then the close of an open one. -/
theorem abortClosesTheStream : Obligations.AbortClosesTheStream := fun _ =>
  ⟨exec_abort_of_error, exec_abort_idle, exec_abort_in_stream⟩

/-! ### The pop (R214) -/

theorem exec_rdOutData_of_nil {s : State} (hout : s.out = []) :
    exec .rdOutData s = .next { s with reply := some 0x00000000#32 } := by
  change execRdOutData s = _
  simp [execRdOutData, popOut, hout]

/-- Bit 8 lies above the byte, so to set it is to add 256. -/
theorem outDataWord_toNat (b : Byte) : (0x00000100#32 ||| b.setWidth 32).toNat = 256 + b.toNat := by
  rw [BitVec.toNat_or, BitVec.toNat_setWidth_of_le (by decide)]
  exact (Nat.two_pow_add_eq_or_of_lt (i := 8) b.isLt 1).symm

/-- Settles O48: the head with bit 8 set, or 0 from an empty FIFO. -/
theorem outDataPopsOneByte : Obligations.OutDataPopsOneByte := fun _ =>
  ⟨fun b _ hout => ⟨_, outDataWord_toNat b, exec_rdOutData_of_cons hout⟩, exec_rdOutData_of_nil⟩

/-! ### STATUS (R45, R46, R216) -/

theorem exec_rdStatus (s : State) : exec .rdStatus s = .next { s with reply := some (statusWord s) } := rfl

theorem inReady_iff (s : State) : inReady s = true ↔ s.err = .noError ∧
    ((s.mode = .enc ∧ 32 ≤ 64 - s.out.length) ∨ (s.mode = .dec ∧ 8 ≤ 64 - s.out.length)) := by
  simp only [inReady, Bool.and_eq_true, Bool.or_eq_true, decide_eq_true_eq]
  rfl

theorem outValid_iff (s : State) : outValid s = true ↔ 0 < s.out.length := decide_eq_true_iff

theorem statusWord_flags (s : State) : (statusWord s).getLsbD 2 = s.treeValid ∧
    (statusWord s).getLsbD 3 = s.codesValid ∧ (statusWord s).getLsbD 4 = s.done ∧
    (statusWord s).getLsbD 5 = inReady s ∧ (statusWord s).getLsbD 6 = outValid s ∧
    (statusWord s).getLsbD 7 = false := by
  simp only [statusWord, BitVec.getLsbD_append]
  simp

/-- Each window of STATUS skips the fields to its right, then takes one field whole (R46). -/
theorem statusWord_windows (s : State) : (statusWord s).extractLsb' 0 2 = s.mode.bits ∧
    (statusWord s).extractLsb' 8 4 = s.err.bits ∧ (statusWord s).extractLsb' 12 20 = 0#20 := by
  unfold statusWord
  refine ⟨BitVec.extractLsb'_append_eq_right, ?_, ?_⟩
  · iterate 7 rw [BitVec.extractLsb'_append_eq_of_le (by decide)]
    exact BitVec.extractLsb'_append_eq_right
  · iterate 7 rw [BitVec.extractLsb'_append_eq_of_le (by decide)]
    exact BitVec.extractLsb'_append_eq_left

/-- Settles O49: the word is `statusWord`, field by field. -/
theorem statusFields : Obligations.StatusFields := by
  intro s
  obtain ⟨htree, hcodes, hdone, hready, hvalid, hzero⟩ := statusWord_flags s
  obtain ⟨hmode, herr, hzeros⟩ := statusWord_windows s
  exact ⟨statusWord s, exec_rdStatus s, hmode, htree, hcodes, hdone, hready ▸ inReady_iff s, hvalid ▸ outValid_iff s,
    hzero, herr, hzeros⟩

end Sys2Proof.Machine
end

section
/-! PROOFS of the error statements (60_exceptions.md): what the error entry writes, which outcomes of an operation
leave an error recorded, and what still acts while one is. -/

namespace Sys2Proof.Machine

/-! ### The error entry (R234) -/

/-- Settles O15: the entry writes its eight fields and is a record update of the state for the rest. -/
theorem errorEntryClosesTheStream : Obligations.ErrorEntryClosesTheStream := fun _ _ _ =>
  ⟨rfl, rfl, rfl, rfl, rfl, rfl, rfl, rfl, rfl⟩

/-! ### What an operation does to ERR (R233) -/

/-- What operation `i` can do to ERR: it is turned away, it keeps or clears ERR, or its byte ends a payload off
ROOT. -/
inductive ErrOutcome (i : Instr) (s : State) : State → Prop where
  | turnedAway {t : State} (away : TurnedAway s t) : ErrOutcome i s t
  | kept {t : State} (herr : t.err = s.err) : ErrOutcome i s t
  | cleared {t : State} (herr : t.err = .noError) : ErrOutcome i s t
  | truncated (d : Word) (u : State) (hi : i = .wrDecData d) (herr : s.err = .noError)
      (walked : walkBits s (payloadBits s (dataByte d)) = .ok u) :
      ErrOutcome i s (errorEntry .truncated (u.cur.setWidth 32) u)

theorem buildTree_err (s : State) : (buildTree s).err = s.err := by rw [buildTree_frame]

theorem packBits_err (s : State) (l : List Bool) : (packBits s l).err = s.err := by rw [packBits_frame]

theorem walkBits_err {s u : State} {l : List Bool} (h : walkBits s l = .ok u) : u.err = s.err := by
  rw [walkBits_frame h]

theorem command_errOutcome {i : Instr} {c : Cmd} {s t : State} (h : exec c.toInstr s = .next t) :
    ErrOutcome i s t := by
  cases c with
  | nop => cases h; exact .kept rfl
  | clear => cases h; exact .cleared rfl
  | buildTree =>
    obtain away | ⟨-, -, -, rfl⟩ := execBuildTree_next h
    · exact .turnedAway away
    · exact .kept (buildTree_err s)
  | genCodes =>
    obtain away | ⟨-, -, -, _, -, rfl⟩ := execGenCodes_next h
    · exact .turnedAway away
    · exact .kept rfl
  | encStart =>
    obtain away | ⟨-, -, -, rfl⟩ := execEncStart_next h
    · exact .turnedAway away
    · exact .kept rfl
  | encFinish =>
    obtain away | ⟨-, -, -, rfl⟩ := execEncFinish_next h
    · exact .turnedAway away
    · exact .kept (by split <;> rfl)
  | decStart =>
    obtain away | ⟨-, -, -, -, ⟨-, -, rfl⟩ | ⟨-, -, rfl⟩⟩ := execDecStart_next h
    · exact .turnedAway away
    · exact .kept rfl
    · exact .kept rfl
  | abort =>
    obtain rfl | ⟨-, -, rfl⟩ := execAbort_next h
    · exact .kept rfl
    · exact .kept rfl
  | ackErr => cases h; exact .cleared rfl

/-- Every read completes with a word and leaves ERR, whatever ERR is. -/
theorem read_replies_and_keeps_err {i : Instr} (hr : isRead i = true) (s : State) :
    ∃ t w, exec i s = .next t ∧ t.reply = some w ∧ t.err = s.err := by
  by_cases hi : i = .rdOutData
  · subst hi
    obtain ⟨-, h⟩ | ⟨_, _, -, h⟩ := execRdOutData_eq s
    · exact ⟨_, _, h, rfl, rfl⟩
    · exact ⟨_, _, h, rfl, rfl⟩
  · obtain ⟨w, h⟩ := read_next hr hi s
    exact ⟨_, w, h, rfl, rfl⟩

theorem read_errOutcome {i : Instr} {s t : State} (hr : isRead i = true) (h : exec i s = .next t) :
    ErrOutcome i s t := by
  obtain ⟨_, _, hnext, -, hkept⟩ := read_replies_and_keeps_err hr s
  cases hnext.symm.trans h
  exact .kept hkept

theorem wrDecData_errOutcome {d : Word} {s t : State} (h : execWrDecData d s = .next t) :
    ErrOutcome (.wrDecData d) s t := by
  obtain away | ⟨herr, -, -, u, walked, rfl⟩ := execWrDecData_next h
  · exact .turnedAway away
  · have hkept : u.err = s.err := walkBits_err walked
    obtain ⟨-, e⟩ | ⟨-, -, e⟩ | ⟨-, -, e⟩ := countByte_cases u <;> rw [e]
    · exact .kept hkept
    · exact .kept hkept
    · exact .truncated d u rfl herr walked

theorem exec_errOutcome {i : Instr} {s t : State} (h : exec i s = .next t) : ErrOutcome i s t := by
  cases i with
  | nop => exact command_errOutcome (c := .nop) h
  | clear => exact command_errOutcome (c := .clear) h
  | buildTree => exact command_errOutcome (c := .buildTree) h
  | genCodes => exact command_errOutcome (c := .genCodes) h
  | encStart => exact command_errOutcome (c := .encStart) h
  | encFinish => exact command_errOutcome (c := .encFinish) h
  | decStart => exact command_errOutcome (c := .decStart) h
  | abort => exact command_errOutcome (c := .abort) h
  | ackErr => exact command_errOutcome (c := .ackErr) h
  | wrCmd w =>
    obtain away | ⟨_, -, h⟩ := execWrCmd_next h
    · exact .turnedAway away
    · exact command_errOutcome h
  | wrFreq x v =>
    obtain away | ⟨-, -, rfl⟩ := execWrFreq_next h
    · exact .turnedAway away
    · exact .kept rfl
  | wrEncData d =>
    obtain away | ⟨-, -, -, -, rfl⟩ := execWrEncData_next h
    · exact .turnedAway away
    · exact .kept (packBits_err s _)
  | wrPad d =>
    obtain away | ⟨-, -, rfl⟩ := execWrPad_next h
    · exact .turnedAway away
    · exact .kept rfl
  | wrDecLenLo d =>
    obtain away | ⟨-, -, rfl⟩ := execWrDecLenLo_next h
    · exact .turnedAway away
    · exact .kept rfl
  | wrDecLenHi d =>
    obtain away | ⟨-, -, rfl⟩ := execWrDecLenHi_next h
    · exact .turnedAway away
    · exact .kept rfl
  | wrDecData d => exact wrDecData_errOutcome h
  | _ => exact read_errOutcome rfl h

/-- Settles O16, by the outcomes for ERR: only a raised error and a truncated payload leave one recorded. -/
theorem errorsArePrecise : Obligations.ErrorsArePrecise := by
  intro i s t herr h hraised
  cases exec_errOutcome h with
  | turnedAway away =>
    cases away with
    | ignored => exact absurd herr hraised
    | raised => exact .inl rfl
  | kept hkept => exact absurd (hkept.trans herr) hraised
  | cleared hcleared => exact absurd hcleared hraised
  | truncated d u hi _ walked => exact .inr ⟨rfl, d, u, hi, walked, rfl⟩

/-! ### Command words while an error is recorded (R102, R235) -/

theorem encode_of_cmdOfOpcode {op : Byte} {c : Cmd} (h : cmdOfOpcode op = some c) :
    encode c.toInstr = .cmd (op.setWidth 32) := by
  unfold cmdOfOpcode at h
  iterate 9
    split at h
    · subst op; cases h; rfl
  cases h

theorem eq_opcode_of_reserved_zero {w : Word} (h : cmdReserved w = 0#24) : w = (cmdOpcode w).setWidth 32 := by
  have hhigh := congrArg BitVec.toNat h
  apply BitVec.eq_of_toNat_eq
  simp only [cmdReserved, cmdOpcode, BitVec.extractLsb'_toNat, BitVec.toNat_setWidth, BitVec.toNat_ofNat,
    Nat.shiftRight_eq_div_pow] at hhigh ⊢
  omega

/-- A command has one word: RSV is 0 and OPCODE is its own. -/
theorem encode_of_decodeCmd {w : Word} {c : Cmd} (h : decodeCmd w = .ok c) : encode c.toInstr = .cmd w := by
  unfold decodeCmd at h
  split at h
  next hrsv =>
    rw [eq_opcode_of_reserved_zero hrsv]
    apply encode_of_cmdOfOpcode
    cases hop : cmdOfOpcode (cmdOpcode w) with
    | none => rw [hop] at h; cases h
    | some _ => rw [hop] at h; cases h; rfl
  next => cases h

/-- Every word but NOP's, CLEAR's and ACK_ERR's is ignored, as illegal or as a gated command. -/
theorem exec_wrCmd_of_error {s : State} (herr : s.err ≠ .noError) {w : Word} (hnop : w ≠ 0x00000000#32)
    (hclear : w ≠ 0x00000001#32) (hack : w ≠ 0x00000008#32) : exec (.wrCmd w) s = .next s := by
  by_cases hlegal : ∃ c, decodeCmd w = .ok c
  · obtain ⟨c, hc⟩ := hlegal
    have hword := encode_of_decodeCmd hc
    rw [exec_wrCmd_of_ok hc]
    cases c with
    | nop => cases hword; exact absurd rfl hnop
    | clear => cases hword; exact absurd rfl hclear
    | buildTree => exact exec_buildTree_of_error herr
    | genCodes => exact exec_genCodes_of_error herr
    | encStart => exact exec_encStart_of_error herr
    | encFinish => exact exec_encFinish_of_error herr
    | decStart => exact exec_decStart_of_error herr
    | abort => exact exec_abort_of_error herr
    | ackErr => cases hword; exact absurd rfl hack
  · rw [exec_wrCmd_of_illegal hlegal, gated_error herr]

/-! ### Reads while an error is recorded (R235) -/

/-- Only STATUS shows ERR: what any other read does, the pop of RD_OUT_DATA included, does not depend on it. -/
theorem exec_read_ignores_err {i : Instr} (hr : isRead i = true) (hi : i ≠ .rdStatus) {s t : State}
    (h : exec i s = .next t) (e : ErrCode) : exec i { s with err := e } = .next { t with err := e } := by
  cases i with
  | nop | clear | buildTree | genCodes | encStart | encFinish | decStart | abort | ackErr | wrCmd _
  | wrFreq _ _ | wrEncData _ | wrPad _ | wrDecLenLo _ | wrDecLenHi _ | wrDecData _ => cases hr
  | rdStatus => exact absurd rfl hi
  | rdOutData =>
    obtain ⟨hout, hnext⟩ | ⟨_, _, hout, hnext⟩ := execRdOutData_eq s <;> cases hnext.symm.trans h
    · exact exec_rdOutData_of_nil (s := { s with err := e }) hout
    · exact exec_rdOutData_of_cons (s := { s with err := e }) hout
  | _ => cases h; rfl

/-! ### The first error stays (R235) -/

theorem exec_keeps_or_clears_err {i : Instr} {s t : State} (herr : s.err ≠ .noError) (h : exec i s = .next t) :
    t.err = s.err ∨ t.err = .noError := by
  cases exec_errOutcome h with
  | turnedAway away =>
    cases away with
    | ignored => exact .inl rfl
    | raised hclear => exact absurd hclear herr
  | kept hkept => exact .inl hkept
  | cleared hcleared => exact .inr hcleared
  | truncated _ _ _ hclear => exact absurd hclear herr

/-- Settles O17: the gated writes and command words, the three commands that act, the reads, and the outcomes for
ERR. -/
theorem gatingWhileAnErrorIsRecorded : Obligations.GatingWhileAnErrorIsRecorded := by
  intro s herr
  refine ⟨fun _ _ => gated_error herr _, fun _ => gated_error herr _, fun _ => gated_error herr _,
    fun _ => gated_error herr _, fun d => exec_wrEncData_of_error herr d, fun d => exec_wrDecData_of_error herr d,
    fun _ => exec_wrCmd_of_error herr, exec_wrCmd_of_ok (c := .nop) rfl s, exec_wrCmd_of_ok (c := .clear) rfl s,
    exec_wrCmd_of_ok (c := .ackErr) rfl s, fun i hr => ?_, fun i t => exec_keeps_or_clears_err herr⟩
  obtain ⟨t, w, h, hreply, hkept⟩ := read_replies_and_keeps_err hr s
  exact ⟨t, w, h, hreply, hkept, fun hi => exec_read_ignores_err hr hi h .noError⟩

end Sys2Proof.Machine
end

section
/-! PROOF of the reset statement (70_reset_and_hazards.md): each table of the reset state at every index, and the STATUS
word the host then reads. -/

namespace Sys2Proof.Machine

/-! ### The reset state (R260) -/

theorem codeWordAt_replicate (w : Word) (k : BitVec 3) : codeWordAt (Vector.replicate 8 w) k = w :=
  Vector.getElem_replicate k.isLt

theorem codeWordAt_reset (x : Byte) (k : BitVec 3) : codeWordAt (atSym State.reset.codeWord x) k = 0#32 := by
  have hrow : atSym State.reset.codeWord x = Vector.replicate 8 0#32 := atSym_replicate _ x
  rw [hrow, codeWordAt_replicate]

/-- R46 at reset: no flag is set, ERR is 0, MODE is IDLE, and an empty OUT with no open stream leaves OUT_VALID and
IN_READY 0. -/
theorem statusWord_reset : statusWord State.reset = 0x00000000#32 := by decide

/-- Settles O1: the registers by definition, the tables entry by entry, and the two words read back. -/
theorem resetGivesEveryElementItsValue : Obligations.ResetGivesEveryElementItsValue :=
  ⟨reset_mode, reset_treeValid, reset_codesValid, reset_done, reset_err, reset_errInfo,
    fun x => ⟨atSym_replicate _ x, atSym_replicate _ x, atSym_replicate _ x, codeWordAt_reset x⟩, reset_nodes,
    reset_nleaf, reset_root, reset_acc, reset_accN, reset_encBits, reset_pad, reset_decLen, reset_remain, reset_cur,
    reset_out, statusWord_reset, _, rfl, rfl⟩

end Sys2Proof.Machine
end
